-- ==== Sys2Proof/Word.lean ====
section
/-! DEFINITION. The word types of the CORE: the spec's only data are unsigned numbers of fixed width and bytes (spec/00_scope.md R7, R17). -/

namespace Sys2Proof

/-- A 32-bit register of the register port (spec/10_state.md R21). -/
abbrev Word := BitVec 32

/-- A 16-bit field: an option number, a descriptor offset or length, a message id (spec/10_state.md R28 to R33). -/
abbrev Half := BitVec 16

/-- A byte (spec/00_scope.md R7). -/
abbrev Byte := BitVec 8

/-- A selector nibble of an option header byte, or the token length field (spec/00_scope.md R13, spec/10_state.md R28). -/
abbrev Nibble := BitVec 4

end Sys2Proof
end

