-- ==== Sys2Proof/Syntax.lean ====
section
/-! DEFINITION. The instructions of the CORE: one constructor for each row of spec/opcode_table.json. The first six are the
command words of the CMD register (spec/30_encoding.md R81, R82); the other fourteen are the wire forms that the decoder
meets at byte 0 of a message (R84) and at an option header position (R88, R92). -/

namespace Sys2Proof

inductive Instr where
  /-- DECODE, command word 1 (R81, spec/41_decode.md R130). -/
  | decode
  /-- ENCODE, command word 2 (R81, spec/42_encode.md R177). -/
  | encode
  /-- CONSTRUCT, command word 3 (R81, spec/42_encode.md R169). -/
  | construct
  /-- PACKF, command word 4 (R81, spec/42_encode.md R162). -/
  | packf
  /-- UNPACKF, command word 5 (R81, spec/41_decode.md R122). -/
  | unpackf
  /-- ILLEGAL_CMD: any other 32-bit word written to CMD (R82, spec/40_command_interface.md R105). -/
  | illegalCmd (word : Word)
  /-- HDR0: byte 0 `vvttkkkk` with a token length 0 to 8 (R84). -/
  | hdr0 (ver typ : BitVec 2) (tkl : Nibble)
  /-- HDR0_TKL_RESERVED: byte 0 `vvtt1kkk` with a token length 9 to 15, that is `8 + k` with `k ≠ 0` (R84, R91). -/
  | hdr0TklReserved (ver typ : BitVec 2) (k : BitVec 3)
  /-- PAYLOAD_MARKER: the byte 0xFF at a header position (R90, R92). -/
  | payloadMarker
  /-- OPT_DELTA_RESERVED: header byte `1111llll`, `l` from 0 to 14 (R91, R92). -/
  | optDeltaReserved (l : Nibble)
  /-- OPT_LENGTH_RESERVED: header byte `dddd1111`, `d` from 0 to 14 (R91, R92). -/
  | optLengthReserved (d : Nibble)
  /-- OPT_DDIR_LDIR: delta and length both direct, 0 to 12 (R88). -/
  | optDdirLdir (d l : Nibble)
  /-- OPT_DDIR_LX13: delta direct, length selector 13 (R88). -/
  | optDdirLx13 (d : Nibble)
  /-- OPT_DDIR_LX14: delta direct, length selector 14 (R88). -/
  | optDdirLx14 (d : Nibble)
  /-- OPT_DX13_LDIR: delta selector 13, length direct (R88). -/
  | optDx13Ldir (l : Nibble)
  /-- OPT_DX13_LX13: both selectors 13 (R88). -/
  | optDx13Lx13
  /-- OPT_DX13_LX14: delta selector 13, length selector 14 (R88). -/
  | optDx13Lx14
  /-- OPT_DX14_LDIR: delta selector 14, length direct (R88). -/
  | optDx14Ldir (l : Nibble)
  /-- OPT_DX14_LX13: delta selector 14, length selector 13 (R88). -/
  | optDx14Lx13
  /-- OPT_DX14_LX14: both selectors 14 (R88). -/
  | optDx14Lx14
  deriving DecidableEq, Repr

/-- An instruction as the engine fetches it, with the place it was fetched from, which says how its bits are read: the
command word of PHASE (spec/40_command_interface.md R103), byte 0 of the message in IBUF (spec/41_decode.md R124), or the
byte at an option header position (R125). -/
inductive Fetched where
  | cmd (word : Word)
  | byte0 (b : Byte)
  | optHdr (b : Byte)
  deriving DecidableEq, Repr

end Sys2Proof
end

