-- ==== Sys2Proof/WellFormed.lean ====
section
/-! DEFINITION. Which terms of `Instr` are instructions: the ranges that the opcode table gives the fields of each row
(spec/30_encoding.md R82, R84, R88, R91, R92). Every other term encodes to a word of another row. -/

namespace Sys2Proof

/-- A selector that stands for its own value, 0 to 12 (R88). -/
abbrev DirectSelector (s : Nibble) : Prop := s.toNat ≤ 12

/-- A selector other than the reserved 15 (R88). -/
abbrev OpenSelector (s : Nibble) : Prop := s.toNat ≤ 14

/-- The five legal command words (R81). -/
abbrev LegalCommandWord (w : Word) : Prop := 1 ≤ w.toNat ∧ w.toNat ≤ 5

/-- The well-formedness check, one line per constructor. -/
def wellFormed : Instr → Bool
  | .decode => true
  | .encode => true
  | .construct => true
  | .packf => true
  | .unpackf => true
  | .illegalCmd w => !decide (LegalCommandWord w)
  | .hdr0 _ _ tkl => decide (tkl.toNat ≤ 8)
  | .hdr0TklReserved _ _ k => decide (k.toNat ≠ 0)
  | .payloadMarker => true
  | .optDeltaReserved l => decide (OpenSelector l)
  | .optLengthReserved d => decide (OpenSelector d)
  | .optDdirLdir d l => decide (DirectSelector d) && decide (DirectSelector l)
  | .optDdirLx13 d => decide (DirectSelector d)
  | .optDdirLx14 d => decide (DirectSelector d)
  | .optDx13Ldir l => decide (DirectSelector l)
  | .optDx13Lx13 => true
  | .optDx13Lx14 => true
  | .optDx14Ldir l => decide (DirectSelector l)
  | .optDx14Lx13 => true
  | .optDx14Lx14 => true

/-- An instruction is well formed when its check says so. -/
abbrev WellFormed (i : Instr) : Prop := wellFormed i = true

end Sys2Proof
end

