-- ==== Sys2Proof/Decode.lean ====
section
/-! DEFINITION. The decoder of command words and wire bytes (spec/30_encoding.md R81, R82, R84, R91, R92), total on what the
engine can fetch and refusing by name what is no word of the opcode table; then the encoder, written from the same tables. -/

namespace Sys2Proof

/-- The high nibble of a byte, the delta selector of a header byte (R87). -/
def highNibble (b : Byte) : Nibble := b.extractLsb' 4 4

/-- The low nibble of a byte, the length selector of a header byte (R87). -/
def lowNibble (b : Byte) : Nibble := b.extractLsb' 0 4

/-- A header byte from its two selectors, `dsel << 4 | lsel` (R87). -/
def headerByte (dsel lsel : Nibble) : Byte := dsel ++ lsel

/-- Byte 0 of a message, `VER << 6 | TYPE << 4 | TKL` (R84). -/
def byte0Of (ver typ : BitVec 2) (tkl : Nibble) : Byte := ver ++ typ ++ tkl

/-- The version field of byte 0 (R84). -/
def byte0Ver (b : Byte) : BitVec 2 := b.extractLsb' 6 2

/-- The type field of byte 0 (R84). -/
def byte0Typ (b : Byte) : BitVec 2 := b.extractLsb' 4 2

/-- The token length field of byte 0 (R84). -/
def byte0Tkl (b : Byte) : Nibble := b.extractLsb' 0 4

/-- The command a word written to CMD stands for: five legal words, every other value is the illegal command (R81, R82). -/
def decodeCmd (w : Word) : Instr :=
  if w = 1 then .decode
  else if w = 2 then .encode
  else if w = 3 then .construct
  else if w = 4 then .packf
  else if w = 5 then .unpackf
  else .illegalCmd w

/-- Byte 0 of a message (R84): token lengths 0 to 8 are legal, 9 to 15 reserved. -/
def decodeByte0 (b : Byte) : Instr :=
  if (byte0Tkl b).toNat ≤ 8 then .hdr0 (byte0Ver b) (byte0Typ b) (byte0Tkl b)
  else .hdr0TklReserved (byte0Ver b) (byte0Typ b) (b.extractLsb' 0 3)

/-- The option form of two selectors, neither of which is 15 (R88). -/
def optionForm (d l : Nibble) : Instr :=
  if d.toNat ≤ 12 then
    if l.toNat ≤ 12 then .optDdirLdir d l
    else if l = 13 then .optDdirLx13 d
    else .optDdirLx14 d
  else if d = 13 then
    if l.toNat ≤ 12 then .optDx13Ldir l
    else if l = 13 then .optDx13Lx13
    else .optDx13Lx14
  else
    if l.toNat ≤ 12 then .optDx14Ldir l
    else if l = 13 then .optDx14Lx13
    else .optDx14Lx14

/-- The byte at an option header position, in the priority of R92: the marker, the reserved delta, then an option, whose
length selector may be reserved (R91). -/
def decodeOptHdr (b : Byte) : Instr :=
  if b = 0xFF then .payloadMarker
  else if highNibble b = 15 then .optDeltaReserved (lowNibble b)
  else if lowNibble b = 15 then .optLengthReserved (highNibble b)
  else optionForm (highNibble b) (lowNibble b)

/-- The decoder on whatever the engine fetches. -/
def decode : Fetched → Instr
  | .cmd w => decodeCmd w
  | .byte0 b => decodeByte0 b
  | .optHdr b => decodeOptHdr b

/-- Why bits that are given from outside are no instruction. -/
inductive DecodeReject where
  /-- No row of the opcode table has this many bits. -/
  | noRowOfThisWidth (nbits : Nat)
  /-- The value does not fit in the row's bits. -/
  | bitsAboveWidth (nbits w : Nat)
  /-- There is no byte left to read. -/
  | endOfBytes
  deriving DecidableEq, Repr

/-- The two positions of the wire format at which a form is read (R84, R92). -/
inductive WirePosition where
  | messageStart
  | headerPosition
  deriving DecidableEq, Repr

/-- The wire form at the head of a byte sequence, with the bytes after it, or a rejection by name. -/
def decodeWire : WirePosition → List Byte → Except DecodeReject (Instr × List Byte)
  | _, [] => .error .endOfBytes
  | .messageStart, b :: rest => .ok (decodeByte0 b, rest)
  | .headerPosition, b :: rest => .ok (decodeOptHdr b, rest)

/-- What the engine would fetch for a row of the opcode table: 32 bits are a command word; 8 bits are read at a header
position, where all but two of the 8-bit rows stand (byte 0 has the same 8 bits and no mark of its own; assumption log
entry 8). -/
def fetchedOfTable (nbits w : Nat) : Except DecodeReject Fetched :=
  if nbits = 32 then
    if w < 4294967296 then .ok (.cmd (BitVec.ofNat 32 w)) else .error (.bitsAboveWidth nbits w)
  else if nbits = 8 then
    if w < 256 then .ok (.optHdr (BitVec.ofNat 8 w)) else .error (.bitsAboveWidth nbits w)
  else .error (.noRowOfThisWidth nbits)

/-- The instruction the decoder reads from a word numbered as spec/opcode_table.json numbers it. -/
def decodeTableWord (nbits w : Nat) : Option Instr :=
  match fetchedOfTable nbits w with
  | .ok f => some (decode f)
  | .error _ => none

/-- The encoder: what the engine fetches for an instruction, from the tables of R81, R84, R88 and R91. -/
def encode : Instr → Fetched
  | .decode => .cmd 1
  | .encode => .cmd 2
  | .construct => .cmd 3
  | .packf => .cmd 4
  | .unpackf => .cmd 5
  | .illegalCmd w => .cmd w
  | .hdr0 ver typ tkl => .byte0 (byte0Of ver typ tkl)
  | .hdr0TklReserved ver typ k => .byte0 (byte0Of ver typ (1#1 ++ k))
  | .payloadMarker => .optHdr 0xFF
  | .optDeltaReserved l => .optHdr (headerByte 15 l)
  | .optLengthReserved d => .optHdr (headerByte d 15)
  | .optDdirLdir d l => .optHdr (headerByte d l)
  | .optDdirLx13 d => .optHdr (headerByte d 13)
  | .optDdirLx14 d => .optHdr (headerByte d 14)
  | .optDx13Ldir l => .optHdr (headerByte 13 l)
  | .optDx13Lx13 => .optHdr (headerByte 13 13)
  | .optDx13Lx14 => .optHdr (headerByte 13 14)
  | .optDx14Ldir l => .optHdr (headerByte 14 l)
  | .optDx14Lx13 => .optHdr (headerByte 14 13)
  | .optDx14Lx14 => .optHdr (headerByte 14 14)

end Sys2Proof
end

