-- ==== Sys2Proof/Config.lean ====
section
/-! DEFINITION. What an implementation of the CORE fixes: the three build-time parameters (spec/00_scope.md R5) and the values the spec leaves open, each an opaque constant of which nothing can be proved. -/

namespace Sys2Proof

/-- The build-time parameters of R5, with the widths of the registers CFG0 and CFG1 that show them (spec/10_state.md R39).
They are plain data of the machine's state that no step changes, so that a statement about every state is a statement about
every configuration. -/
structure Params where
  /-- `MAX_PACKET_SIZE`: the largest message ENCODE may produce, and the size of OBUF. -/
  maxPacketSize : Half
  /-- `MAX_OPTIONS`: the capacity of the option table. -/
  maxOptions : Byte
  /-- `IBUF_SIZE`: the size of the input buffer. -/
  ibufSize : Half
  deriving DecidableEq, Repr

/-- The legal ranges of R5: `4 ≤ MAX_PACKET_SIZE ≤ 65535`, `1 ≤ MAX_OPTIONS ≤ 255`, `4 ≤ IBUF_SIZE ≤ 65535`
(the upper bounds are the widths of the fields). -/
abbrev Params.Legal (p : Params) : Prop :=
  4 ≤ p.maxPacketSize.toNat ∧ 1 ≤ p.maxOptions.toNat ∧ 4 ≤ p.ibufSize.toNat

/-- The reference configuration of R5: 256 bytes, 32 options, 256 bytes. -/
def Params.reference : Params :=
  { maxPacketSize := 256, maxOptions := 32, ibufSize := 256 }

/-- The two byte memories of the block (spec/20_memory.md R60). -/
inductive Space where
  | ibuf
  | obuf
  deriving DecidableEq, Repr

/-- FREE VALUE. What a byte of a buffer holds after power-up: unspecified, "a model treats each as an unknown byte, a free
draw" (spec/70_reset_and_hazards.md R231, spec/93_implementation_defined.md U1). Assumption log entry 3. -/
opaque Config.powerUpByte : Space → Nat → Byte

/-- FREE VALUE. How many host accesses the `k`-th accepted command lets pass before its completion: finite and unspecified
(spec/40_command_interface.md R106, spec/93_implementation_defined.md U3). Assumption log entry 4. -/
opaque Config.completionDelay : Nat → Nat

end Sys2Proof
end

