-- ==== Sys2Proof/Machine/State.lean ====
section
/-! DEFINITION. The state of the CORE as plain data: every register of spec/10_state.md R22, the hidden PHASE (R45), the two
buffers (spec/20_memory.md R60), the build parameters (spec/00_scope.md R5), DECODE's working values (R47), and the host's
side of the ports (R20, R94), which the step consumes. INVENTORY.md lists each field with its rule. -/

namespace Sys2Proof.Machine

/-- Why the machine could stop with a fault. There is no way: the block has no trap and no fault path (spec/60_exceptions.md
R204, R207; spec/20_memory.md R63, R66), so the type has no constructor. -/
inductive Fault where
  deriving DecidableEq, Repr

/-- Why an instruction could be refused. -/
inductive Refusal where
  /-- Raised by `exec`'s arm of an instruction that has no meaning in this model yet (safe: the run stops). No arm of this
  model raises it. -/
  | notModelled (mnemonic : String)
  deriving DecidableEq, Repr

/-- The error kinds of spec/60_exceptions.md R200. `invalidHeader`, `invalidOption` and `pathLengthExceeded` are kept as
constructors that no rule produces (R202). -/
inductive ErrKind where
  | invalidHeader
  | invalidPacketLength
  | invalidTokenLength
  | invalidOptionDelta
  | invalidOptionLength
  | invalidOption
  | optionsLimitExceeded
  | pathLengthExceeded
  | illegalCommand
  deriving DecidableEq, Repr

/-- What a computation of a command gives: a value, or the error kind that ends the command (`raise E`, spec/00_scope.md R10). -/
inductive Result (α : Type) where
  | ok (a : α)
  | raise (e : ErrKind)
  deriving DecidableEq, Repr

/-- The two kinds of selector (spec/41_decode.md R120). -/
inductive SelectorKind where
  | delta
  | length
  deriving DecidableEq, Repr

/-- One byte memory: the bytes written since power-up, as (address, byte) pairs with strictly rising addresses
(`Memory.wf`). An address that is not listed has no known byte: it reads as the free value `Config.powerUpByte`. -/
abbrev Memory := List Host.Cell

/-- One entry of the option table: the fields of OPT_NUM[i] and OPT_VAL[i] (spec/10_state.md R33). -/
structure OptEntry where
  num : Half
  off : Half
  len : Half
  deriving DecidableEq, Repr

/-- PHASE (spec/10_state.md R45): idle, or busy with the accepted command word. -/
inductive Phase where
  | idle
  | busy (op : Word)
  deriving DecidableEq, Repr

/-- Where a DECODE that is taken one wire form at a time stands: not under way, at byte 0 of the message, or at an option
header position. -/
inductive WalkStage where
  | off
  | atByte0
  | atHeader
  deriving DecidableEq, Repr

/-- DECODE's working values (spec/10_state.md R47, spec/41_decode.md R125): the header's MSG_HDR image, the cursor, the
option number accumulator and the options so far. They are not architectural; no host access shows them (assumption log
entry 7). -/
structure Walk where
  stage : WalkStage
  hdr : Word
  cur : Nat
  acc : Nat
  opts : List OptEntry
  deriving DecidableEq, Repr

/-- No DECODE is under way. -/
def Walk.idle : Walk := { stage := .off, hdr := 0, cur := 0, acc := 0, opts := [] }

/-- A DECODE stands before byte 0. -/
def Walk.start : Walk := { stage := .atByte0, hdr := 0, cur := 0, acc := 0, opts := [] }

/-- What a DECODE that ran through has read: the header, the options and the payload descriptor (spec/41_decode.md R130). -/
structure Decoded where
  hdr : Word
  opts : List OptEntry
  payOff : Nat
  payLen : Nat
  deriving DecidableEq, Repr

/-- Where one part of DECODE leads: it raises an error, DECODE goes on from new working values, or it is complete. -/
inductive Verdict where
  | fail (e : ErrKind)
  | more (w : Walk)
  | done (d : Decoded)
  deriving DecidableEq, Repr

/-- One access of the host, or the reset input: the transactions of spec/30_encoding.md R94 with a register's word index
(spec/10_state.md R21), the ignored write to OBUF (spec/20_memory.md R62), the `wait` loop of R95, and reset
(spec/70_reset_and_hazards.md R230). -/
inductive HostOp where
  | wreg (w : BitVec 10) (v : Word)
  | rreg (w : BitVec 10)
  | wibuf (a : Nat) (b : Byte)
  | ribuf (a : Nat)
  | wobuf (a : Nat) (b : Byte)
  | robuf (a : Nat)
  | wait
  | reset
  deriving DecidableEq, Repr

/-- What a host read returned. -/
inductive Reply where
  | reg (v : Word)
  | byte (b : Byte)
  deriving DecidableEq, Repr

/-- The state. The fields from `walk` on are the model's own: DECODE's working values, and the host's side of the ports. -/
structure State where
  /-- the build-time parameters, shown by CFG0 and CFG1 (R39) -/
  params : Params
  /-- the hidden PHASE (R45) -/
  phase : Phase
  /-- STATUS (R26) -/
  status : Word
  /-- IN_LEN (R27) -/
  inLen : Word
  /-- OUT_LEN (R34) -/
  outLen : Word
  /-- MSG_HDR (R28) -/
  msgHdr : Word
  /-- TOK_DESC (R31) -/
  tokDesc : Word
  /-- PAY_DESC (R32) -/
  payDesc : Word
  /-- OPT_COUNT (R33) -/
  optCount : Word
  /-- PACK_IN (R35) -/
  packIn : Word
  /-- PACK_OUT (R36) -/
  packOut : Word
  /-- UNPACK_IN (R37) -/
  unpackIn : Word
  /-- UNPACK_OUT (R38) -/
  unpackOut : Word
  /-- the option table, MAX_OPTIONS entries (R33) -/
  opts : List OptEntry
  /-- the input buffer (R61) -/
  ibuf : Memory
  /-- the output buffer (R62) -/
  obuf : Memory
  /-- DECODE's working values when it is taken one wire form at a time (R47) -/
  walk : Walk
  /-- the host accesses still to come, in the host's program order (R71) -/
  port : List HostOp
  /-- what the host's reads returned so far, oldest first -/
  replies : List Reply
  /-- how many host accesses still pass before the running command completes (R106) -/
  delay : Nat
  /-- how many commands were accepted: the argument of the next free delay (R106) -/
  accepted : Nat
  deriving DecidableEq, Repr

/-- The machine after power-up and reset for given parameters: every register at its value of spec/10_state.md R40, PHASE
idle, no byte of a buffer written (spec/70_reset_and_hazards.md R230, R231). -/
def State.resetWith (p : Params) : State :=
  { params := p
    phase := .idle
    status := 0
    inLen := 0
    outLen := 0
    msgHdr := 0
    tokDesc := 0
    payDesc := 0
    optCount := 0
    packIn := 0
    packOut := 0
    unpackIn := 0
    unpackOut := 0
    opts := List.replicate p.maxOptions.toNat { num := 0, off := 0, len := 0 }
    ibuf := []
    obuf := []
    walk := Walk.idle
    port := []
    replies := []
    delay := 0
    accepted := 0 }

/-- The machine right after reset, in the reference configuration of R5. -/
def State.reset : State := State.resetWith Params.reference

end Sys2Proof.Machine
end

