-- ==== Sys2Proof/Machine/Flags.lean ====
section
/-! DEFINITION. The only flags of the block, the fields of STATUS (spec/10_state.md R26, R48), and every computation of them:
acceptance (spec/40_command_interface.md R100), success and failure (R103) with the error codes of spec/60_exceptions.md R200. -/

namespace Sys2Proof.Machine

/-- The error code of a kind in STATUS.ECODE (R200). -/
def ErrKind.code : ErrKind → Nibble
  | .invalidHeader => 1
  | .invalidPacketLength => 2
  | .invalidTokenLength => 3
  | .invalidOptionDelta => 4
  | .invalidOptionLength => 5
  | .invalidOption => 6
  | .optionsLimitExceeded => 7
  | .pathLengthExceeded => 8
  | .illegalCommand => 15

/-- STATUS while a command runs: BUSY (R100). -/
def statusBusy : Word := 0x00000001

/-- STATUS after a success: DONE (R103). -/
def statusOk : Word := 0x00000002

/-- STATUS after a failure: DONE, ERR and the error code, `0x6 | code(E) << 4` (R103). -/
def statusErr (e : ErrKind) : Word := 0x00000006 ||| (e.code.zeroExtend 32 <<< 4)

/-- STATUS.BUSY (R26). -/
def statusBUSY (v : Word) : Bool := v.getLsbD 0

/-- STATUS.DONE (R26). -/
def statusDONE (v : Word) : Bool := v.getLsbD 1

/-- STATUS.ERR (R26). -/
def statusERR (v : Word) : Bool := v.getLsbD 2

/-- STATUS.ECODE (R26). -/
def statusECODE (v : Word) : Nibble := v.extractLsb' 4 4

end Sys2Proof.Machine
end

