-- ==== Sys2Proof/Machine/Operands.lean ====
section
/-! DEFINITION. Every form of operand the commands read or write: the fields of the registers (spec/10_state.md R27 to R38), the
descriptors (spec/20_memory.md R67), and the option fields of the wire, with the packer and unpacker of their selectors
(spec/42_encode.md R160, spec/41_decode.md R120). -/

namespace Sys2Proof.Machine

/-- `be16(b0, b1)`: the big-endian value of two bytes, first byte most significant (spec/00_scope.md R8). -/
def be16 (b0 b1 : Byte) : Nat := b0.toNat * 256 + b1.toNat

/-- `hi8(v)` of a 16-bit value (spec/00_scope.md R8). -/
def hi8 (v : Nat) : Byte := BitVec.ofNat 8 (v / 256)

/-- `lo8(v)` of a 16-bit value (spec/00_scope.md R8). -/
def lo8 (v : Nat) : Byte := BitVec.ofNat 8 v

/-- A register whose only field is bits [15:0] (IN_LEN, OUT_LEN, TOK_DESC; R27, R31, R34). -/
def lowHalf (v : Word) : Nat := (v.extractLsb' 0 16).toNat

/-- Bits [31:16] of a register (PAY_DESC.PAY_LEN, R32). -/
def highHalf (v : Word) : Nat := (v.extractLsb' 16 16).toNat

/-- MSG_HDR.TKL (R28). -/
def hdrTkl (v : Word) : Nibble := v.extractLsb' 0 4

/-- MSG_HDR.TYPE (R28). -/
def hdrTyp (v : Word) : BitVec 2 := v.extractLsb' 4 2

/-- MSG_HDR.VER (R28). -/
def hdrVer (v : Word) : BitVec 2 := v.extractLsb' 6 2

/-- MSG_HDR.CODE (R28). -/
def hdrCode (v : Word) : Byte := v.extractLsb' 8 8

/-- MSG_HDR.MID (R28). -/
def hdrMid (v : Word) : Half := v.extractLsb' 16 16

/-- MSG_HDR[7:0], which has the layout of wire byte 0 (R28). -/
def hdrByte0 (v : Word) : Byte := v.extractLsb' 0 8

/-- A whole MSG_HDR from its fields: `mid << 16 | code << 8 | ver << 6 | typ << 4 | tkl` (spec/41_decode.md R130). -/
def packMsgHdr (mid : Half) (code : Byte) (ver typ : BitVec 2) (tkl : Nibble) : Word :=
  mid ++ code ++ ver ++ typ ++ tkl

/-- A descriptor register from its fields: `len << 16 | off` (R32, R33). -/
def packDesc (off len : Half) : Word := len ++ off

/-- `IS_EMPTY(code)`: the Empty class is the code byte 0x00 (spec/10_state.md R29). -/
def isEmptyCode (code : Byte) : Bool := code == 0

/-- OPT_COUNT.COUNT (R33). -/
def countField (v : Word) : Nat := (v.extractLsb' 0 8).toNat

/-- PACK_IN.VALUE (R35). -/
def packInValue (v : Word) : Nat := (v.extractLsb' 0 17).toNat

/-- A whole PACK_OUT from SEL, NEXT, EXT0 and EXT1 (R36). -/
def packPackOut (sel : Nibble) (next : BitVec 2) (ext0 ext1 : Byte) : Word :=
  0#8 ++ ext1 ++ ext0 ++ 0#2 ++ next ++ sel

/-- UNPACK_IN.SEL (R37). -/
def unpackInSel (v : Word) : Nibble := v.extractLsb' 0 4

/-- UNPACK_IN.KIND: 0 is a delta selector, 1 a length selector (R37). -/
def unpackInKind (v : Word) : SelectorKind := if v.extractLsb' 4 1 = 0#1 then .delta else .length

/-- UNPACK_IN.AVAIL (R37). -/
def unpackInAvail (v : Word) : Nat := (v.extractLsb' 8 2).toNat

/-- UNPACK_IN.B0 (R37). -/
def unpackInB0 (v : Word) : Byte := v.extractLsb' 16 8

/-- UNPACK_IN.B1 (R37). -/
def unpackInB1 (v : Word) : Byte := v.extractLsb' 24 8

/-- A whole UNPACK_OUT from VALUE and CONSUMED (R38). -/
def packUnpackOut (value : BitVec 17) (consumed : BitVec 2) : Word :=
  0#10 ++ consumed ++ 0#3 ++ value

/-- The descriptor test `inRange(off, len)`: an empty descriptor, or one that ends within IBUF (spec/20_memory.md R67). -/
abbrev inRange (size off len : Nat) : Prop := len = 0 ∨ off + len ≤ size

/-- What PACK gives: a selector and its extension bytes (spec/42_encode.md R160). -/
structure Packed where
  sel : Nibble
  ext : List Byte
  deriving DecidableEq, Repr

/-- `PACK(v)` (spec/42_encode.md R160, R161). -/
def pack (v : Nat) : Result Packed :=
  if v ≤ 12 then .ok { sel := BitVec.ofNat 4 v, ext := [] }
  else if v ≤ 268 then .ok { sel := 13, ext := [BitVec.ofNat 8 (v - 13)] }
  else if v ≤ 65804 then .ok { sel := 14, ext := [hi8 (v - 269), lo8 (v - 269)] }
  else .raise .invalidPacketLength

/-- What UNPACK gives: a value and the number of extension bytes it took (spec/41_decode.md R120). -/
structure Unpacked where
  value : Nat
  consumed : Nat
  deriving DecidableEq, Repr

/-- `UNPACK(s, kind, x)` (spec/41_decode.md R120): a missing extension byte is InvalidOptionLength for both kinds; selector 15
fails whatever bytes are available. -/
def unpack (s : Nibble) (kind : SelectorKind) (x : List Byte) : Result Unpacked :=
  if s.toNat ≤ 12 then .ok { value := s.toNat, consumed := 0 }
  else if s = 13 then
    match x with
    | e :: _ => .ok { value := e.toNat + 13, consumed := 1 }
    | [] => .raise .invalidOptionLength
  else if s = 14 then
    match x with
    | e0 :: e1 :: _ => .ok { value := be16 e0 e1 + 269, consumed := 2 }
    | [_] => .raise .invalidOptionLength
    | [] => .raise .invalidOptionLength
  else
    match kind with
    | .delta => .raise .invalidOptionDelta
    | .length => .raise .invalidOptionLength

end Sys2Proof.Machine
end

