-- ==== Sys2Proof/Machine/Ops.lean ====
section
/-! DEFINITION. The named operations over the buffers, the register port and the command lifecycle: reading and writing bytes
(spec/20_memory.md R60 to R63), the register map (spec/10_state.md R21 to R24), acceptance, commit and `raise`
(spec/40_command_interface.md R100, R103; spec/60_exceptions.md R201), and the reset input (spec/70_reset_and_hazards.md R230). -/

namespace Sys2Proof.Machine

/-! ### Byte memories -/

/-- The canonical form: addresses strictly rising (so that no address is listed twice). -/
def Memory.wf : Memory → Bool
  | [] => true
  | [_] => true
  | c :: d :: m => decide (c.1 < d.1) && Memory.wf (d :: m)

/-- Every listed address lies below `size`. -/
def Memory.below (size : Nat) (m : Memory) : Bool := m.all fun c => decide (c.1 < size)

/-- The byte written at an address, if one was. -/
def Memory.lookup : Memory → Nat → Option Byte
  | [], _ => none
  | c :: m, a => if c.1 = a then some c.2 else Memory.lookup m a

/-- Write one byte, keeping the canonical form. -/
def Memory.write : Memory → Nat → Byte → Memory
  | [], a, b => [(a, b)]
  | c :: m, a, b =>
    if a < c.1 then (a, b) :: c :: m
    else if a = c.1 then (a, b) :: m
    else c :: Memory.write m a b

/-- Write a byte sequence at rising addresses: `MemWrite` (spec/00_scope.md R10). -/
def Memory.writeSeq : Memory → Nat → List Byte → Memory
  | m, _, [] => m
  | m, a, b :: bs => Memory.writeSeq (Memory.write m a b) (a + 1) bs

/-- What a byte memory of `size` bytes holds at an address: the byte last written, the free power-up byte where none was
(spec/70_reset_and_hazards.md R231), and 0x00 outside the memory (spec/20_memory.md R63). -/
def Memory.byteAt (space : Space) (size : Nat) (m : Memory) (a : Nat) : Byte :=
  if a < size then
    match Memory.lookup m a with
    | some b => b
    | none => Config.powerUpByte space a
  else 0

/-- IBUF_SIZE (spec/00_scope.md R5). -/
def State.ibufSize (s : State) : Nat := s.params.ibufSize.toNat

/-- MAX_PACKET_SIZE (spec/00_scope.md R5). -/
def State.maxPacket (s : State) : Nat := s.params.maxPacketSize.toNat

/-- MAX_OPTIONS (spec/00_scope.md R5). -/
def State.maxOpts (s : State) : Nat := s.params.maxOptions.toNat

/-- `IBUF[a]`. -/
def State.ibufAt (s : State) (a : Nat) : Byte := Memory.byteAt .ibuf s.ibufSize s.ibuf a

/-- `OBUF[a]`. -/
def State.obufAt (s : State) (a : Nat) : Byte := Memory.byteAt .obuf s.maxPacket s.obuf a

/-- `seq(IBUF, off, len)` = `MemRead(IBUF, off, len)` (spec/00_scope.md R9, R10). -/
def State.ibufSeq (s : State) (off : Nat) : Nat → List Byte
  | 0 => []
  | n + 1 => s.ibufAt off :: State.ibufSeq s (off + 1) n

/-- `seq(OBUF, off, len)` (spec/00_scope.md R9). -/
def State.obufSeq (s : State) (off : Nat) : Nat → List Byte
  | 0 => []
  | n + 1 => s.obufAt off :: State.obufSeq s (off + 1) n

/-- The options of the message: the entries below COUNT (spec/10_state.md R33). -/
def State.liveOpts (s : State) : List OptEntry := s.opts.take (countField s.optCount)

/-! ### The register port -/

/-- The registers of spec/10_state.md R22. -/
inductive Reg where
  | cmd
  | status
  | inLen
  | outLen
  | msgHdr
  | tokDesc
  | payDesc
  | optCount
  | packIn
  | packOut
  | unpackIn
  | unpackOut
  | cfg0
  | cfg1
  | optNum (i : Nat)
  | optVal (i : Nat)
  deriving DecidableEq, Repr

/-- The word index of a register, its offset in R22 divided by 4. -/
def Reg.wordIndex : Reg → Nat
  | .cmd => 0x000
  | .status => 0x001
  | .inLen => 0x002
  | .outLen => 0x003
  | .msgHdr => 0x004
  | .tokDesc => 0x005
  | .payDesc => 0x006
  | .optCount => 0x007
  | .packIn => 0x008
  | .packOut => 0x009
  | .unpackIn => 0x00A
  | .unpackOut => 0x00B
  | .cfg0 => 0x00C
  | .cfg1 => 0x00D
  | .optNum i => 0x040 + 2 * i
  | .optVal i => 0x041 + 2 * i

/-- The register at a word index, `none` where the offset is unmapped (R22, R23). -/
def regAt (maxOpts : Nat) (w : BitVec 10) : Option Reg :=
  if w = 0x000 then some .cmd
  else if w = 0x001 then some .status
  else if w = 0x002 then some .inLen
  else if w = 0x003 then some .outLen
  else if w = 0x004 then some .msgHdr
  else if w = 0x005 then some .tokDesc
  else if w = 0x006 then some .payDesc
  else if w = 0x007 then some .optCount
  else if w = 0x008 then some .packIn
  else if w = 0x009 then some .packOut
  else if w = 0x00A then some .unpackIn
  else if w = 0x00B then some .unpackOut
  else if w = 0x00C then some .cfg0
  else if w = 0x00D then some .cfg1
  else if 0x040 ≤ w.toNat ∧ (w.toNat - 0x040) / 2 < maxOpts then
    if w.toNat % 2 = 0 then some (.optNum ((w.toNat - 0x040) / 2))
    else some (.optVal ((w.toNat - 0x040) / 2))
  else none

/-- The value of a register as a host read returns it: reserved bits read 0, CMD reads 0 (R23 to R25), CFG0 and CFG1 show
the parameters (R39). -/
def regValue (s : State) : Reg → Word
  | .cmd => 0
  | .status => s.status
  | .inLen => s.inLen
  | .outLen => s.outLen
  | .msgHdr => s.msgHdr
  | .tokDesc => s.tokDesc
  | .payDesc => s.payDesc
  | .optCount => s.optCount
  | .packIn => s.packIn
  | .packOut => s.packOut
  | .unpackIn => s.unpackIn
  | .unpackOut => s.unpackOut
  | .cfg0 => 0#24 ++ s.params.maxOptions
  | .cfg1 => s.params.ibufSize ++ s.params.maxPacketSize
  | .optNum i =>
    match s.opts[i]? with
    | some e => 0#16 ++ e.num
    | none => 0
  | .optVal i =>
    match s.opts[i]? with
    | some e => packDesc e.off e.len
    | none => 0

/-- The bits of a register that a host write stores: the named fields of an RW register; none of an RO register and none of
CMD, which holds no state (R22 to R25). -/
def hostMask : Reg → Word
  | .cmd => 0
  | .status => 0
  | .inLen => 0x0000FFFF
  | .outLen => 0
  | .msgHdr => 0xFFFFFFFF
  | .tokDesc => 0x0000FFFF
  | .payDesc => 0xFFFFFFFF
  | .optCount => 0x000000FF
  | .packIn => 0x0001FFFF
  | .packOut => 0
  | .unpackIn => 0xFFFF031F
  | .unpackOut => 0
  | .cfg0 => 0
  | .cfg1 => 0
  | .optNum _ => 0x0000FFFF
  | .optVal _ => 0xFFFFFFFF

/-- Replace entry `i` of the option table; an index beyond the table changes nothing. -/
def setEntry (opts : List OptEntry) (i : Nat) (f : OptEntry → OptEntry) : List OptEntry :=
  match opts[i]? with
  | some e => opts.set i (f e)
  | none => opts

/-- A host write of a register other than CMD: an RW register takes the value's named fields, an RO register keeps its value
(R23, R24). -/
def storeReg (s : State) (r : Reg) (v : Word) : State :=
  let v := v &&& hostMask r
  match r with
  | .cmd => s
  | .status => s
  | .inLen => { s with inLen := v }
  | .outLen => s
  | .msgHdr => { s with msgHdr := v }
  | .tokDesc => { s with tokDesc := v }
  | .payDesc => { s with payDesc := v }
  | .optCount => { s with optCount := v }
  | .packIn => { s with packIn := v }
  | .packOut => s
  | .unpackIn => { s with unpackIn := v }
  | .unpackOut => s
  | .cfg0 => s
  | .cfg1 => s
  | .optNum i => { s with opts := setEntry s.opts i fun e => { e with num := v.extractLsb' 0 16 } }
  | .optVal i =>
    { s with opts := setEntry s.opts i fun e => { e with off := v.extractLsb' 0 16, len := v.extractLsb' 16 16 } }

/-! ### The command lifecycle -/

/-- Acceptance of a command word (spec/40_command_interface.md R100): PHASE and STATUS change and nothing else of the block;
the length of the delay is drawn (R106). -/
def accept (s : State) (w : Word) : State :=
  { s with
    phase := .busy w
    status := statusBusy
    walk := Walk.idle
    delay := Config.completionDelay s.accepted
    accepted := s.accepted + 1 }

/-- Completion with success, after the command's writes (R103). -/
def completeOk (s : State) : State :=
  { s with phase := .idle, status := statusOk, walk := Walk.idle }

/-- Completion with an error kind, the block's one way to report an error (R103, spec/60_exceptions.md R201): no register but
STATUS changes, and no byte of OBUF. -/
def completeErr (s : State) (e : ErrKind) : State :=
  { s with phase := .idle, status := statusErr e, walk := Walk.idle }

/-- The reset input (spec/70_reset_and_hazards.md R230 to R232): every register to its reset value, PHASE idle, a running
command abandoned, the buffers as they were; the host's side of the ports is not the block's. -/
def resetInput (s : State) : State :=
  { State.resetWith s.params with
    ibuf := s.ibuf
    obuf := s.obuf
    port := s.port
    replies := s.replies
    delay := s.delay
    accepted := s.accepted }

end Sys2Proof.Machine
end

