-- ==== Sys2Proof/Machine/Encoder.lean ====
section
/-! DEFINITION. ENCODE, the message encoder (spec/42_encode.md R170 to R178). -/

namespace Sys2Proof.Machine

/-- The checks of CheckMessage on the option entries, in table order: the order against the previous number, then the value
descriptor (spec/42_encode.md R172). The first entry has no previous number: `prev = 0` is below none. -/
def checkEntries (size : Nat) : Nat → List OptEntry → Result Unit
  | _, [] => .ok ()
  | prev, e :: es =>
    if e.num.toNat < prev then .raise .invalidOptionDelta
    else if ¬ inRange size e.off.toNat e.len.toNat then .raise .invalidPacketLength
    else checkEntries size e.num.toNat es

/-- The payload is emitted at all: the code is not Empty (spec/42_encode.md R172, R175). -/
def payloadCounts (s : State) : Bool := !isEmptyCode (hdrCode s.msgHdr)

/-- CheckMessage (spec/42_encode.md R172), in its stated order. -/
def checkMessage (s : State) : Result Unit :=
  if s.maxOpts < countField s.optCount then .raise .optionsLimitExceeded
  else if 8 < (hdrTkl s.msgHdr).toNat then .raise .invalidTokenLength
  else if ¬ inRange s.ibufSize (lowHalf s.tokDesc) (hdrTkl s.msgHdr).toNat then .raise .invalidPacketLength
  else
    match checkEntries s.ibufSize 0 s.liveOpts with
    | .raise e => .raise e
    | .ok () =>
      if payloadCounts s = true ∧ ¬ inRange s.ibufSize (lowHalf s.payDesc) (highHalf s.payDesc) then
        .raise .invalidPacketLength
      else .ok ()

/-- EncodeHeader (spec/42_encode.md R173): byte 0, the code, the message id big-endian, the token. -/
def encodeHeader (s : State) : List Byte :=
  [hdrByte0 s.msgHdr, hdrCode s.msgHdr, hi8 (hdrMid s.msgHdr).toNat, lo8 (hdrMid s.msgHdr).toNat]
    ++ s.ibufSeq (lowHalf s.tokDesc) (hdrTkl s.msgHdr).toNat

/-- EncodeOptions (spec/42_encode.md R174) from the emitted-number accumulator on. -/
def encodeOptions (s : State) : Nat → List OptEntry → Result (List Byte)
  | _, [] => .ok []
  | prev, e :: es =>
    match pack (e.num.toNat - prev) with
    | .raise k => .raise k
    | .ok d =>
      match pack e.len.toNat with
      | .raise k => .raise k
      | .ok l =>
        match encodeOptions s e.num.toNat es with
        | .raise k => .raise k
        | .ok rest =>
          .ok ([headerByte d.sel l.sel] ++ d.ext ++ l.ext ++ s.ibufSeq e.off.toNat e.len.toNat ++ rest)

/-- EncodePayload (spec/42_encode.md R175): the marker and the payload, for a code that is not Empty and a payload that is
not empty. -/
def encodePayload (s : State) : List Byte :=
  if payloadCounts s = true ∧ 0 < highHalf s.payDesc then
    0xFF :: s.ibufSeq (lowHalf s.payDesc) (highHalf s.payDesc)
  else []

/-- The encoded message, or the error of its first failing check (spec/42_encode.md R176, R177). -/
def encodeMessage (s : State) : Result (List Byte) :=
  match checkMessage s with
  | .raise e => .raise e
  | .ok () =>
    match encodeOptions s 0 s.liveOpts with
    | .raise e => .raise e
    | .ok body =>
      if s.maxPacket < (encodeHeader s ++ body ++ encodePayload s).length then .raise .invalidPacketLength
      else .ok (encodeHeader s ++ body ++ encodePayload s)

/-- ENCODE (spec/42_encode.md R176, R177): the message to OBUF from address 0, its length to OUT_LEN. -/
def execEncode (s : State) : Host.Outcome State Fault Refusal :=
  match encodeMessage s with
  | .ok out =>
    .next (completeOk { s with obuf := Memory.writeSeq s.obuf 0 out, outLen := BitVec.ofNat 32 out.length })
  | .raise e => .next (completeErr s e)

end Sys2Proof.Machine
end

