-- ==== Sys2Proof/Machine/FieldUnits.lean ====
section
/-! DEFINITION. The two field units as commands: PACKF (spec/42_encode.md R162) and UNPACKF (spec/41_decode.md R122). -/

namespace Sys2Proof.Machine

/-- PACK_OUT after a successful PACKF: extension bytes not produced are 0 (spec/10_state.md R36, spec/42_encode.md R162). -/
def packOutOf (p : Packed) : Word :=
  match p.ext with
  | [] => packPackOut p.sel 0 0 0
  | [e0] => packPackOut p.sel 1 e0 0
  | e0 :: e1 :: _ => packPackOut p.sel 2 e0 e1

/-- PACKF (spec/42_encode.md R162): PACK_OUT <- PACK(PACK_IN.VALUE), or InvalidPacketLength with PACK_OUT kept. -/
def execPackf (s : State) : Host.Outcome State Fault Refusal :=
  match pack (packInValue s.packIn) with
  | .ok p => .next (completeOk { s with packOut := packOutOf p })
  | .raise e => .next (completeErr s e)

/-- The extension bytes UNPACK_IN offers: the first AVAIL of B0 and B1, where AVAIL = 3 means two (spec/10_state.md R37). -/
def unpackInBytes (v : Word) : List Byte :=
  List.take (min (unpackInAvail v) 2) [unpackInB0 v, unpackInB1 v]

/-- UNPACKF (spec/41_decode.md R122): UNPACK_OUT <- UNPACK of the fields of UNPACK_IN, or its error with UNPACK_OUT kept. -/
def execUnpackf (s : State) : Host.Outcome State Fault Refusal :=
  match unpack (unpackInSel s.unpackIn) (unpackInKind s.unpackIn) (unpackInBytes s.unpackIn) with
  | .ok u =>
    .next (completeOk { s with unpackOut := packUnpackOut (BitVec.ofNat 17 u.value) (BitVec.ofNat 2 u.consumed) })
  | .raise e => .next (completeErr s e)

end Sys2Proof.Machine
end

