-- ==== Sys2Proof/Machine/IllegalCommand.lean ====
section
/-! DEFINITION. The illegal command word (spec/40_command_interface.md R105). -/

namespace Sys2Proof.Machine

/-- ILLEGAL_CMD (R105): whatever the word, the command completes with IllegalCommand and changes nothing else. -/
def execIllegalCmd (_word : Word) (s : State) : Host.Outcome State Fault Refusal :=
  .next (completeErr s .illegalCommand)

end Sys2Proof.Machine
end

