-- ==== Sys2Proof/Machine/OptionSort.lean ====
section
/-! DEFINITION. CONSTRUCT, the stable sort of the option table by number (spec/42_encode.md R164 to R169). -/

namespace Sys2Proof.Machine

/-- Put an entry before the first entry whose number is not below its own, so that it stays ahead of the equal-numbered
entries that came after it. -/
def insertByNum (e : OptEntry) : List OptEntry → List OptEntry
  | [] => [e]
  | x :: xs => if e.num.toNat ≤ x.num.toNat then e :: x :: xs else x :: insertByNum e xs

/-- `STABLE_SORT_BY_NUM(E)` (spec/42_encode.md R164): ascending by number, equal numbers in their original order. -/
def stableSortByNum : List OptEntry → List OptEntry
  | [] => []
  | e :: es => insertByNum e (stableSortByNum es)

/-- CONSTRUCT (spec/42_encode.md R169): the entries below COUNT sorted in place, the others untouched;
OptionsLimitExceeded when COUNT exceeds MAX_OPTIONS (R168). -/
def execConstruct (s : State) : Host.Outcome State Fault Refusal :=
  if s.maxOpts < countField s.optCount then .next (completeErr s .optionsLimitExceeded)
  else
    .next (completeOk
      { s with opts := stableSortByNum s.liveOpts ++ s.opts.drop (countField s.optCount) })

end Sys2Proof.Machine
end

