-- ==== Sys2Proof/Machine/Decoder.lean ====
section
/-! DEFINITION. DECODE, the message decoder (spec/41_decode.md R123 to R136): its parts as functions of the state and of
DECODE's working values, the loop over them, and the command. The wire forms (Machine/WireForms.lean) use the same parts. -/

namespace Sys2Proof.Machine

/-- The length of DECODE's input, `n = IN_LEN.LEN` (R123). -/
def inputLen (s : State) : Nat := lowHalf s.inLen

/-- The input length bound and DecodeHeader (R131, R124), for the fields of byte 0. -/
def decodeHeader (s : State) (ver typ : BitVec 2) (tkl : Nibble) : Verdict :=
  if s.ibufSize < inputLen s then .fail .invalidPacketLength
  else if inputLen s < 4 then .fail .invalidPacketLength
  else if 8 < tkl.toNat then .fail .invalidTokenLength
  else if inputLen s < 4 + tkl.toNat then .fail .invalidTokenLength
  else
    .more
      { stage := .atHeader
        hdr := packMsgHdr (s.ibufAt 2 ++ s.ibufAt 3) (s.ibufAt 1) ver typ tkl
        cur := 4 + tkl.toNat
        acc := 0
        opts := [] }

/-- The bytes UNPACK may look at from a cursor: at most two, none beyond the input (R126). -/
def availAt (s : State) (cur : Nat) : List Byte := s.ibufSeq cur (min 2 (inputLen s - cur))

/-- DecodeOption (R126) for the two selectors of the header byte at the cursor: delta, length, number bound (R127), value
range, capacity, in this order. -/
def decodeOption (s : State) (w : Walk) (dsel lsel : Nibble) : Verdict :=
  match unpack dsel .delta (availAt s (w.cur + 1)) with
  | .raise e => .fail e
  | .ok d =>
    match unpack lsel .length (availAt s (w.cur + 1 + d.consumed)) with
    | .raise e => .fail e
    | .ok l =>
      if 65535 < w.acc + d.value then .fail .invalidOptionDelta
      else if inputLen s < w.cur + 1 + d.consumed + l.consumed + l.value then .fail .invalidOptionLength
      else if w.opts.length = s.maxOpts then .fail .optionsLimitExceeded
      else
        .more
          { stage := .atHeader
            hdr := w.hdr
            cur := w.cur + 1 + d.consumed + l.consumed + l.value
            acc := w.acc + d.value
            opts := w.opts ++
              [{ num := BitVec.ofNat 16 (w.acc + d.value)
                 off := BitVec.ofNat 16 (w.cur + 1 + d.consumed + l.consumed)
                 len := BitVec.ofNat 16 l.value }] }

/-- The end of the options at the marker, and DecodePayload (R125, R128): the payload is what follows the marker, and an
empty one has the descriptor `(n, 0)`. -/
def decodeMarker (s : State) (w : Walk) : Verdict :=
  if w.cur + 1 < inputLen s then
    .done { hdr := w.hdr, opts := w.opts, payOff := w.cur + 1, payLen := inputLen s - w.cur - 1 }
  else .done { hdr := w.hdr, opts := w.opts, payOff := inputLen s, payLen := 0 }

/-- The end of the options at the end of the buffer, and DecodePayload (R125, R128). -/
def decodeEnd (s : State) (w : Walk) : Verdict :=
  .done { hdr := w.hdr, opts := w.opts, payOff := inputLen s, payLen := 0 }

/-- The loop of DecodeOptions (R125): the end of the buffer, the marker, or one more option. `fuel` bounds the number of
iterations; the input length is enough of it (R136). -/
def decodeLoop (s : State) : Nat → Walk → Verdict
  | 0, w => .more w
  | fuel + 1, w =>
    if inputLen s ≤ w.cur then decodeEnd s w
    else if s.ibufAt w.cur = 0xFF then decodeMarker s w
    else
      match decodeOption s w (highNibble (s.ibufAt w.cur)) (lowNibble (s.ibufAt w.cur)) with
      | .more w' => decodeLoop s fuel w'
      | v => v

/-- All of DECODE on the input in IBUF (R130). -/
def decodeMessage (s : State) : Verdict :=
  match decodeHeader s (byte0Ver (s.ibufAt 0)) (byte0Typ (s.ibufAt 0)) (byte0Tkl (s.ibufAt 0)) with
  | .more w => decodeLoop s (inputLen s + 1) w
  | v => v

/-- The writes of a successful DECODE (R130): the message registers and the table entries below the count; the entries at and
above it keep what they hold (R132). -/
def commitDecoded (s : State) (d : Decoded) : State :=
  { s with
    msgHdr := d.hdr
    tokDesc := 4
    optCount := BitVec.ofNat 32 d.opts.length
    opts := d.opts ++ s.opts.drop d.opts.length
    payDesc := packDesc (BitVec.ofNat 16 d.payOff) (BitVec.ofNat 16 d.payLen) }

/-- What a part of DECODE makes of the state: an error completes the command, a complete message is committed, and otherwise
the working values move on. -/
def settle (s : State) : Verdict → State
  | .fail e => completeErr s e
  | .more w => { s with walk := w }
  | .done d => completeOk (commitDecoded s d)

/-- DECODE (R130), one atomic step (spec/40_command_interface.md R103). -/
def execDecode (s : State) : Host.Outcome State Fault Refusal :=
  .next (settle s (decodeMessage s))

end Sys2Proof.Machine
end

