-- ==== Sys2Proof/Machine/WireForms.lean ====
section
/-! DEFINITION. The wire forms of the opcode table, each as the part of DECODE that reads it (spec/30_encoding.md R84, R91, R92;
spec/41_decode.md R124 to R128). A form acts on DECODE's working values `walk`; it moves them on, completes the command with
the message, or completes it with an error. The extension bytes are read from IBUF after the header byte (R87). -/

namespace Sys2Proof.Machine

/-- DecodeOption at the cursor for two selectors (R126): the shared part of the option forms. -/
def walkOption (s : State) (dsel lsel : Nibble) : State := settle s (decodeOption s s.walk dsel lsel)

/-- HDR0 (R124): DecodeHeader with a token length of 0 to 8. -/
def execHdr0 (ver typ : BitVec 2) (tkl : Nibble) (s : State) : Host.Outcome State Fault Refusal :=
  .next (settle s (decodeHeader s ver typ tkl))

/-- HDR0_TKL_RESERVED (R124): DecodeHeader with a token length of 9 to 15, which is InvalidTokenLength. -/
def execHdr0TklReserved (ver typ : BitVec 2) (k : BitVec 3) (s : State) : Host.Outcome State Fault Refusal :=
  .next (settle s (decodeHeader s ver typ (1#1 ++ k)))

/-- PAYLOAD_MARKER (R125, R128): the options end here, and the message is complete. -/
def execPayloadMarker (s : State) : Host.Outcome State Fault Refusal :=
  .next (settle s (decodeMarker s s.walk))

/-- OPT_DELTA_RESERVED (R120): delta selector 15 is InvalidOptionDelta. -/
def execOptDeltaReserved (l : Nibble) (s : State) : Host.Outcome State Fault Refusal :=
  .next (walkOption s 15 l)

/-- OPT_LENGTH_RESERVED (R120): length selector 15 is InvalidOptionLength, after the delta is resolved. -/
def execOptLengthReserved (d : Nibble) (s : State) : Host.Outcome State Fault Refusal :=
  .next (walkOption s d 15)

/-- OPT_DDIR_LDIR (R126). -/
def execOptDdirLdir (d l : Nibble) (s : State) : Host.Outcome State Fault Refusal :=
  .next (walkOption s d l)

/-- OPT_DDIR_LX13 (R126). -/
def execOptDdirLx13 (d : Nibble) (s : State) : Host.Outcome State Fault Refusal :=
  .next (walkOption s d 13)

/-- OPT_DDIR_LX14 (R126). -/
def execOptDdirLx14 (d : Nibble) (s : State) : Host.Outcome State Fault Refusal :=
  .next (walkOption s d 14)

/-- OPT_DX13_LDIR (R126). -/
def execOptDx13Ldir (l : Nibble) (s : State) : Host.Outcome State Fault Refusal :=
  .next (walkOption s 13 l)

/-- OPT_DX13_LX13 (R126). -/
def execOptDx13Lx13 (s : State) : Host.Outcome State Fault Refusal :=
  .next (walkOption s 13 13)

/-- OPT_DX13_LX14 (R126). -/
def execOptDx13Lx14 (s : State) : Host.Outcome State Fault Refusal :=
  .next (walkOption s 13 14)

/-- OPT_DX14_LDIR (R126). -/
def execOptDx14Ldir (l : Nibble) (s : State) : Host.Outcome State Fault Refusal :=
  .next (walkOption s 14 l)

/-- OPT_DX14_LX13 (R126). -/
def execOptDx14Lx13 (s : State) : Host.Outcome State Fault Refusal :=
  .next (walkOption s 14 13)

/-- OPT_DX14_LX14 (R126). -/
def execOptDx14Lx14 (s : State) : Host.Outcome State Fault Refusal :=
  .next (walkOption s 14 14)

end Sys2Proof.Machine
end

