-- ==== Sys2Proof/Machine/Dispatch.lean ====
section
/-! DEFINITION. `exec`: the meaning of every instruction, one arm each (spec/40_command_interface.md R104 for the commands). -/

namespace Sys2Proof.Machine

def exec (i : Instr) (s : State) : Host.Outcome State Fault Refusal :=
  match i with
  | .decode => Sys2Proof.Machine.execDecode s
  | .encode => Sys2Proof.Machine.execEncode s
  | .construct => Sys2Proof.Machine.execConstruct s
  | .packf => Sys2Proof.Machine.execPackf s
  | .unpackf => Sys2Proof.Machine.execUnpackf s
  | .illegalCmd w => Sys2Proof.Machine.execIllegalCmd w s
  -- the wire forms
  | .hdr0 ver typ tkl => Sys2Proof.Machine.execHdr0 ver typ tkl s
  | .hdr0TklReserved ver typ k => Sys2Proof.Machine.execHdr0TklReserved ver typ k s
  | .payloadMarker => Sys2Proof.Machine.execPayloadMarker s
  | .optDeltaReserved l => Sys2Proof.Machine.execOptDeltaReserved l s
  | .optLengthReserved d => Sys2Proof.Machine.execOptLengthReserved d s
  | .optDdirLdir d l => Sys2Proof.Machine.execOptDdirLdir d l s
  | .optDdirLx13 d => Sys2Proof.Machine.execOptDdirLx13 d s
  | .optDdirLx14 d => Sys2Proof.Machine.execOptDdirLx14 d s
  | .optDx13Ldir l => Sys2Proof.Machine.execOptDx13Ldir l s
  | .optDx13Lx13 => Sys2Proof.Machine.execOptDx13Lx13 s
  | .optDx13Lx14 => Sys2Proof.Machine.execOptDx13Lx14 s
  | .optDx14Ldir l => Sys2Proof.Machine.execOptDx14Ldir l s
  | .optDx14Lx13 => Sys2Proof.Machine.execOptDx14Lx13 s
  | .optDx14Lx14 => Sys2Proof.Machine.execOptDx14Lx14 s

end Sys2Proof.Machine
end

