-- ==== Sys2Proof/Machine/HostPort.lean ====
section
/-! DEFINITION. The host's side of the ports (spec/10_state.md R20, R21; spec/20_memory.md R60, R68; spec/30_encoding.md R94,
R95): what each access does to an idle and to a busy block (spec/40_command_interface.md R100 to R102). -/

namespace Sys2Proof.Machine

/-- A host read of the register at a word index: unmapped offsets read 0 (spec/10_state.md R23). -/
def hostReadReg (s : State) (w : BitVec 10) : Word :=
  match regAt s.maxOpts w with
  | some r => regValue s r
  | none => 0

/-- A host write of an idle block's register: a write of CMD is accepted (R100), any other stores the named fields
(spec/10_state.md R24), and an unmapped offset ignores it (R23). -/
def hostWriteReg (s : State) (w : BitVec 10) (v : Word) : State :=
  match regAt s.maxOpts w with
  | some .cmd => accept s v
  | some r => storeReg s r v
  | none => s

/-- A host write of an IBUF byte of an idle block; an address outside IBUF ignores it (spec/20_memory.md R63). -/
def hostWriteIbuf (s : State) (a : Nat) (b : Byte) : State :=
  if a < s.ibufSize then { s with ibuf := Memory.write s.ibuf a b } else s

/-- A host write of OBUF is ignored (spec/20_memory.md R62). -/
def hostWriteObuf (s : State) (_a : Nat) (_b : Byte) : State := s

/-- The block is idle: PHASE = IDLE. -/
def State.isIdle (s : State) : Bool := decide (s.phase = .idle)

/-- A host write takes effect on an idle block only (spec/40_command_interface.md R101, R102). -/
def ifIdle (s : State) (f : State → State) : State := if s.isIdle then f s else s

/-- Note what a read returned. -/
def reply (s : State) (r : Reply) : State := { s with replies := s.replies ++ [r] }

/-- The effect of one host access on the state, the queue of further accesses apart. Reads have no side effect
(spec/20_memory.md R68) and return what the location holds (spec/40_command_interface.md R102). -/
def hostAccess (s : State) : HostOp → State
  | .wreg w v => ifIdle s fun s => hostWriteReg s w v
  | .rreg w => reply s (.reg (hostReadReg s w))
  | .wibuf a b => ifIdle s fun s => hostWriteIbuf s a b
  | .ribuf a => reply s (.byte (s.ibufAt a))
  | .wobuf a b => ifIdle s fun s => hostWriteObuf s a b
  | .robuf a => reply s (.byte (s.obufAt a))
  | .wait => reply s (.reg s.status)
  | .reset => resetInput s

/-- The host accesses still to come after an access: `wait` reads STATUS again while it shows BUSY (spec/30_encoding.md R95). -/
def portAfter (s : State) (op : HostOp) (rest : List HostOp) : List HostOp :=
  match op with
  | .wait => if statusBUSY s.status then op :: rest else rest
  | _ => rest

/-- One access of the host, taken off the queue. While a command runs it uses up one of the accesses that pass before the
completion (spec/40_command_interface.md R106). -/
def hostTurn (s : State) (op : HostOp) (rest : List HostOp) : State :=
  hostAccess { s with port := portAfter s op rest, delay := if s.isIdle then s.delay else s.delay - 1 } op

/-! ### The host's notation -/

/-- `wreg NAME, v` (R94). -/
def wreg (r : Reg) (v : Word) : HostOp := .wreg (BitVec.ofNat 10 r.wordIndex) v

/-- `rreg NAME` (R94). -/
def rreg (r : Reg) : HostOp := .rreg (BitVec.ofNat 10 r.wordIndex)

/-- `wibuf a, b0 b1 ... bk` (R95). -/
def wibufSeq (a : Nat) : List Byte → List HostOp
  | [] => []
  | b :: bs => .wibuf a b :: wibufSeq (a + 1) bs

/-- `robuf a, n` (R95). -/
def robufSeq (a : Nat) : Nat → List HostOp
  | 0 => []
  | n + 1 => .robuf a :: robufSeq (a + 1) n

/-- `cmd MNEMONIC`: the command word, then `wait` (R95). -/
def cmdSeq (word : Word) : List HostOp := [wreg .cmd word, .wait]

end Sys2Proof.Machine
end

