-- ==== Sys2Proof/Machine/Engine.lean ====
section
/-! DEFINITION. Whose turn it is and what the engine fetches: the command word of PHASE (spec/40_command_interface.md R103), or,
when DECODE is taken one wire form at a time, the byte at its position (spec/41_decode.md R124, R125). -/

namespace Sys2Proof.Machine

/-- Who moves next. -/
inductive Turn where
  | engine
  | host (op : HostOp) (rest : List HostOp)
  | nobody
  deriving DecidableEq, Repr

/-- While a command runs, the host's accesses go first until the free delay is used up or none is left; then the engine
completes (R103, R106). An idle block serves the host's accesses in order (spec/20_memory.md R71) and otherwise waits
(spec/70_reset_and_hazards.md R230). -/
def turnOf (s : State) : Turn :=
  match s.phase with
  | .idle =>
    match s.port with
    | [] => .nobody
    | op :: rest => .host op rest
  | .busy _ =>
    match s.port with
    | [] => .engine
    | op :: rest => if s.delay = 0 then .engine else .host op rest

/-- What a busy engine fetches; nothing where a DECODE stands at the end of its input. -/
def fetchFor (s : State) (op : Word) : Option Fetched :=
  match s.walk.stage with
  | .off => some (.cmd op)
  | .atByte0 => some (.byte0 (s.ibufAt 0))
  | .atHeader => if inputLen s ≤ s.walk.cur then none else some (.optHdr (s.ibufAt s.walk.cur))

/-- What the engine fetches next; an idle engine fetches nothing. -/
def fetch (s : State) : Option Fetched :=
  match s.phase with
  | .idle => none
  | .busy op => fetchFor s op

/-- A DECODE at the end of its input completes without a further form (spec/41_decode.md R125, R128). -/
def finishWalk (s : State) : State := settle s (decodeEnd s s.walk)

/-- A command word placed where the engine fetches it: PHASE = BUSY(w), accepted, its delay used up (R100). -/
def placeCommand (s : State) (w : Word) : State :=
  { s with phase := .busy w, status := statusBusy, walk := Walk.idle, delay := 0 }

/-- An option header byte placed where the engine fetches it: a DECODE of the whole of IBUF stands before the option header
at address 4, right after a header without token; four zero extension bytes follow, the most a form has. -/
def placeOptionHeader (s : State) (b : Byte) : State :=
  { s with
    phase := .busy 1
    status := statusBusy
    delay := 0
    inLen := 0#16 ++ s.params.ibufSize
    ibuf := Memory.writeSeq s.ibuf 4 [b, 0, 0, 0, 0]
    walk := { stage := .atHeader, hdr := 0, cur := 4, acc := 0, opts := [] } }

/-- A byte 0 placed where the engine fetches it: a DECODE of the whole of IBUF stands before address 0. -/
def placeByte0 (s : State) (b : Byte) : State :=
  { s with
    phase := .busy 1
    status := statusBusy
    delay := 0
    inLen := 0#16 ++ s.params.ibufSize
    ibuf := Memory.writeSeq s.ibuf 0 [b, 0, 0, 0]
    walk := Walk.start }

/-- An instruction placed where the engine fetches it. -/
def placeFetched (s : State) : Fetched → State
  | .cmd w => placeCommand s w
  | .byte0 b => placeByte0 s b
  | .optHdr b => placeOptionHeader s b

end Sys2Proof.Machine
end

