-- ==== Sys2Proof/Machine/Step.lean ====
section
/-! DEFINITION. One step of the machine: one access of the host, or one step of the engine (spec/10_state.md R20,
spec/20_memory.md R71). -/

namespace Sys2Proof.Machine

/-- One step. The engine fetches, decodes and executes; the host's access takes effect; an idle block without an access to
serve waits. -/
def step (s : State) : Host.Outcome State Fault Refusal :=
  match turnOf s with
  | .nobody => .next s
  | .host op rest => .next (hostTurn s op rest)
  | .engine =>
    match fetch s with
    | some f => exec (decode f) s
    | none => .next (finishWalk s)

/-- `s` with an instruction of the opcode table placed where `step` fetches its next instruction (assumption log entries 8
and 9); bits of no row change nothing. -/
def State.withFetchWord (s : State) (nbits w : Nat) : State :=
  match fetchedOfTable nbits w with
  | .ok f => placeFetched s f
  | .error _ => s

end Sys2Proof.Machine
end

