-- ==== Sys2Proof/Safety.lean ====
section
/-! DEFINITION. What a state of the CORE is like in every run: the invariant `State.Inv`, part by part. The machine has no
unsafe outcome of its own: no access faults (spec/60_exceptions.md R204, R207), so a safe run is one whose states meet it. -/

namespace Sys2Proof.Machine

/-- The buffers are in canonical form and hold no byte outside their size (spec/20_memory.md R60, R63). -/
abbrev State.BuffersInv (s : State) : Prop :=
  Memory.wf s.ibuf = true ∧ Memory.below s.ibufSize s.ibuf = true ∧
  Memory.wf s.obuf = true ∧ Memory.below s.maxPacket s.obuf = true

/-- The reserved bits of every register read 0 (spec/10_state.md R24); MSG_HDR and PAY_DESC have none. -/
abbrev State.ReservedInv (s : State) : Prop :=
  s.status &&& 0xFFFFFF08 = 0 ∧ s.inLen &&& 0xFFFF0000 = 0 ∧ s.outLen &&& 0xFFFF0000 = 0 ∧
  s.tokDesc &&& 0xFFFF0000 = 0 ∧ s.optCount &&& 0xFFFFFF00 = 0 ∧ s.packIn &&& 0xFFFE0000 = 0 ∧
  s.packOut &&& 0xFF0000C0 = 0 ∧ s.unpackIn &&& 0x0000FCE0 = 0 ∧ s.unpackOut &&& 0xFFCE0000 = 0

/-- The legal values of STATUS, tied to PHASE: 1 exactly while busy, and when idle 0, 2 or the status of an error kind that
some command raises (spec/10_state.md R26, R45; spec/60_exceptions.md R200, R202). -/
abbrev State.StatusInv (s : State) : Prop :=
  match s.phase with
  | .busy _ => s.status = 0x00000001
  | .idle =>
    s.status ∈ ([0x00000000, 0x00000002, 0x00000026, 0x00000036, 0x00000046, 0x00000056, 0x00000076, 0x000000F6] : List Word)

/-- DECODE's working values (spec/10_state.md R47): none outside a DECODE; inside one, the cursor stays within the input, the
input within IBUF, the numbers are ascending and 16 bits wide, the values lie before the cursor, and the options within the
capacity (spec/41_decode.md R126, R133, R136). -/
abbrev State.WalkInv (s : State) : Prop :=
  match s.walk.stage with
  | .off => s.walk = Walk.idle
  | .atByte0 => s.phase = .busy 1 ∧ s.walk = Walk.start
  | .atHeader =>
    s.phase = .busy 1 ∧ 4 ≤ s.walk.cur ∧ s.walk.cur ≤ inputLen s ∧ inputLen s ≤ s.ibufSize ∧
    s.walk.acc ≤ 65535 ∧ s.walk.opts.length ≤ s.maxOpts ∧
    (∀ e ∈ s.walk.opts, e.num.toNat ≤ s.walk.acc ∧ e.off.toNat + e.len.toNat ≤ s.walk.cur) ∧
    s.walk.opts.Pairwise fun a b => a.num.toNat ≤ b.num.toNat

/-- The invariant of the machine: legal parameters (spec/00_scope.md R5), an option table of MAX_OPTIONS entries
(spec/10_state.md R33), and the parts above. -/
abbrev State.Inv (s : State) : Prop :=
  s.params.Legal ∧ s.opts.length = s.maxOpts ∧ s.BuffersInv ∧ s.ReservedInv ∧ s.StatusInv ∧ s.WalkInv

end Sys2Proof.Machine
end

