-- ==== Sys2Proof/Certificates/Slice0/Obligations.lean ====
section
/-! DEFINITION. The statements for the provers, and the vocabulary they are written in. The vocabulary says in the spec's own
terms (numbers, byte sequences, the wire format of spec/30_encoding.md) what the statements compare the machine with. -/

namespace Sys2Proof.Claim

open Sys2Proof.Machine

/-! ### Frames -/

/-- `s` after its command has completed with STATUS = `v`, before any other write of the command: PHASE idle, and no working
values of a DECODE left (spec/40_command_interface.md R103). -/
def finished (s : State) (v : Word) : State := { s with phase := .idle, status := v, walk := Walk.idle }

/-- Every byte of both buffers reads as before. -/
def SameBytes (s t : State) : Prop := ∀ a, t.ibufAt a = s.ibufAt a ∧ t.obufAt a = s.obufAt a

/-- Two states agree on everything but the host's side: the accesses to come, what reads returned, and the delay. -/
def SameBlock (s t : State) : Prop :=
  t = { s with port := t.port, replies := t.replies, delay := t.delay, accepted := t.accepted }

/-- The instruction ends its command with an error: STATUS = `v`, and nothing else changes (spec/60_exceptions.md R201). -/
def FailsWith (i : Instr) (s : State) (v : Word) : Prop :=
  ∃ t, exec i s = .next t ∧ t = finished s v ∧ SameBytes s t

/-- It is the engine's turn: its command is accepted, and no further host access passes before it (R103, R106). -/
def EngineTurn (s : State) (op : Word) : Prop := s.phase = .busy op ∧ (s.port = [] ∨ s.delay = 0)

/-- The host's access `op` is served next, and `rest` is what remains. -/
def HostTurn (s : State) (op : HostOp) (rest : List HostOp) : Prop :=
  s.port = op :: rest ∧ (s.phase = .idle ∨ 0 < s.delay)

/-- A host access that only reads. -/
def readValue (s : State) : HostOp → Option Reply
  | .rreg w => some (.reg (hostReadReg s w))
  | .ribuf a => some (.byte (s.ibufAt a))
  | .robuf a => some (.byte (s.obufAt a))
  | _ => none

/-- A host access that only writes. -/
def isWrite : HostOp → Bool
  | .wreg _ _ => true
  | .wibuf _ _ => true
  | .wobuf _ _ => true
  | _ => false

/-- The bits a host write stores at a word index, from the register map and the fields of spec/10_state.md R22 to R39: none at
a read-only register, at CMD and at an unmapped offset. -/
def storedBits (maxOpts : Nat) (w : Nat) : Word :=
  if w = 0x002 then 0x0000FFFF
  else if w = 0x004 then 0xFFFFFFFF
  else if w = 0x005 then 0x0000FFFF
  else if w = 0x006 then 0xFFFFFFFF
  else if w = 0x007 then 0x000000FF
  else if w = 0x008 then 0x0001FFFF
  else if w = 0x00A then 0xFFFF031F
  else if 0x040 ≤ w ∧ w < 0x040 + 2 * maxOpts then
    if w % 2 = 0 then 0x0000FFFF else 0xFFFFFFFF
  else 0

/-! ### Option fields (spec/30_encoding.md R88) -/

/-- The number of extension bytes of a selector. -/
def extra (sel : Nibble) : Nat := if sel.toNat ≤ 12 then 0 else if sel.toNat = 13 then 1 else 2

/-- The value of a selector whose extension bytes stand in IBUF from address `a`. -/
def fieldAt (s : State) (sel : Nibble) (a : Nat) : Nat :=
  if sel.toNat ≤ 12 then sel.toNat
  else if sel.toNat = 13 then (s.ibufAt a).toNat + 13
  else (s.ibufAt a).toNat * 256 + (s.ibufAt (a + 1)).toNat + 269

/-- The selector of a value. -/
def selOf (v : Nat) : Nat := if v ≤ 12 then v else if v ≤ 268 then 13 else 14

/-- The extension bytes of a value. -/
def extOf (v : Nat) : List Byte :=
  if v ≤ 12 then []
  else if v ≤ 268 then [BitVec.ofNat 8 (v - 13)]
  else [BitVec.ofNat 8 ((v - 269) / 256), BitVec.ofNat 8 ((v - 269) % 256)]

/-- The two selectors of the nine option forms. -/
def optionSelectors : Instr → Option (Nibble × Nibble)
  | .optDdirLdir d l => some (d, l)
  | .optDdirLx13 d => some (d, 13)
  | .optDdirLx14 d => some (d, 14)
  | .optDx13Ldir l => some (13, l)
  | .optDx13Lx13 => some (13, 13)
  | .optDx13Lx14 => some (13, 14)
  | .optDx14Ldir l => some (14, l)
  | .optDx14Lx13 => some (14, 13)
  | .optDx14Lx14 => some (14, 14)
  | _ => none

/-! ### Messages and their wire form (spec/10_state.md R43, spec/30_encoding.md R83 to R88) -/

/-- The source's Message. -/
structure Message where
  ver : BitVec 2
  typ : BitVec 2
  code : Byte
  mid : Half
  token : List Byte
  options : List (Half × List Byte)
  payload : List Byte
  deriving DecidableEq, Repr

/-- The message that the registers denote (R43). -/
def messageOf (s : State) : Message :=
  { ver := hdrVer s.msgHdr
    typ := hdrTyp s.msgHdr
    code := hdrCode s.msgHdr
    mid := hdrMid s.msgHdr
    token := s.ibufSeq (lowHalf s.tokDesc) (hdrTkl s.msgHdr).toNat
    options := s.liveOpts.map fun e => (e.num, s.ibufSeq e.off.toNat e.len.toNat)
    payload := s.ibufSeq (lowHalf s.payDesc) (highHalf s.payDesc) }

/-- The options on the wire, each number as the difference from the one before (R87). -/
def optionsWire : Nat → List (Half × List Byte) → List Byte
  | _, [] => []
  | prev, o :: os =>
    [BitVec.ofNat 8 (selOf (o.1.toNat - prev) * 16 + selOf o.2.length)]
      ++ extOf (o.1.toNat - prev) ++ extOf o.2.length ++ o.2 ++ optionsWire o.1.toNat os

/-- Byte 0, the code, the message id and the token (R84 to R86). -/
def headWire (m : Message) : List Byte :=
  [BitVec.ofNat 8 (m.ver.toNat * 64 + m.typ.toNat * 16 + m.token.length), m.code,
    BitVec.ofNat 8 (m.mid.toNat / 256), BitVec.ofNat 8 (m.mid.toNat % 256)] ++ m.token

/-- The marker and the payload; without a payload, a bare marker or none (R90). -/
def payloadWire (payload : List Byte) (bareMarker : Bool) : List Byte :=
  if payload = [] then (if bareMarker then [0xFF] else []) else 0xFF :: payload

/-- A message on the wire (R83). -/
def wire (m : Message) (bareMarker : Bool) : List Byte :=
  headWire m ++ optionsWire 0 m.options ++ payloadWire m.payload bareMarker

/-- What ENCODE sends of a message: an Empty code drops the payload (spec/42_encode.md R175). -/
def sent (m : Message) : Message := if m.code = 0 then { m with payload := [] } else m

/-- The option table entries of options that stand on the wire from address `pos` on. -/
def layout : Nat → Nat → List (Half × List Byte) → List OptEntry
  | _, _, [] => []
  | pos, prev, o :: os =>
    { num := o.1
      off := BitVec.ofNat 16 (pos + 1 + (extOf (o.1.toNat - prev)).length + (extOf o.2.length).length)
      len := BitVec.ofNat 16 o.2.length }
    :: layout (pos + 1 + (extOf (o.1.toNat - prev)).length + (extOf o.2.length).length + o.2.length) o.1.toNat os

/-- Ascending by option number. -/
def SortedByNum (es : List OptEntry) : Prop := es.Pairwise fun a b => a.num.toNat ≤ b.num.toNat

/-- The entries with one option number, in table order. -/
def withNum (n : Half) (es : List OptEntry) : List OptEntry := es.filter fun e => decide (e.num = n)

/-- The address after the last option of a decoded message, or after its token if it has no option. -/
def optionsEnd (s : State) : Nat :=
  match s.liveOpts.getLast? with
  | some e => e.off.toNat + e.len.toNat
  | none => 4 + (hdrTkl s.msgHdr).toNat

/-- Everything CheckMessage asks for, and the size (spec/42_encode.md R172, R176). -/
def Encodable (s : State) : Prop :=
  countField s.optCount ≤ s.maxOpts ∧
  (hdrTkl s.msgHdr).toNat ≤ 8 ∧
  inRange s.ibufSize (lowHalf s.tokDesc) (hdrTkl s.msgHdr).toNat ∧
  SortedByNum s.liveOpts ∧
  (∀ e ∈ s.liveOpts, inRange s.ibufSize e.off.toNat e.len.toNat) ∧
  (hdrCode s.msgHdr ≠ 0 → inRange s.ibufSize (lowHalf s.payDesc) (highHalf s.payDesc)) ∧
  (wire (sent (messageOf s)) false).length ≤ s.maxPacket

/-- The checks of entry `i` of the option table (spec/42_encode.md R172). -/
def inOrderAt (es : List OptEntry) (i : Nat) : Prop :=
  ∀ a b, 0 < i → es[i - 1]? = some a → es[i]? = some b → a.num.toNat ≤ b.num.toNat

end Sys2Proof.Claim

open Sys2Proof Sys2Proof.Machine Sys2Proof.Claim

/-! ### Encodings -/

/-- R81: the five legal command words, and no other word is one of them. -/
def Obligations.CommandWordsDecode : Prop :=
  (decode (.cmd 0x00000001) = .decode ∧ decode (.cmd 0x00000002) = .encode ∧ decode (.cmd 0x00000003) = .construct ∧
    decode (.cmd 0x00000004) = .packf ∧ decode (.cmd 0x00000005) = .unpackf) ∧
  ∀ w : Word, w.toNat = 0 ∨ 5 < w.toNat → decode (.cmd w) = .illegalCmd w

/-- A few words of the wire format, written out from R84 and R88: byte 0 of the known vector (VER 1, CON, TKL 4), a reserved
token length, the marker, and header bytes with direct, 13 and 14 selectors. -/
def Obligations.WrittenOutWireBytesDecode : Prop :=
  decode (.byte0 0b01000100) = .hdr0 1 0 4 ∧ decode (.byte0 0b01001001) = .hdr0TklReserved 1 0 1 ∧
  decode (.optHdr 0b11111111) = .payloadMarker ∧ decode (.optHdr 0b11110000) = .optDeltaReserved 0 ∧
  decode (.optHdr 0b00011111) = .optLengthReserved 1 ∧ decode (.optHdr 0b10110010) = .optDdirLdir 11 2 ∧
  decode (.optHdr 0b11010001) = .optDx13Ldir 1 ∧ decode (.optHdr 0b00011101) = .optDdirLx13 1 ∧
  decode (.optHdr 0b11101110) = .optDx14Lx14

/-- Decoding an encoded well-formed instruction gives it back, with every operand. -/
def Obligations.DecodeOfEncodeIsTheInstruction : Prop :=
  ∀ i : Instr, WellFormed i → decode (encode i) = i

/-- Every word and byte has exactly one instruction: encoding what was decoded gives the word back, at every place. -/
def Obligations.EncodeOfDecodeIsTheWord : Prop :=
  ∀ f : Fetched, encode (decode f) = f

/-- R92: the verdict at a header position, in the priority of its rows. -/
def Obligations.HeaderBytesAreClassifiedInPriority : Prop :=
  ∀ h : Byte,
    (h.toNat = 255 → decode (.optHdr h) = .payloadMarker) ∧
    (h.toNat ≠ 255 → h.toNat / 16 = 15 → decode (.optHdr h) = .optDeltaReserved (BitVec.ofNat 4 (h.toNat % 16))) ∧
    (h.toNat / 16 ≤ 14 → h.toNat % 16 = 15 → decode (.optHdr h) = .optLengthReserved (BitVec.ofNat 4 (h.toNat / 16))) ∧
    (h.toNat / 16 ≤ 14 → h.toNat % 16 ≤ 14 →
      optionSelectors (decode (.optHdr h)) = some (BitVec.ofNat 4 (h.toNat / 16), BitVec.ofNat 4 (h.toNat % 16)))

/-! ### The field units -/

/-- R161, R162: PACKF writes the selector, the number of extension bytes and the extension bytes of PACK_IN.VALUE, in the three
classes of R160, and nothing else but the completion; a value above 65804 is InvalidPacketLength, and PACK_OUT keeps its
value. PACK itself fails so for every natural number above 65804. -/
def Obligations.PackfWritesSelectorAndExtension : Prop :=
  decode (.cmd 0x00000004) = .packf ∧ (∀ v : Nat, 65804 < v → pack v = .raise .invalidPacketLength) ∧
  ∀ s : State,
    (packInValue s.packIn ≤ 65804 →
      ∃ t, exec .packf s = .next t ∧ t = { finished s 0x00000002 with packOut := t.packOut } ∧ SameBytes s t ∧
        (packInValue s.packIn ≤ 12 → t.packOut.toNat = packInValue s.packIn) ∧
        (13 ≤ packInValue s.packIn → packInValue s.packIn ≤ 268 →
          t.packOut.toNat = 13 + 1 * 16 + (packInValue s.packIn - 13) * 256) ∧
        (269 ≤ packInValue s.packIn →
          t.packOut.toNat =
            14 + 2 * 16 + (packInValue s.packIn - 269) / 256 * 256 + (packInValue s.packIn - 269) % 256 * 65536)) ∧
    (65804 < packInValue s.packIn → FailsWith .packf s 0x00000026)

/-- R122: UNPACKF writes the resolved value and the number of bytes consumed, for direct selectors, 13 and 14, and nothing
else but the completion; on each of its errors UNPACK_OUT keeps its value. -/
def Obligations.UnpackfResolvesOrFails : Prop :=
  decode (.cmd 0x00000005) = .unpackf ∧
  ∀ s : State,
    ((unpackInSel s.unpackIn).toNat ≤ 12 ∨
      (unpackInSel s.unpackIn).toNat = 13 ∧ 1 ≤ unpackInAvail s.unpackIn ∨
      (unpackInSel s.unpackIn).toNat = 14 ∧ 2 ≤ unpackInAvail s.unpackIn →
      ∃ t, exec .unpackf s = .next t ∧ t = { finished s 0x00000002 with unpackOut := t.unpackOut } ∧ SameBytes s t ∧
        ((unpackInSel s.unpackIn).toNat ≤ 12 → t.unpackOut.toNat = (unpackInSel s.unpackIn).toNat) ∧
        ((unpackInSel s.unpackIn).toNat = 13 →
          t.unpackOut.toNat = (unpackInB0 s.unpackIn).toNat + 13 + 1 * 1048576) ∧
        ((unpackInSel s.unpackIn).toNat = 14 →
          t.unpackOut.toNat =
            (unpackInB0 s.unpackIn).toNat * 256 + (unpackInB1 s.unpackIn).toNat + 269 + 2 * 1048576)) ∧
    ((unpackInSel s.unpackIn).toNat = 15 → s.unpackIn.getLsbD 4 = false → FailsWith .unpackf s 0x00000046) ∧
    ((unpackInSel s.unpackIn).toNat = 15 → s.unpackIn.getLsbD 4 = true → FailsWith .unpackf s 0x00000056) ∧
    ((unpackInSel s.unpackIn).toNat = 13 → unpackInAvail s.unpackIn = 0 → FailsWith .unpackf s 0x00000056) ∧
    ((unpackInSel s.unpackIn).toNat = 14 → unpackInAvail s.unpackIn ≤ 1 → FailsWith .unpackf s 0x00000056)

/-- R163: PACK and UNPACK are inverse. -/
def Obligations.PackAndUnpackAreInverse : Prop :=
  (∀ (v : Nat) (kind : SelectorKind), v ≤ 65804 →
    ∃ p, pack v = .ok p ∧ unpack p.sel kind p.ext = .ok { value := v, consumed := p.ext.length }) ∧
  (∀ (sel : Nibble) (kind : SelectorKind) (x : List Byte) (u : Unpacked), unpack sel kind x = .ok u →
    pack u.value = .ok { sel := sel, ext := x.take u.consumed })

/-! ### CONSTRUCT -/

/-- R168, R169, R164: the entries below COUNT become their stable sort by number, and every other entry stays; a COUNT above
the capacity is OptionsLimitExceeded. -/
def Obligations.ConstructSortsTheTableStably : Prop :=
  decode (.cmd 0x00000003) = .construct ∧
  ∀ s : State,
    (countField s.optCount ≤ s.maxOpts →
      ∃ t, exec .construct s = .next t ∧ t = { finished s 0x00000002 with opts := t.opts } ∧ SameBytes s t ∧
        t.opts.length = s.opts.length ∧
        t.opts.drop (countField s.optCount) = s.opts.drop (countField s.optCount) ∧
        t.liveOpts.Perm s.liveOpts ∧ SortedByNum t.liveOpts ∧ ∀ n, withNum n t.liveOpts = withNum n s.liveOpts) ∧
    (s.maxOpts < countField s.optCount → FailsWith .construct s 0x00000076)

/-- R164 and R165: the stable sort is a permutation, ascending by number, that keeps entries with equal numbers in their
order; and it is the only sequence that does, so the result does not depend on the algorithm. -/
def Obligations.StableSortIsTheUniqueStableOrder : Prop :=
  ∀ es : List OptEntry,
    (stableSortByNum es).Perm es ∧ SortedByNum (stableSortByNum es) ∧
    (∀ n, withNum n (stableSortByNum es) = withNum n es) ∧
    ∀ xs : List OptEntry, SortedByNum xs → (∀ n, withNum n xs = withNum n es) → xs = stableSortByNum es

/-- R167, R239: after a successful CONSTRUCT, ENCODE never finds the table unsorted. -/
def Obligations.ConstructEstablishesTheEncodersOrder : Prop :=
  ∀ s t u : State, exec .construct s = .next t → t.status = 0x00000002 → exec .encode t = .next u →
    u.status ≠ 0x00000046

/-! ### ENCODE -/

/-- R173 to R177: ENCODE of registers that pass every check writes the message's wire form to OBUF from address 0 and its
length to OUT_LEN; every other byte of OBUF, every byte of IBUF and every other register stays. -/
def Obligations.EncodeEmitsTheMessage : Prop :=
  ∀ s : State, Encodable s →
    ∃ t, exec .encode s = .next t ∧ t = { finished s 0x00000002 with obuf := t.obuf, outLen := t.outLen } ∧
      t.outLen.toNat = (wire (sent (messageOf s)) false).length ∧
      t.obufSeq 0 (wire (sent (messageOf s)) false).length = wire (sent (messageOf s)) false ∧
      (∀ a, (wire (sent (messageOf s)) false).length ≤ a → t.obufAt a = s.obufAt a) ∧
      ∀ a, t.ibufAt a = s.ibufAt a

/-- R172, R176: the checks of ENCODE in their order, each with its error: the count, the token length, the token's range; the
options in table order, each first against the number before it and then in its range (the first that fails decides); the
payload's range, for a code that is not Empty; last the total length. -/
def Obligations.EncodeReportsItsFirstFailingCheck : Prop :=
  ∀ s : State,
    (s.maxOpts < countField s.optCount → FailsWith .encode s 0x00000076) ∧
    (countField s.optCount ≤ s.maxOpts → 8 < (hdrTkl s.msgHdr).toNat → FailsWith .encode s 0x00000036) ∧
    (countField s.optCount ≤ s.maxOpts → (hdrTkl s.msgHdr).toNat ≤ 8 →
      (¬ inRange s.ibufSize (lowHalf s.tokDesc) (hdrTkl s.msgHdr).toNat → FailsWith .encode s 0x00000026) ∧
      (inRange s.ibufSize (lowHalf s.tokDesc) (hdrTkl s.msgHdr).toNat →
        (∀ (i : Nat) (e : OptEntry),
          (∀ j e', j < i → s.liveOpts[j]? = some e' →
            inOrderAt s.liveOpts j ∧ inRange s.ibufSize e'.off.toNat e'.len.toNat) →
          s.liveOpts[i]? = some e →
          (¬ inOrderAt s.liveOpts i → FailsWith .encode s 0x00000046) ∧
          (inOrderAt s.liveOpts i → ¬ inRange s.ibufSize e.off.toNat e.len.toNat → FailsWith .encode s 0x00000026)) ∧
        (SortedByNum s.liveOpts → (∀ e ∈ s.liveOpts, inRange s.ibufSize e.off.toNat e.len.toNat) →
          (hdrCode s.msgHdr ≠ 0 → ¬ inRange s.ibufSize (lowHalf s.payDesc) (highHalf s.payDesc) →
            FailsWith .encode s 0x00000026) ∧
          (s.maxPacket < (wire (sent (messageOf s)) false).length → FailsWith .encode s 0x00000026))))

/-! ### DECODE -/

/-- R129 (1) to (4): the input length bound, the minimum length, the token length and the token, in this order. -/
def Obligations.DecodeRejectsBadHeaders : Prop :=
  ∀ s : State,
    (s.ibufSize < inputLen s → FailsWith .decode s 0x00000026) ∧
    (inputLen s ≤ s.ibufSize → inputLen s < 4 → FailsWith .decode s 0x00000026) ∧
    (inputLen s ≤ s.ibufSize → 4 ≤ inputLen s → 8 < (s.ibufAt 0).toNat % 16 → FailsWith .decode s 0x00000036) ∧
    (inputLen s ≤ s.ibufSize → 4 ≤ inputLen s → (s.ibufAt 0).toNat % 16 ≤ 8 →
      inputLen s < 4 + (s.ibufAt 0).toNat % 16 → FailsWith .decode s 0x00000036)

/-- R130: DECODE of the wire form of a message, with or without a bare marker, writes registers that denote it: MSG_HDR, the
token at 4, the options where their values stand, the payload, with `(n, 0)` for an empty one; and it writes nothing else. -/
def Obligations.DecodeReadsTheMessage : Prop :=
  ∀ (s : State) (m : Message) (bare : Bool),
    m.token.length ≤ 8 → m.options.length ≤ s.maxOpts →
    m.options.Pairwise (fun a b => a.1.toNat ≤ b.1.toNat) →
    inputLen s ≤ s.ibufSize → s.ibufSeq 0 (inputLen s) = wire m bare →
    ∃ t, exec .decode s = .next t ∧
      t = { finished s 0x00000002 with
            msgHdr := t.msgHdr, tokDesc := 4, payDesc := t.payDesc, optCount := t.optCount
            opts := layout (4 + m.token.length) 0 m.options ++ s.opts.drop m.options.length } ∧
      SameBytes s t ∧
      t.msgHdr.toNat =
        m.mid.toNat * 65536 + m.code.toNat * 256 + m.ver.toNat * 64 + m.typ.toNat * 16 + m.token.length ∧
      t.optCount.toNat = m.options.length ∧
      highHalf t.payDesc = m.payload.length ∧
      lowHalf t.payDesc = (if m.payload = [] then inputLen s else inputLen s - m.payload.length) ∧
      messageOf t = m

/-- DECODE accepts nothing else: a buffer it accepts is the wire form of the message it leaves in the registers, up to a bare
marker at the end (R124 to R128). -/
def Obligations.DecodeAcceptsOnlyWireMessages : Prop :=
  ∀ s t : State, exec .decode s = .next t → t.status = 0x00000002 →
    inputLen s ≤ s.ibufSize ∧ ∃ bare, s.ibufSeq 0 (inputLen s) = wire (messageOf t) bare

/-- R132, R133: what a successful DECODE leaves untouched, and what holds after it. -/
def Obligations.DecodeEstablishesTheMessageInvariants : Prop :=
  ∀ s t : State, exec .decode s = .next t → t.status = 0x00000002 →
    t = { finished s 0x00000002 with
          msgHdr := t.msgHdr, tokDesc := 4, payDesc := t.payDesc, optCount := t.optCount, opts := t.opts } ∧
    SameBytes s t ∧ t.opts.drop (countField t.optCount) = s.opts.drop (countField t.optCount) ∧
    (hdrTkl t.msgHdr).toNat ≤ 8 ∧ lowHalf t.tokDesc = 4 ∧ 4 + (hdrTkl t.msgHdr).toNat ≤ inputLen s ∧
    countField t.optCount ≤ s.maxOpts ∧ t.liveOpts.length = countField t.optCount ∧
    SortedByNum t.liveOpts ∧
    (∀ e ∈ t.liveOpts, 4 + (hdrTkl t.msgHdr).toNat < e.off.toNat ∧ e.off.toNat + e.len.toNat ≤ inputLen s) ∧
    t.liveOpts.Pairwise (fun a b => a.off.toNat + a.len.toNat < b.off.toNat) ∧
    optionsEnd t ≤ lowHalf t.payDesc ∧ lowHalf t.payDesc + highHalf t.payDesc = inputLen s ∧
    inRange t.ibufSize (lowHalf t.tokDesc) (hdrTkl t.msgHdr).toNat ∧
    (∀ e ∈ t.liveOpts, inRange t.ibufSize e.off.toNat e.len.toNat) ∧
    inRange t.ibufSize (lowHalf t.payDesc) (highHalf t.payDesc)

/-! ### The wire forms, each as its part of DECODE. That a form acts on DECODE's working values `walk` in a step of its own is
the model's choice (assumption log entry 7); the rules give DECODE as one atomic command (R103). -/

/-- R124: byte 0 with a legal token length, in an input that holds the token, starts the options after the token; nothing but
DECODE's working values changes. -/
def Obligations.HeaderFormStartsTheOptions : Prop :=
  ∀ (s : State) (ver typ : BitVec 2) (tkl : Nibble),
    tkl.toNat ≤ 8 → inputLen s ≤ s.ibufSize → 4 + tkl.toNat ≤ inputLen s →
    ∃ t, exec (.hdr0 ver typ tkl) s = .next t ∧ t = { s with walk := t.walk } ∧ SameBytes s t ∧
      t.walk.stage = .atHeader ∧ t.walk.cur = 4 + tkl.toNat ∧ t.walk.acc = 0 ∧ t.walk.opts = [] ∧
      t.walk.hdr.toNat =
        ((s.ibufAt 2).toNat * 256 + (s.ibufAt 3).toNat) * 65536 + (s.ibufAt 1).toNat * 256 +
          ver.toNat * 64 + typ.toNat * 16 + tkl.toNat

/-- R124, R131: byte 0 in an input that is too long or too short for it, or with a reserved token length. -/
def Obligations.HeaderFormsReportTheirErrors : Prop :=
  ∀ (s : State) (ver typ : BitVec 2),
    (∀ (tkl : Nibble), tkl.toNat ≤ 8 →
      ((s.ibufSize < inputLen s ∨ inputLen s < 4) → FailsWith (.hdr0 ver typ tkl) s 0x00000026) ∧
      (inputLen s ≤ s.ibufSize → 4 ≤ inputLen s → inputLen s < 4 + tkl.toNat →
        FailsWith (.hdr0 ver typ tkl) s 0x00000036)) ∧
    (∀ (k : BitVec 3), k.toNat ≠ 0 →
      ((s.ibufSize < inputLen s ∨ inputLen s < 4) → FailsWith (.hdr0TklReserved ver typ k) s 0x00000026) ∧
      (inputLen s ≤ s.ibufSize → 4 ≤ inputLen s → FailsWith (.hdr0TklReserved ver typ k) s 0x00000036))

/-- R128: the marker ends the options: the message is committed, with the payload after the marker, or `(n, 0)` where the
marker is the last byte. -/
def Obligations.MarkerFormCommitsTheMessage : Prop :=
  ∀ s : State, s.walk.cur < inputLen s → s.walk.opts.length < 256 →
    ∃ t, exec .payloadMarker s = .next t ∧
      t = { finished s 0x00000002 with
            msgHdr := s.walk.hdr, tokDesc := 4, payDesc := t.payDesc, optCount := t.optCount
            opts := s.walk.opts ++ s.opts.drop s.walk.opts.length } ∧
      SameBytes s t ∧ t.optCount.toNat = s.walk.opts.length ∧
      (s.walk.cur + 1 < inputLen s →
        lowHalf t.payDesc = s.walk.cur + 1 ∧ highHalf t.payDesc = inputLen s - s.walk.cur - 1) ∧
      (s.walk.cur + 1 = inputLen s → lowHalf t.payDesc = inputLen s ∧ highHalf t.payDesc = 0)

/-- R120: the reserved selectors fail whatever bytes follow. -/
def Obligations.ReservedSelectorFormsFail : Prop :=
  ∀ s : State,
    (∀ l : Nibble, l.toNat ≤ 14 → FailsWith (.optDeltaReserved l) s 0x00000046) ∧
    (∀ d : Nibble, d.toNat ≤ 14 → FailsWith (.optLengthReserved d) s 0x00000056)

/-- R126: an option form whose extension bytes and value lie within the input, whose number fits 16 bits and for which there
is room, appends its option and moves the cursor past it; nothing but DECODE's working values changes. -/
def Obligations.OptionFormsAppendTheirOption : Prop :=
  ∀ (s : State) (i : Instr) (d l : Nibble), optionSelectors i = some (d, l) → WellFormed i →
    ∀ (delta len off : Nat),
    delta = fieldAt s d (s.walk.cur + 1) → len = fieldAt s l (s.walk.cur + 1 + extra d) →
    off = s.walk.cur + 1 + extra d + extra l →
    s.walk.acc + delta ≤ 65535 → off + len ≤ inputLen s → s.walk.opts.length < s.maxOpts →
    ∃ t, exec i s = .next t ∧ t = { s with walk := t.walk } ∧ SameBytes s t ∧
      t.walk.stage = .atHeader ∧ t.walk.hdr = s.walk.hdr ∧ t.walk.cur = off + len ∧ t.walk.acc = s.walk.acc + delta ∧
      ∃ e : OptEntry, t.walk.opts = s.walk.opts ++ [e] ∧
        e.num.toNat = s.walk.acc + delta ∧ e.off.toNat = off ∧ e.len.toNat = len

/-- R126, R127, R129 (5) to (9): the checks of an option form in their order: the delta's bytes, the length's bytes, the
number, the value's range, the capacity. -/
def Obligations.OptionFormsReportTheirFirstError : Prop :=
  ∀ (s : State) (i : Instr) (d l : Nibble), optionSelectors i = some (d, l) → WellFormed i →
    s.walk.cur < inputLen s →
    ∀ (delta len off : Nat),
    delta = fieldAt s d (s.walk.cur + 1) → len = fieldAt s l (s.walk.cur + 1 + extra d) →
    off = s.walk.cur + 1 + extra d + extra l →
    (inputLen s < off → FailsWith i s 0x00000056) ∧
    (off ≤ inputLen s → 65535 < s.walk.acc + delta → FailsWith i s 0x00000046) ∧
    (off ≤ inputLen s → s.walk.acc + delta ≤ 65535 → inputLen s < off + len → FailsWith i s 0x00000056) ∧
    (off + len ≤ inputLen s → s.walk.acc + delta ≤ 65535 → s.walk.opts.length = s.maxOpts → FailsWith i s 0x00000076)

/-- DECODE is its wire forms: taking a DECODE one wire form at a time, from byte 0 on, ends in the state of the one atomic
step (R103, R125; the working values between the forms are the model's own, assumption log entry 7). -/
def Obligations.DecodeIsItsWireForms : Prop :=
  ∀ s : State, EngineTurn s 1 → s.walk = Walk.idle →
    ∃ k, k ≤ inputLen s + 2 ∧ Host.Core.run core k { s with walk := Walk.start } = exec .decode s

/-! ### The command lifecycle -/

/-- R105: every command word but the five legal ones completes with STATUS = 0x000000F6 and changes nothing else. -/
def Obligations.IllegalWordsFailWithIllegalCommand : Prop :=
  (∀ (s : State) (w : Word), FailsWith (.illegalCmd w) s 0x000000F6) ∧
  ∀ (s : State) (w : Word), w.toNat = 0 ∨ 5 < w.toNat → FailsWith (decode (.cmd w)) s 0x000000F6

/-- R100: acceptance of any word while idle; PHASE and STATUS change and nothing else of the block (the queue, the
length of the delay, the count of accepted commands and the empty working values are the model's own, assumption log entries
4, 5 and 7). -/
def Obligations.CommandWriteIsAccepted : Prop :=
  ∀ (s : State) (w : Word) (rest : List HostOp), s.phase = .idle → s.port = .wreg 0 w :: rest →
    ∃ t, step s = .next t ∧
      t = { s with
            phase := .busy w, status := 0x00000001, walk := Walk.idle, port := rest, delay := t.delay
            accepted := t.accepted } ∧
      SameBytes s t

/-- R101, R102: while a command runs, a host write of any register (CMD too), of IBUF or of OBUF is ignored, a host read returns
what the location holds, and STATUS reads 0x00000001. -/
def Obligations.BusyBlockIgnoresWritesAndShowsItsState : Prop :=
  ∀ (s : State) (op : Word) (a : HostOp) (rest : List HostOp), s.phase = .busy op → HostTurn s a rest →
    (isWrite a = true → ∃ t, step s = .next t ∧ t = { s with port := rest, delay := s.delay - 1 } ∧ SameBytes s t) ∧
    (∀ v, readValue s a = some v →
      ∃ t, step s = .next t ∧ t = { s with port := rest, delay := s.delay - 1, replies := s.replies ++ [v] } ∧
        SameBytes s t) ∧
    (s.Inv → readValue s (.rreg 1) = some (.reg 0x00000001))

/-- R68, R102: a host read returns what the location holds, busy or idle, and changes nothing of the block. -/
def Obligations.ReadsReturnTheHeldValueWithoutEffect : Prop :=
  ∀ (s : State) (a : HostOp) (rest : List HostOp) (v : Reply),
    HostTurn s a rest → readValue s a = some v →
    ∃ t, step s = .next t ∧ SameBlock s t ∧ t.port = rest ∧ t.replies = s.replies ++ [v] ∧ SameBytes s t

/-- R95: the host's `wait` reads STATUS again and again until BUSY reads 0: on a busy block the access stays first in line, on
an idle one it is done. -/
def Obligations.WaitReadsStatusUntilIdle : Prop :=
  ∀ (s : State) (rest : List HostOp), s.Inv → HostTurn s .wait rest →
    ∃ t, step s = .next t ∧ SameBlock s t ∧ SameBytes s t ∧ t.replies = s.replies ++ [.reg s.status] ∧
      (s.phase = .idle → t.port = rest) ∧ ((∃ w, s.phase = .busy w) → t.port = .wait :: rest)

/-- R103: a step of a busy engine executes the accepted command word. -/
def Obligations.StepExecutesTheAcceptedCommand : Prop :=
  ∀ (s : State) (w : Word), EngineTurn s w → s.walk.stage = .off → step s = exec (decode (.cmd w)) s

/-- A step of an engine that takes DECODE one wire form at a time executes the form at its position, and completes at the end
of the input (R124, R125, R128; assumption log entry 7). -/
def Obligations.StepExecutesTheWireForm : Prop :=
  ∀ (s : State) (w : Word), EngineTurn s w →
    (s.walk.stage = .atByte0 → step s = exec (decode (.byte0 (s.ibufAt 0))) s) ∧
    (s.walk.stage = .atHeader → s.walk.cur < inputLen s → step s = exec (decode (.optHdr (s.ibufAt s.walk.cur))) s) ∧
    (s.walk.stage = .atHeader → s.walk.cur = inputLen s → s.walk.opts.length < 256 →
      ∃ t, step s = .next t ∧
        t = { finished s 0x00000002 with
              msgHdr := s.walk.hdr, tokDesc := 4, payDesc := t.payDesc, optCount := t.optCount
              opts := s.walk.opts ++ s.opts.drop s.walk.opts.length } ∧
        t.optCount.toNat = s.walk.opts.length ∧ lowHalf t.payDesc = inputLen s ∧ highHalf t.payDesc = 0)

/-- R214, R230: an idle block without a host access to serve waits unchanged. -/
def Obligations.IdleBlockWaits : Prop :=
  ∀ s : State, s.phase = .idle → s.port = [] → step s = .next s

/-- R103: every command word completes in its one step: PHASE idle, DONE set, BUSY clear, whatever the state. -/
def Obligations.EveryCommandCompletes : Prop :=
  ∀ (s : State) (w : Word), ∃ t, exec (decode (.cmd w)) s = .next t ∧
    t.phase = .idle ∧ t.walk = Walk.idle ∧ t.status.getLsbD 0 = false ∧ t.status.getLsbD 1 = true ∧
    (t.status.getLsbD 2 = false → t.status = 0x00000002)

/-- R201, R204: a command that fails changes nothing but STATUS and the completion. -/
def Obligations.FailedCommandsChangeOnlyStatus : Prop :=
  ∀ (s t : State) (w : Word), exec (decode (.cmd w)) s = .next t → t.status ≠ 0x00000002 →
    t = finished s t.status ∧ SameBytes s t

/-- R205: the error kinds each command can raise, as STATUS values. -/
def Obligations.CommandsRaiseOnlyTheirErrors : Prop :=
  ∀ (s t : State),
    (exec .decode s = .next t →
      t.status ∈ ([0x02, 0x26, 0x36, 0x46, 0x56, 0x76] : List Word)) ∧
    (exec .encode s = .next t → t.status ∈ ([0x02, 0x76, 0x36, 0x26, 0x46] : List Word)) ∧
    (exec .construct s = .next t → t.status ∈ ([0x02, 0x76] : List Word)) ∧
    (exec .packf s = .next t → t.status ∈ ([0x02, 0x26] : List Word)) ∧
    (exec .unpackf s = .next t → t.status ∈ ([0x02, 0x46, 0x56] : List Word)) ∧
    (∀ w, exec (.illegalCmd w) s = .next t → t.status = 0xF6)

/-- R106, R107: a command completes after at most its delay, and its result is that of its acceptance state, whatever the host
does in the meantime (reset apart). -/
def Obligations.DelayedCommandGivesTheAcceptanceResult : Prop :=
  ∀ (s : State) (w : Word), s.phase = .busy w → s.walk = Walk.idle → (∀ op ∈ s.port, op ≠ .reset) →
    ∃ k t u, k ≤ s.delay + 1 ∧ Host.Core.run core k s = .next t ∧ exec (decode (.cmd w)) s = .next u ∧
      t.phase = .idle ∧ SameBlock t u

/-- R109: STATUS stays as it is until the next acceptance or a reset. -/
def Obligations.StatusStaysUntilTheNextCommandOrReset : Prop :=
  ∀ s t : State, s.phase = .idle → step s = .next t →
    (∀ v rest, s.port ≠ .wreg 0 v :: rest) → (∀ rest, s.port ≠ .reset :: rest) → t.status = s.status ∧ t.phase = .idle

/-- R204, R207: the machine never stops: every step from every state gives a next state. -/
def Obligations.StepNeverStops : Prop :=
  ∀ s : State, ∃ t, step s = .next t

/-! ### The ports -/

/-- R22, R23, R25, R39: what a read of each offset returns. -/
def Obligations.RegisterMapReads : Prop :=
  ∀ s : State,
    (hostReadReg s 0x000 = 0 ∧ hostReadReg s 0x001 = s.status ∧ hostReadReg s 0x002 = s.inLen ∧
      hostReadReg s 0x003 = s.outLen ∧ hostReadReg s 0x004 = s.msgHdr ∧ hostReadReg s 0x005 = s.tokDesc ∧
      hostReadReg s 0x006 = s.payDesc ∧ hostReadReg s 0x007 = s.optCount ∧ hostReadReg s 0x008 = s.packIn ∧
      hostReadReg s 0x009 = s.packOut ∧ hostReadReg s 0x00A = s.unpackIn ∧ hostReadReg s 0x00B = s.unpackOut) ∧
    (hostReadReg s 0x00C).toNat = s.maxOpts ∧
    (hostReadReg s 0x00D).toNat = s.ibufSize * 65536 + s.maxPacket ∧
    (∀ (i : Nat) (e : OptEntry), i < s.maxOpts → s.opts[i]? = some e →
      (hostReadReg s (BitVec.ofNat 10 (0x040 + 2 * i))).toNat = e.num.toNat ∧
      (hostReadReg s (BitVec.ofNat 10 (0x041 + 2 * i))).toNat = e.len.toNat * 65536 + e.off.toNat) ∧
    (∀ w : BitVec 10, (0x00E ≤ w.toNat ∧ w.toNat < 0x040) ∨ 0x040 + 2 * s.maxOpts ≤ w.toNat → hostReadReg s w = 0)

/-- R23, R24: a host write of an idle block's register stores the named fields of an RW register and nothing else; it changes
no other register and no byte. -/
def Obligations.RegisterWritesStoreNamedFields : Prop :=
  ∀ (s : State) (w : BitVec 10) (v : Word) (rest : List HostOp),
    s.Inv → s.phase = .idle → s.port = .wreg w v :: rest → w ≠ 0 →
    ∃ t, step s = .next t ∧
      t = { s with
            port := rest, inLen := t.inLen, msgHdr := t.msgHdr, tokDesc := t.tokDesc, payDesc := t.payDesc
            optCount := t.optCount, packIn := t.packIn, unpackIn := t.unpackIn, opts := t.opts } ∧
      SameBytes s t ∧
      (∀ w' : BitVec 10, w' ≠ w → hostReadReg t w' = hostReadReg s w') ∧
      (storedBits s.maxOpts w.toNat = 0 → hostReadReg t w = hostReadReg s w) ∧
      (storedBits s.maxOpts w.toNat ≠ 0 → hostReadReg t w = v &&& storedBits s.maxOpts w.toNat)

/-- R60, R63: a host write of an IBUF byte of an idle block writes that byte, and outside IBUF nothing. -/
def Obligations.IbufWritesWriteOneByte : Prop :=
  ∀ (s : State) (a : Nat) (b : Byte) (rest : List HostOp), s.phase = .idle → s.port = .wibuf a b :: rest →
    ∃ t, step s = .next t ∧ t = { s with port := rest, ibuf := t.ibuf } ∧
      (a < s.ibufSize → t.ibufAt a = b) ∧ (∀ a', a' ≠ a ∨ s.ibufSize ≤ a → t.ibufAt a' = s.ibufAt a') ∧
      ∀ a', t.obufAt a' = s.obufAt a'

/-- R62, R63: a host write of OBUF is ignored, and addresses outside a buffer read 0x00. -/
def Obligations.ObufWritesAreIgnoredAndOutsideReadsZero : Prop :=
  (∀ (s : State) (a : Nat) (b : Byte) (rest : List HostOp), s.phase = .idle → s.port = .wobuf a b :: rest →
    ∃ t, step s = .next t ∧ t = { s with port := rest } ∧ SameBytes s t) ∧
  (∀ (s : State) (a : Nat), (s.ibufSize ≤ a → s.ibufAt a = 0) ∧ (s.maxPacket ≤ a → s.obufAt a = 0))

/-! ### Reset -/

/-- R230 to R232: the reset input sets every register to its reset value and PHASE to idle, abandons a running command, and
leaves the buffers. -/
def Obligations.ResetInputResetsRegistersAndKeepsBuffers : Prop :=
  ∀ (s : State) (rest : List HostOp), s.Inv → HostTurn s .reset rest →
    ∃ t, step s = .next t ∧ t.phase = .idle ∧ t.walk = Walk.idle ∧ t.params = s.params ∧ SameBytes s t ∧
      ∀ w : BitVec 10, hostReadReg t w =
        if w = 0x00C ∨ w = 0x00D then hostReadReg s w else 0

/-- R233: the state after reset, as the commands see it, for all legal parameters. -/
def Obligations.CommandsAfterReset : Prop :=
  ∀ p : Params, p.Legal →
    messageOf (State.resetWith p) =
      { ver := 0, typ := 0, code := 0, mid := 0, token := [], options := [], payload := [] } ∧
    (∃ t, exec .encode (State.resetWith p) = .next t ∧ t.status = 0x00000002 ∧ t.outLen = 4 ∧
      t.obufSeq 0 4 = [0, 0, 0, 0]) ∧
    FailsWith .decode (State.resetWith p) 0x00000026 ∧
    exec .construct (State.resetWith p) = .next (finished (State.resetWith p) 0x00000002) ∧
    exec .packf (State.resetWith p) = .next (finished (State.resetWith p) 0x00000002) ∧
    exec .unpackf (State.resetWith p) = .next (finished (State.resetWith p) 0x00000002)

/-! ### Whole-machine rules -/

/-- The invariant holds after reset. -/
def Obligations.ResetMeetsTheInvariant : Prop :=
  ∀ p : Params, p.Legal → (State.resetWith p).Inv

/-- Every step keeps the invariant: canonical buffers within their sizes, reserved bits 0, legal STATUS values tied to PHASE,
a table of MAX_OPTIONS entries. -/
def Obligations.StepKeepsTheInvariant : Prop :=
  ∀ s t : State, s.Inv → step s = .next t → t.Inv

/-- R39, R61: no step changes the build parameters, and a step of the engine never writes IBUF or an input register. -/
def Obligations.ParametersAndInputsAreNotWrittenByTheEngine : Prop :=
  ∀ s t : State, step s = .next t →
    t.params = s.params ∧
    (∀ w, EngineTurn s w →
      t.ibuf = s.ibuf ∧ (∀ a, t.ibufAt a = s.ibufAt a) ∧ t.inLen = s.inLen ∧ t.packIn = s.packIn ∧
      t.unpackIn = s.unpackIn ∧ t.port = s.port ∧ t.replies = s.replies)

/-- R41: which command of the engine can change each register and OBUF. -/
def Obligations.EngineWritersAreTheListedOnes : Prop :=
  ∀ (s t : State) (w : Word), EngineTurn s w → s.walk = Walk.idle → step s = .next t →
    (t.msgHdr ≠ s.msgHdr ∨ t.tokDesc ≠ s.tokDesc ∨ t.payDesc ≠ s.payDesc ∨ t.optCount ≠ s.optCount → w = 1) ∧
    (t.opts ≠ s.opts → w = 1 ∨ w = 3) ∧
    (t.outLen ≠ s.outLen ∨ (∃ a, t.obufAt a ≠ s.obufAt a) → w = 2) ∧
    (t.packOut ≠ s.packOut → w = 4) ∧ (t.unpackOut ≠ s.unpackOut → w = 5)

/-- R179: encode and decode are inverse. The output of ENCODE, copied to IBUF, decodes to the same message (the code is not
Empty or there is no payload); and a buffer that DECODE accepts, without a bare marker at its end and under the same
condition, comes back byte for byte, if it fits. -/
def Obligations.EncodeAndDecodeRoundTrip : Prop :=
  (∀ s t u : State, exec .encode s = .next t → t.status = 0x00000002 →
    hdrCode s.msgHdr ≠ 0 ∨ highHalf s.payDesc = 0 →
    u.params = s.params → inputLen u = t.outLen.toNat → inputLen u ≤ u.ibufSize →
    u.ibufSeq 0 (inputLen u) = t.obufSeq 0 (inputLen u) →
    ∃ v, exec .decode u = .next v ∧ v.status = 0x00000002 ∧ messageOf v = messageOf s) ∧
  ∀ s t : State, exec .decode s = .next t → t.status = 0x00000002 →
    s.ibufSeq 0 (inputLen s) = wire (messageOf t) false →
    hdrCode t.msgHdr ≠ 0 ∨ highHalf t.payDesc = 0 → inputLen s ≤ s.maxPacket →
    ∃ u, exec .encode t = .next u ∧ u.status = 0x00000002 ∧ u.outLen.toNat = inputLen s ∧
      u.obufSeq 0 (inputLen s) = s.ibufSeq 0 (inputLen s)

/-- R179, R180: DECODE then ENCODE: the output is the input up to the end of the options, and all of it where a payload is
emitted; so the bytes come back exactly, but for a trailing bare marker and for the payload of an Empty code. -/
def Obligations.DecodeThenEncodeGivesTheBuffer : Prop :=
  ∀ (s t : State) (n : Nat), exec .decode s = .next t → t.status = 0x00000002 →
    n = (if hdrCode t.msgHdr ≠ 0 ∧ 0 < highHalf t.payDesc then inputLen s else optionsEnd t) →
    n ≤ s.maxPacket →
    ∃ u, exec .encode t = .next u ∧ u.status = 0x00000002 ∧ u.outLen.toNat = n ∧ u.obufSeq 0 n = s.ibufSeq 0 n

/-- The host's placement of an instruction: the very next step executes it (assumption log entries 8 and 9). -/
def Obligations.PlacedInstructionRunsNext : Prop :=
  ∀ (s : State) (nbits w : Nat) (i : Instr), 9 ≤ s.ibufSize → decodeTableWord nbits w = some i →
    step (s.withFetchWord nbits w) = exec i (s.withFetchWord nbits w)
end

