-- ==== Sys2Proof/Laws/Fields.lean ====
section
/-! SUPPORT. The fields of the packed words: a word built from its fields has those fields, and its value as a number. -/

namespace Sys2Proof

/-- The number an appended bit vector stands for. -/
theorem toNat_append_add {m n : Nat} (x : BitVec m) (y : BitVec n) :
    (x ++ y).toNat = x.toNat * 2 ^ n + y.toNat := by
  rw [BitVec.toNat_append, ← Nat.shiftLeft_add_eq_or_of_lt y.isLt, Nat.shiftLeft_eq]

/-- The number a bit field stands for. -/
theorem toNat_field {m : Nat} (x : BitVec m) (lo len : Nat) :
    (x.extractLsb' lo len).toNat = x.toNat / 2 ^ lo % 2 ^ len := by
  rw [BitVec.extractLsb'_toNat, Nat.shiftRight_eq_div_pow]

/-! ### Header bytes (spec/30_encoding.md R84, R87) -/

theorem toNat_headerByte (d l : Nibble) : (headerByte d l).toNat = d.toNat * 16 + l.toNat :=
  toNat_append_add d l

@[simp] theorem highNibble_headerByte (d l : Nibble) : highNibble (headerByte d l) = d := by
  apply BitVec.eq_of_toNat_eq
  rw [highNibble, toNat_field, toNat_headerByte]
  have := l.isLt; have := d.isLt; omega

@[simp] theorem lowNibble_headerByte (d l : Nibble) : lowNibble (headerByte d l) = l := by
  apply BitVec.eq_of_toNat_eq
  rw [lowNibble, toNat_field, toNat_headerByte]
  have := l.isLt; have := d.isLt; omega

theorem headerByte_of_nibbles (b : Byte) : headerByte (highNibble b) (lowNibble b) = b := by
  apply BitVec.eq_of_toNat_eq
  rw [toNat_headerByte, highNibble, lowNibble, toNat_field, toNat_field]
  have := b.isLt; omega

/-- A header byte is the marker exactly when both its selectors are 15 (R92). -/
theorem headerByte_eq_marker (d l : Nibble) : headerByte d l = 0xFF ↔ d = 15 ∧ l = 15 := by
  constructor
  · intro h
    exact ⟨by rw [← highNibble_headerByte d l, h]; rfl, by rw [← lowNibble_headerByte d l, h]; rfl⟩
  · rintro ⟨rfl, rfl⟩; rfl

theorem toNat_byte0Of (ver typ : BitVec 2) (tkl : Nibble) :
    (byte0Of ver typ tkl).toNat = ver.toNat * 64 + typ.toNat * 16 + tkl.toNat := by
  rw [byte0Of, toNat_append_add, toNat_append_add]; omega

@[simp] theorem byte0Ver_byte0Of (ver typ : BitVec 2) (tkl : Nibble) : byte0Ver (byte0Of ver typ tkl) = ver := by
  apply BitVec.eq_of_toNat_eq
  rw [byte0Ver, toNat_field, toNat_byte0Of]
  have := ver.isLt; have := typ.isLt; have := tkl.isLt; omega

@[simp] theorem byte0Typ_byte0Of (ver typ : BitVec 2) (tkl : Nibble) : byte0Typ (byte0Of ver typ tkl) = typ := by
  apply BitVec.eq_of_toNat_eq
  rw [byte0Typ, toNat_field, toNat_byte0Of]
  have := ver.isLt; have := typ.isLt; have := tkl.isLt; omega

@[simp] theorem byte0Tkl_byte0Of (ver typ : BitVec 2) (tkl : Nibble) : byte0Tkl (byte0Of ver typ tkl) = tkl := by
  apply BitVec.eq_of_toNat_eq
  rw [byte0Tkl, toNat_field, toNat_byte0Of]
  have := ver.isLt; have := typ.isLt; have := tkl.isLt; omega

theorem byte0Of_fields (b : Byte) : byte0Of (byte0Ver b) (byte0Typ b) (byte0Tkl b) = b := by
  apply BitVec.eq_of_toNat_eq
  rw [toNat_byte0Of, byte0Ver, byte0Typ, byte0Tkl, toNat_field, toNat_field, toNat_field]
  have := b.isLt; omega

end Sys2Proof

namespace Sys2Proof.Machine

/-! ### Two-byte values (spec/00_scope.md R8) -/

@[simp] theorem toNat_hi8 (v : Nat) (h : v < 65536) : (hi8 v).toNat = v / 256 := by
  rw [hi8, BitVec.toNat_ofNat, Nat.mod_eq_of_lt (by omega)]

@[simp] theorem toNat_lo8 (v : Nat) : (lo8 v).toNat = v % 256 := by rw [lo8, BitVec.toNat_ofNat]

theorem be16_hi8_lo8 (v : Nat) (h : v < 65536) : be16 (hi8 v) (lo8 v) = v := by
  rw [be16, toNat_hi8 v h, toNat_lo8]; omega

theorem be16_lt (b0 b1 : Byte) : be16 b0 b1 < 65536 := by
  have := b0.isLt; have := b1.isLt; rw [be16]; omega

theorem toNat_append_bytes (b0 b1 : Byte) : (b0 ++ b1).toNat = be16 b0 b1 := toNat_append_add b0 b1

/-! ### MSG_HDR (spec/10_state.md R28) -/

theorem toNat_packMsgHdr (mid : Half) (code : Byte) (ver typ : BitVec 2) (tkl : Nibble) :
    (packMsgHdr mid code ver typ tkl).toNat =
      mid.toNat * 65536 + code.toNat * 256 + ver.toNat * 64 + typ.toNat * 16 + tkl.toNat := by
  rw [packMsgHdr, toNat_append_add, toNat_append_add, toNat_append_add, toNat_append_add]; omega

@[simp] theorem hdrTkl_packMsgHdr (mid : Half) (code : Byte) (ver typ : BitVec 2) (tkl : Nibble) :
    hdrTkl (packMsgHdr mid code ver typ tkl) = tkl := by
  apply BitVec.eq_of_toNat_eq
  rw [hdrTkl, toNat_field, toNat_packMsgHdr]
  have := tkl.isLt; omega

@[simp] theorem hdrTyp_packMsgHdr (mid : Half) (code : Byte) (ver typ : BitVec 2) (tkl : Nibble) :
    hdrTyp (packMsgHdr mid code ver typ tkl) = typ := by
  apply BitVec.eq_of_toNat_eq
  rw [hdrTyp, toNat_field, toNat_packMsgHdr]
  have := tkl.isLt; have := typ.isLt; omega

@[simp] theorem hdrVer_packMsgHdr (mid : Half) (code : Byte) (ver typ : BitVec 2) (tkl : Nibble) :
    hdrVer (packMsgHdr mid code ver typ tkl) = ver := by
  apply BitVec.eq_of_toNat_eq
  rw [hdrVer, toNat_field, toNat_packMsgHdr]
  have := tkl.isLt; have := typ.isLt; have := ver.isLt; omega

@[simp] theorem hdrCode_packMsgHdr (mid : Half) (code : Byte) (ver typ : BitVec 2) (tkl : Nibble) :
    hdrCode (packMsgHdr mid code ver typ tkl) = code := by
  apply BitVec.eq_of_toNat_eq
  rw [hdrCode, toNat_field, toNat_packMsgHdr]
  have := tkl.isLt; have := typ.isLt; have := ver.isLt; have := code.isLt; omega

@[simp] theorem hdrMid_packMsgHdr (mid : Half) (code : Byte) (ver typ : BitVec 2) (tkl : Nibble) :
    hdrMid (packMsgHdr mid code ver typ tkl) = mid := by
  apply BitVec.eq_of_toNat_eq
  rw [hdrMid, toNat_field, toNat_packMsgHdr]
  have := tkl.isLt; have := typ.isLt; have := ver.isLt; have := code.isLt; have := mid.isLt; omega

/-- MSG_HDR[7:0] has the layout of byte 0 (R28). -/
theorem hdrByte0_eq (v : Word) : hdrByte0 v = byte0Of (hdrVer v) (hdrTyp v) (hdrTkl v) := by
  apply BitVec.eq_of_toNat_eq
  rw [toNat_byte0Of, hdrByte0, hdrVer, hdrTyp, hdrTkl, toNat_field, toNat_field, toNat_field, toNat_field]
  omega

/-- MSG_HDR is its fields. -/
theorem packMsgHdr_fields (v : Word) : packMsgHdr (hdrMid v) (hdrCode v) (hdrVer v) (hdrTyp v) (hdrTkl v) = v := by
  apply BitVec.eq_of_toNat_eq
  rw [toNat_packMsgHdr, hdrMid, hdrCode, hdrVer, hdrTyp, hdrTkl]
  simp only [toNat_field]
  have := v.isLt; omega

/-! ### Descriptor registers (spec/10_state.md R32, R33) -/

theorem toNat_packDesc (off len : Half) : (packDesc off len).toNat = len.toNat * 65536 + off.toNat :=
  toNat_append_add len off

@[simp] theorem lowHalf_packDesc (off len : Half) : lowHalf (packDesc off len) = off.toNat := by
  rw [lowHalf, toNat_field, toNat_packDesc]
  have := off.isLt; omega

@[simp] theorem highHalf_packDesc (off len : Half) : highHalf (packDesc off len) = len.toNat := by
  rw [highHalf, toNat_field, toNat_packDesc]
  have := off.isLt; have := len.isLt; omega

theorem lowHalf_lt (v : Word) : lowHalf v < 65536 := by
  rw [lowHalf, toNat_field]; omega

theorem highHalf_lt (v : Word) : highHalf v < 65536 := by
  rw [highHalf, toNat_field]; omega

theorem countField_lt (v : Word) : countField v < 256 := by
  rw [countField, toNat_field]; omega

theorem packInValue_lt (v : Word) : packInValue v < 131072 := by
  rw [packInValue, toNat_field]; omega

theorem lowHalf_ofNat (n : Nat) (h : n < 65536) : lowHalf (BitVec.ofNat 32 n) = n := by
  rw [lowHalf, toNat_field, BitVec.toNat_ofNat]; omega

theorem countField_ofNat (n : Nat) (h : n < 256) : countField (BitVec.ofNat 32 n) = n := by
  rw [countField, toNat_field, BitVec.toNat_ofNat]; omega

/-! ### PACK_OUT and UNPACK_OUT (spec/10_state.md R36, R38) -/

theorem toNat_packPackOut (sel : Nibble) (next : BitVec 2) (ext0 ext1 : Byte) :
    (packPackOut sel next ext0 ext1).toNat =
      sel.toNat + next.toNat * 16 + ext0.toNat * 256 + ext1.toNat * 65536 := by
  rw [packPackOut]
  simp only [toNat_append_add]
  have : (0#8).toNat = 0 := rfl
  have : (0#2).toNat = 0 := rfl
  omega

theorem toNat_packUnpackOut (value : BitVec 17) (consumed : BitVec 2) :
    (packUnpackOut value consumed).toNat = value.toNat + consumed.toNat * 1048576 := by
  rw [packUnpackOut]
  simp only [toNat_append_add]
  have : (0#10).toNat = 0 := rfl
  have : (0#3).toNat = 0 := rfl
  omega

end Sys2Proof.Machine
end

