-- ==== Sys2Proof/Laws/FieldUnits.lean ====
section
/-! SUPPORT. The packer and the unpacker of option fields, each with one lemma that says everything it can answer
(spec/42_encode.md R160, spec/41_decode.md R120, R121). -/

namespace Sys2Proof.Machine

/-- What PACK can answer. -/
theorem pack_cases (v : Nat) :
    (v ≤ 12 ∧ pack v = .ok { sel := BitVec.ofNat 4 v, ext := [] }) ∨
    (12 < v ∧ v ≤ 268 ∧ pack v = .ok { sel := 13, ext := [BitVec.ofNat 8 (v - 13)] }) ∨
    (268 < v ∧ v ≤ 65804 ∧ pack v = .ok { sel := 14, ext := [hi8 (v - 269), lo8 (v - 269)] }) ∨
    (65804 < v ∧ pack v = .raise .invalidPacketLength) := by
  unfold pack
  by_cases h1 : v ≤ 12
  · simp [h1]
  by_cases h2 : v ≤ 268
  · simp [h1, h2]; omega
  by_cases h3 : v ≤ 65804
  · simp [h1, h2, h3]; omega
  · simp [h1, h2, h3]; omega

/-- PACK answers for every value up to 65804. -/
theorem pack_ok {v : Nat} (h : v ≤ 65804) : ∃ p, pack v = .ok p := by
  rcases pack_cases v with ⟨-, h'⟩ | ⟨-, -, h'⟩ | ⟨-, -, h'⟩ | ⟨h', -⟩
  · exact ⟨_, h'⟩
  · exact ⟨_, h'⟩
  · exact ⟨_, h'⟩
  · omega

/-- PACK never produces selector 15 (R160). -/
theorem pack_sel_le {v : Nat} {p : Packed} (h : pack v = .ok p) : p.sel.toNat ≤ 14 := by
  rcases pack_cases v with ⟨hv, h'⟩ | ⟨-, -, h'⟩ | ⟨-, -, h'⟩ | ⟨-, h'⟩ <;> rw [h] at h' <;>
    first | (injection h' with h'; subst h'; simp) | cases h'
  omega

/-- The number of extension bytes of a selector (R88). -/
def extBytes (sel : Nibble) : Nat := if sel.toNat ≤ 12 then 0 else if sel = 13 then 1 else 2

/-- PACK's extension has as many bytes as its selector says. -/
theorem pack_ext_length {v : Nat} {p : Packed} (h : pack v = .ok p) : p.ext.length = extBytes p.sel := by
  rcases pack_cases v with ⟨hv, h'⟩ | ⟨-, -, h'⟩ | ⟨-, -, h'⟩ | ⟨-, h'⟩ <;> rw [h] at h' <;>
    first | (injection h' with h'; subst h'; simp [extBytes]) | cases h'
  omega

/-- What UNPACK answers for a direct selector. -/
theorem unpack_direct {s : Nibble} (kind : SelectorKind) (x : List Byte) (h : s.toNat ≤ 12) :
    unpack s kind x = .ok { value := s.toNat, consumed := 0 } := by
  unfold unpack; rw [if_pos h]

@[simp] theorem unpack_13_nil (kind : SelectorKind) : unpack 13#4 kind [] = .raise .invalidOptionLength := rfl

@[simp] theorem unpack_13_cons (kind : SelectorKind) (e : Byte) (x : List Byte) :
    unpack 13#4 kind (e :: x) = .ok { value := e.toNat + 13, consumed := 1 } := rfl

@[simp] theorem unpack_14_nil (kind : SelectorKind) : unpack 14#4 kind [] = .raise .invalidOptionLength := rfl

@[simp] theorem unpack_14_one (kind : SelectorKind) (e : Byte) : unpack 14#4 kind [e] = .raise .invalidOptionLength := rfl

@[simp] theorem unpack_14_cons (kind : SelectorKind) (e0 e1 : Byte) (x : List Byte) :
    unpack 14#4 kind (e0 :: e1 :: x) = .ok { value := be16 e0 e1 + 269, consumed := 2 } := rfl

@[simp] theorem unpack_15_delta (x : List Byte) : unpack 15#4 .delta x = .raise .invalidOptionDelta := rfl

@[simp] theorem unpack_15_length (x : List Byte) : unpack 15#4 .length x = .raise .invalidOptionLength := rfl

/-- A selector is direct, 13, 14 or 15. -/
theorem selector_cases (s : Nibble) : s.toNat ≤ 12 ∨ s = 13 ∨ s = 14 ∨ s = 15 := by
  rcases Nat.lt_or_ge 12 s.toNat with h | h
  · right
    have := s.isLt
    have h' : s.toNat = 13 ∨ s.toNat = 14 ∨ s.toNat = 15 := by omega
    rcases h' with h' | h' | h'
    · exact .inl (BitVec.eq_of_toNat_eq h')
    · exact .inr (.inl (BitVec.eq_of_toNat_eq h'))
    · exact .inr (.inr (BitVec.eq_of_toNat_eq h'))
  · exact .inl h

/-- What UNPACK can answer when it succeeds: a direct value, or one or two bytes resolved. -/
theorem unpack_ok_cases {s : Nibble} {kind : SelectorKind} {x : List Byte} {u : Unpacked}
    (h : unpack s kind x = .ok u) :
    (s.toNat ≤ 12 ∧ u = { value := s.toNat, consumed := 0 }) ∨
    (s = 13 ∧ ∃ e r, x = e :: r ∧ u = { value := e.toNat + 13, consumed := 1 }) ∨
    (s = 14 ∧ ∃ e0 e1 r, x = e0 :: e1 :: r ∧ u = { value := be16 e0 e1 + 269, consumed := 2 }) := by
  rcases selector_cases s with hs | rfl | rfl | rfl
  · rw [unpack_direct kind x hs] at h; injection h with h; exact .inl ⟨hs, h.symm⟩
  · match x with
    | [] => simp at h
    | e :: r => simp at h; exact .inr (.inl ⟨rfl, e, r, rfl, h.symm⟩)
  · match x with
    | [] => simp at h
    | [_] => simp at h
    | e0 :: e1 :: r => simp at h; exact .inr (.inr ⟨rfl, e0, e1, r, rfl, h.symm⟩)
  · cases kind <;> simp at h

/-- A resolved value is at most 65804, and it takes at most the bytes that are there (R121). -/
theorem unpack_ok_bounds {s : Nibble} {kind : SelectorKind} {x : List Byte} {u : Unpacked}
    (h : unpack s kind x = .ok u) : u.value ≤ 65804 ∧ u.consumed ≤ 2 ∧ u.consumed ≤ x.length := by
  rcases unpack_ok_cases h with ⟨hs, rfl⟩ | ⟨-, e, r, rfl, rfl⟩ | ⟨-, e0, e1, r, rfl, rfl⟩
  · simp; omega
  · have := e.isLt; simp; omega
  · have := be16_lt e0 e1; simp; omega

/-- UNPACK raises InvalidOptionDelta or InvalidOptionLength and nothing else (R120). -/
theorem unpack_raise_cases {s : Nibble} {kind : SelectorKind} {x : List Byte} {e : ErrKind}
    (h : unpack s kind x = .raise e) :
    (e = .invalidOptionDelta ∧ s = 15 ∧ kind = .delta) ∨ e = .invalidOptionLength := by
  rcases selector_cases s with hs | rfl | rfl | rfl
  · rw [unpack_direct kind x hs] at h; cases h
  · match x with
    | [] => simp at h; exact .inr h.symm
    | _ :: _ => simp at h
  · match x with
    | [] => simp at h; exact .inr h.symm
    | [_] => simp at h; exact .inr h.symm
    | _ :: _ :: _ => simp at h
  · cases kind <;> simp at h
    · exact .inl ⟨h.symm, rfl, rfl⟩
    · exact .inr h.symm

end Sys2Proof.Machine
end

