-- ==== Sys2Proof/Laws/State.lean ====
section
/-! SUPPORT. One lemma per field per update of the state: what acceptance, completion, the commit of a DECODE, the reset input
and a read make of each field. A proof about one of these updates cites them and unfolds no record. -/

namespace Sys2Proof.Machine

/-! ### `completeOk` -/

@[simp] theorem completeOk_params (s : State) : (completeOk s).params = s.params := rfl
@[simp] theorem completeOk_phase (s : State) : (completeOk s).phase = .idle := rfl
@[simp] theorem completeOk_status (s : State) : (completeOk s).status = statusOk := rfl
@[simp] theorem completeOk_inLen (s : State) : (completeOk s).inLen = s.inLen := rfl
@[simp] theorem completeOk_outLen (s : State) : (completeOk s).outLen = s.outLen := rfl
@[simp] theorem completeOk_msgHdr (s : State) : (completeOk s).msgHdr = s.msgHdr := rfl
@[simp] theorem completeOk_tokDesc (s : State) : (completeOk s).tokDesc = s.tokDesc := rfl
@[simp] theorem completeOk_payDesc (s : State) : (completeOk s).payDesc = s.payDesc := rfl
@[simp] theorem completeOk_optCount (s : State) : (completeOk s).optCount = s.optCount := rfl
@[simp] theorem completeOk_packIn (s : State) : (completeOk s).packIn = s.packIn := rfl
@[simp] theorem completeOk_packOut (s : State) : (completeOk s).packOut = s.packOut := rfl
@[simp] theorem completeOk_unpackIn (s : State) : (completeOk s).unpackIn = s.unpackIn := rfl
@[simp] theorem completeOk_unpackOut (s : State) : (completeOk s).unpackOut = s.unpackOut := rfl
@[simp] theorem completeOk_opts (s : State) : (completeOk s).opts = s.opts := rfl
@[simp] theorem completeOk_ibuf (s : State) : (completeOk s).ibuf = s.ibuf := rfl
@[simp] theorem completeOk_obuf (s : State) : (completeOk s).obuf = s.obuf := rfl
@[simp] theorem completeOk_walk (s : State) : (completeOk s).walk = Walk.idle := rfl
@[simp] theorem completeOk_port (s : State) : (completeOk s).port = s.port := rfl
@[simp] theorem completeOk_replies (s : State) : (completeOk s).replies = s.replies := rfl
@[simp] theorem completeOk_delay (s : State) : (completeOk s).delay = s.delay := rfl
@[simp] theorem completeOk_accepted (s : State) : (completeOk s).accepted = s.accepted := rfl

/-! ### `completeErr` -/

@[simp] theorem completeErr_params (s : State) (e : ErrKind) : (completeErr s e).params = s.params := rfl
@[simp] theorem completeErr_phase (s : State) (e : ErrKind) : (completeErr s e).phase = .idle := rfl
@[simp] theorem completeErr_status (s : State) (e : ErrKind) : (completeErr s e).status = statusErr e := rfl
@[simp] theorem completeErr_inLen (s : State) (e : ErrKind) : (completeErr s e).inLen = s.inLen := rfl
@[simp] theorem completeErr_outLen (s : State) (e : ErrKind) : (completeErr s e).outLen = s.outLen := rfl
@[simp] theorem completeErr_msgHdr (s : State) (e : ErrKind) : (completeErr s e).msgHdr = s.msgHdr := rfl
@[simp] theorem completeErr_tokDesc (s : State) (e : ErrKind) : (completeErr s e).tokDesc = s.tokDesc := rfl
@[simp] theorem completeErr_payDesc (s : State) (e : ErrKind) : (completeErr s e).payDesc = s.payDesc := rfl
@[simp] theorem completeErr_optCount (s : State) (e : ErrKind) : (completeErr s e).optCount = s.optCount := rfl
@[simp] theorem completeErr_packIn (s : State) (e : ErrKind) : (completeErr s e).packIn = s.packIn := rfl
@[simp] theorem completeErr_packOut (s : State) (e : ErrKind) : (completeErr s e).packOut = s.packOut := rfl
@[simp] theorem completeErr_unpackIn (s : State) (e : ErrKind) : (completeErr s e).unpackIn = s.unpackIn := rfl
@[simp] theorem completeErr_unpackOut (s : State) (e : ErrKind) : (completeErr s e).unpackOut = s.unpackOut := rfl
@[simp] theorem completeErr_opts (s : State) (e : ErrKind) : (completeErr s e).opts = s.opts := rfl
@[simp] theorem completeErr_ibuf (s : State) (e : ErrKind) : (completeErr s e).ibuf = s.ibuf := rfl
@[simp] theorem completeErr_obuf (s : State) (e : ErrKind) : (completeErr s e).obuf = s.obuf := rfl
@[simp] theorem completeErr_walk (s : State) (e : ErrKind) : (completeErr s e).walk = Walk.idle := rfl
@[simp] theorem completeErr_port (s : State) (e : ErrKind) : (completeErr s e).port = s.port := rfl
@[simp] theorem completeErr_replies (s : State) (e : ErrKind) : (completeErr s e).replies = s.replies := rfl
@[simp] theorem completeErr_delay (s : State) (e : ErrKind) : (completeErr s e).delay = s.delay := rfl
@[simp] theorem completeErr_accepted (s : State) (e : ErrKind) : (completeErr s e).accepted = s.accepted := rfl

/-! ### `accept` -/

@[simp] theorem accept_params (s : State) (w : Word) : (accept s w).params = s.params := rfl
@[simp] theorem accept_phase (s : State) (w : Word) : (accept s w).phase = .busy w := rfl
@[simp] theorem accept_status (s : State) (w : Word) : (accept s w).status = statusBusy := rfl
@[simp] theorem accept_inLen (s : State) (w : Word) : (accept s w).inLen = s.inLen := rfl
@[simp] theorem accept_outLen (s : State) (w : Word) : (accept s w).outLen = s.outLen := rfl
@[simp] theorem accept_msgHdr (s : State) (w : Word) : (accept s w).msgHdr = s.msgHdr := rfl
@[simp] theorem accept_tokDesc (s : State) (w : Word) : (accept s w).tokDesc = s.tokDesc := rfl
@[simp] theorem accept_payDesc (s : State) (w : Word) : (accept s w).payDesc = s.payDesc := rfl
@[simp] theorem accept_optCount (s : State) (w : Word) : (accept s w).optCount = s.optCount := rfl
@[simp] theorem accept_packIn (s : State) (w : Word) : (accept s w).packIn = s.packIn := rfl
@[simp] theorem accept_packOut (s : State) (w : Word) : (accept s w).packOut = s.packOut := rfl
@[simp] theorem accept_unpackIn (s : State) (w : Word) : (accept s w).unpackIn = s.unpackIn := rfl
@[simp] theorem accept_unpackOut (s : State) (w : Word) : (accept s w).unpackOut = s.unpackOut := rfl
@[simp] theorem accept_opts (s : State) (w : Word) : (accept s w).opts = s.opts := rfl
@[simp] theorem accept_ibuf (s : State) (w : Word) : (accept s w).ibuf = s.ibuf := rfl
@[simp] theorem accept_obuf (s : State) (w : Word) : (accept s w).obuf = s.obuf := rfl
@[simp] theorem accept_walk (s : State) (w : Word) : (accept s w).walk = Walk.idle := rfl
@[simp] theorem accept_port (s : State) (w : Word) : (accept s w).port = s.port := rfl
@[simp] theorem accept_replies (s : State) (w : Word) : (accept s w).replies = s.replies := rfl
@[simp] theorem accept_delay (s : State) (w : Word) : (accept s w).delay = Config.completionDelay s.accepted := rfl
@[simp] theorem accept_accepted (s : State) (w : Word) : (accept s w).accepted = s.accepted + 1 := rfl

/-! ### `commitDecoded` -/

@[simp] theorem commitDecoded_params (s : State) (d : Decoded) : (commitDecoded s d).params = s.params := rfl
@[simp] theorem commitDecoded_phase (s : State) (d : Decoded) : (commitDecoded s d).phase = s.phase := rfl
@[simp] theorem commitDecoded_status (s : State) (d : Decoded) : (commitDecoded s d).status = s.status := rfl
@[simp] theorem commitDecoded_inLen (s : State) (d : Decoded) : (commitDecoded s d).inLen = s.inLen := rfl
@[simp] theorem commitDecoded_outLen (s : State) (d : Decoded) : (commitDecoded s d).outLen = s.outLen := rfl
@[simp] theorem commitDecoded_msgHdr (s : State) (d : Decoded) : (commitDecoded s d).msgHdr = d.hdr := rfl
@[simp] theorem commitDecoded_tokDesc (s : State) (d : Decoded) : (commitDecoded s d).tokDesc = 4 := rfl
@[simp] theorem commitDecoded_payDesc (s : State) (d : Decoded) : (commitDecoded s d).payDesc = packDesc (BitVec.ofNat 16 d.payOff) (BitVec.ofNat 16 d.payLen) := rfl
@[simp] theorem commitDecoded_optCount (s : State) (d : Decoded) : (commitDecoded s d).optCount = BitVec.ofNat 32 d.opts.length := rfl
@[simp] theorem commitDecoded_packIn (s : State) (d : Decoded) : (commitDecoded s d).packIn = s.packIn := rfl
@[simp] theorem commitDecoded_packOut (s : State) (d : Decoded) : (commitDecoded s d).packOut = s.packOut := rfl
@[simp] theorem commitDecoded_unpackIn (s : State) (d : Decoded) : (commitDecoded s d).unpackIn = s.unpackIn := rfl
@[simp] theorem commitDecoded_unpackOut (s : State) (d : Decoded) : (commitDecoded s d).unpackOut = s.unpackOut := rfl
@[simp] theorem commitDecoded_opts (s : State) (d : Decoded) : (commitDecoded s d).opts = d.opts ++ s.opts.drop d.opts.length := rfl
@[simp] theorem commitDecoded_ibuf (s : State) (d : Decoded) : (commitDecoded s d).ibuf = s.ibuf := rfl
@[simp] theorem commitDecoded_obuf (s : State) (d : Decoded) : (commitDecoded s d).obuf = s.obuf := rfl
@[simp] theorem commitDecoded_walk (s : State) (d : Decoded) : (commitDecoded s d).walk = s.walk := rfl
@[simp] theorem commitDecoded_port (s : State) (d : Decoded) : (commitDecoded s d).port = s.port := rfl
@[simp] theorem commitDecoded_replies (s : State) (d : Decoded) : (commitDecoded s d).replies = s.replies := rfl
@[simp] theorem commitDecoded_delay (s : State) (d : Decoded) : (commitDecoded s d).delay = s.delay := rfl
@[simp] theorem commitDecoded_accepted (s : State) (d : Decoded) : (commitDecoded s d).accepted = s.accepted := rfl

/-! ### `resetInput` -/

@[simp] theorem resetInput_params (s : State) : (resetInput s).params = s.params := rfl
@[simp] theorem resetInput_phase (s : State) : (resetInput s).phase = .idle := rfl
@[simp] theorem resetInput_status (s : State) : (resetInput s).status = 0 := rfl
@[simp] theorem resetInput_inLen (s : State) : (resetInput s).inLen = 0 := rfl
@[simp] theorem resetInput_outLen (s : State) : (resetInput s).outLen = 0 := rfl
@[simp] theorem resetInput_msgHdr (s : State) : (resetInput s).msgHdr = 0 := rfl
@[simp] theorem resetInput_tokDesc (s : State) : (resetInput s).tokDesc = 0 := rfl
@[simp] theorem resetInput_payDesc (s : State) : (resetInput s).payDesc = 0 := rfl
@[simp] theorem resetInput_optCount (s : State) : (resetInput s).optCount = 0 := rfl
@[simp] theorem resetInput_packIn (s : State) : (resetInput s).packIn = 0 := rfl
@[simp] theorem resetInput_packOut (s : State) : (resetInput s).packOut = 0 := rfl
@[simp] theorem resetInput_unpackIn (s : State) : (resetInput s).unpackIn = 0 := rfl
@[simp] theorem resetInput_unpackOut (s : State) : (resetInput s).unpackOut = 0 := rfl
@[simp] theorem resetInput_opts (s : State) : (resetInput s).opts = List.replicate s.params.maxOptions.toNat { num := 0, off := 0, len := 0 } := rfl
@[simp] theorem resetInput_ibuf (s : State) : (resetInput s).ibuf = s.ibuf := rfl
@[simp] theorem resetInput_obuf (s : State) : (resetInput s).obuf = s.obuf := rfl
@[simp] theorem resetInput_walk (s : State) : (resetInput s).walk = Walk.idle := rfl
@[simp] theorem resetInput_port (s : State) : (resetInput s).port = s.port := rfl
@[simp] theorem resetInput_replies (s : State) : (resetInput s).replies = s.replies := rfl
@[simp] theorem resetInput_delay (s : State) : (resetInput s).delay = s.delay := rfl
@[simp] theorem resetInput_accepted (s : State) : (resetInput s).accepted = s.accepted := rfl

/-! ### `reply` -/

@[simp] theorem reply_params (s : State) (r : Reply) : (reply s r).params = s.params := rfl
@[simp] theorem reply_phase (s : State) (r : Reply) : (reply s r).phase = s.phase := rfl
@[simp] theorem reply_status (s : State) (r : Reply) : (reply s r).status = s.status := rfl
@[simp] theorem reply_inLen (s : State) (r : Reply) : (reply s r).inLen = s.inLen := rfl
@[simp] theorem reply_outLen (s : State) (r : Reply) : (reply s r).outLen = s.outLen := rfl
@[simp] theorem reply_msgHdr (s : State) (r : Reply) : (reply s r).msgHdr = s.msgHdr := rfl
@[simp] theorem reply_tokDesc (s : State) (r : Reply) : (reply s r).tokDesc = s.tokDesc := rfl
@[simp] theorem reply_payDesc (s : State) (r : Reply) : (reply s r).payDesc = s.payDesc := rfl
@[simp] theorem reply_optCount (s : State) (r : Reply) : (reply s r).optCount = s.optCount := rfl
@[simp] theorem reply_packIn (s : State) (r : Reply) : (reply s r).packIn = s.packIn := rfl
@[simp] theorem reply_packOut (s : State) (r : Reply) : (reply s r).packOut = s.packOut := rfl
@[simp] theorem reply_unpackIn (s : State) (r : Reply) : (reply s r).unpackIn = s.unpackIn := rfl
@[simp] theorem reply_unpackOut (s : State) (r : Reply) : (reply s r).unpackOut = s.unpackOut := rfl
@[simp] theorem reply_opts (s : State) (r : Reply) : (reply s r).opts = s.opts := rfl
@[simp] theorem reply_ibuf (s : State) (r : Reply) : (reply s r).ibuf = s.ibuf := rfl
@[simp] theorem reply_obuf (s : State) (r : Reply) : (reply s r).obuf = s.obuf := rfl
@[simp] theorem reply_walk (s : State) (r : Reply) : (reply s r).walk = s.walk := rfl
@[simp] theorem reply_port (s : State) (r : Reply) : (reply s r).port = s.port := rfl
@[simp] theorem reply_replies (s : State) (r : Reply) : (reply s r).replies = s.replies ++ [r] := rfl
@[simp] theorem reply_delay (s : State) (r : Reply) : (reply s r).delay = s.delay := rfl
@[simp] theorem reply_accepted (s : State) (r : Reply) : (reply s r).accepted = s.accepted := rfl

/-! ### The reset state and the working values -/

@[simp] theorem resetWith_params (p : Params) : (State.resetWith p).params = p := rfl
@[simp] theorem resetWith_phase (p : Params) : (State.resetWith p).phase = .idle := rfl
@[simp] theorem resetWith_status (p : Params) : (State.resetWith p).status = 0 := rfl
@[simp] theorem resetWith_walk (p : Params) : (State.resetWith p).walk = Walk.idle := rfl
@[simp] theorem resetWith_ibuf (p : Params) : (State.resetWith p).ibuf = [] := rfl
@[simp] theorem resetWith_obuf (p : Params) : (State.resetWith p).obuf = [] := rfl
@[simp] theorem resetWith_port (p : Params) : (State.resetWith p).port = [] := rfl
@[simp] theorem resetWith_delay (p : Params) : (State.resetWith p).delay = 0 := rfl

@[simp] theorem walk_idle_stage : Walk.idle.stage = .off := rfl
@[simp] theorem walk_start_stage : Walk.start.stage = .atByte0 := rfl

/-! ### `settle` -/

@[simp] theorem settle_fail (s : State) (e : ErrKind) : settle s (.fail e) = completeErr s e := rfl
@[simp] theorem settle_more (s : State) (w : Walk) : settle s (.more w) = { s with walk := w } := rfl
@[simp] theorem settle_done (s : State) (d : Decoded) : settle s (.done d) = completeOk (commitDecoded s d) := rfl

end Sys2Proof.Machine
end

