-- ==== Sys2Proof/Laws/Commands.lean ====
section
/-! SUPPORT. The commands, each with one lemma per outcome of its computation, and the STATUS values of the error kinds. A proof
about a command cites these and unfolds no meaning. -/

namespace Sys2Proof.Machine

/-! ### STATUS values (spec/60_exceptions.md R200) -/

theorem statusErr_invalidPacketLength : statusErr .invalidPacketLength = 0x00000026 := by decide
theorem statusErr_invalidTokenLength : statusErr .invalidTokenLength = 0x00000036 := by decide
theorem statusErr_invalidOptionDelta : statusErr .invalidOptionDelta = 0x00000046 := by decide
theorem statusErr_invalidOptionLength : statusErr .invalidOptionLength = 0x00000056 := by decide
theorem statusErr_optionsLimitExceeded : statusErr .optionsLimitExceeded = 0x00000076 := by decide
theorem statusErr_illegalCommand : statusErr .illegalCommand = 0x000000F6 := by decide

/-- No error kind gives the STATUS of a success. -/
theorem statusErr_ne_ok (e : ErrKind) : statusErr e ≠ 0x00000002 := by cases e <;> decide

/-- Every error kind gives a STATUS with DONE and ERR set and BUSY clear. -/
theorem statusErr_flags (e : ErrKind) :
    statusBUSY (statusErr e) = false ∧ statusDONE (statusErr e) = true ∧ statusERR (statusErr e) = true := by
  cases e <;> decide

/-! ### PACKF and UNPACKF -/

theorem execPackf_ok {s : State} {p : Packed} (h : pack (packInValue s.packIn) = .ok p) :
    execPackf s = .next (completeOk { s with packOut := packOutOf p }) := by simp only [execPackf, h]

theorem execPackf_raise {s : State} {e : ErrKind} (h : pack (packInValue s.packIn) = .raise e) :
    execPackf s = .next (completeErr s e) := by simp only [execPackf, h]

theorem execUnpackf_ok {s : State} {u : Unpacked}
    (h : unpack (unpackInSel s.unpackIn) (unpackInKind s.unpackIn) (unpackInBytes s.unpackIn) = .ok u) :
    execUnpackf s = .next (completeOk
      { s with unpackOut := packUnpackOut (BitVec.ofNat 17 u.value) (BitVec.ofNat 2 u.consumed) }) := by
  simp only [execUnpackf, h]

theorem execUnpackf_raise {s : State} {e : ErrKind}
    (h : unpack (unpackInSel s.unpackIn) (unpackInKind s.unpackIn) (unpackInBytes s.unpackIn) = .raise e) :
    execUnpackf s = .next (completeErr s e) := by simp only [execUnpackf, h]

/-! ### CONSTRUCT -/

theorem execConstruct_ok {s : State} (h : countField s.optCount ≤ s.maxOpts) :
    execConstruct s = .next (completeOk
      { s with opts := stableSortByNum s.liveOpts ++ s.opts.drop (countField s.optCount) }) := by
  rw [execConstruct, if_neg (Nat.not_lt.mpr h)]

theorem execConstruct_raise {s : State} (h : s.maxOpts < countField s.optCount) :
    execConstruct s = .next (completeErr s .optionsLimitExceeded) := by rw [execConstruct, if_pos h]

/-! ### ENCODE -/

theorem execEncode_ok {s : State} {out : List Byte} (h : encodeMessage s = .ok out) :
    execEncode s = .next (completeOk
      { s with obuf := Memory.writeSeq s.obuf 0 out, outLen := BitVec.ofNat 32 out.length }) := by
  simp only [execEncode, h]

theorem execEncode_raise {s : State} {e : ErrKind} (h : encodeMessage s = .raise e) :
    execEncode s = .next (completeErr s e) := by simp only [execEncode, h]

/-- What ENCODE can answer, in the order of its checks (spec/42_encode.md R176, R177). -/
theorem encodeMessage_cases (s : State) :
    (∃ e, checkMessage s = .raise e ∧ encodeMessage s = .raise e) ∨
    (checkMessage s = .ok () ∧ ∃ e, encodeOptions s 0 s.liveOpts = .raise e ∧ encodeMessage s = .raise e) ∨
    (checkMessage s = .ok () ∧ ∃ body, encodeOptions s 0 s.liveOpts = .ok body ∧
      ((s.maxPacket < (encodeHeader s ++ body ++ encodePayload s).length ∧
          encodeMessage s = .raise .invalidPacketLength) ∨
       ((encodeHeader s ++ body ++ encodePayload s).length ≤ s.maxPacket ∧
          encodeMessage s = .ok (encodeHeader s ++ body ++ encodePayload s)))) := by
  rcases hc : checkMessage s with u | e
  · cases u
    right
    rcases hb : encodeOptions s 0 s.liveOpts with body | e
    · right
      refine ⟨rfl, body, rfl, ?_⟩
      by_cases hs : s.maxPacket < (encodeHeader s ++ body ++ encodePayload s).length
      · exact .inl ⟨hs, by simp only [encodeMessage, hc, hb, if_pos hs]⟩
      · exact .inr ⟨Nat.not_lt.mp hs, by simp only [encodeMessage, hc, hb, if_neg hs]⟩
    · exact .inl ⟨rfl, e, rfl, by simp only [encodeMessage, hc, hb]⟩
  · exact .inl ⟨e, rfl, by simp only [encodeMessage, hc]⟩

/-- What CheckMessage can answer, in the order of its checks (spec/42_encode.md R172). -/
theorem checkMessage_cases (s : State) :
    (s.maxOpts < countField s.optCount ∧ checkMessage s = .raise .optionsLimitExceeded) ∨
    (countField s.optCount ≤ s.maxOpts ∧ 8 < (hdrTkl s.msgHdr).toNat ∧ checkMessage s = .raise .invalidTokenLength) ∨
    (countField s.optCount ≤ s.maxOpts ∧ (hdrTkl s.msgHdr).toNat ≤ 8 ∧
      ¬ inRange s.ibufSize (lowHalf s.tokDesc) (hdrTkl s.msgHdr).toNat ∧
      checkMessage s = .raise .invalidPacketLength) ∨
    (countField s.optCount ≤ s.maxOpts ∧ (hdrTkl s.msgHdr).toNat ≤ 8 ∧
      inRange s.ibufSize (lowHalf s.tokDesc) (hdrTkl s.msgHdr).toNat ∧
      ((∃ e, checkEntries s.ibufSize 0 s.liveOpts = .raise e ∧ checkMessage s = .raise e) ∨
       (checkEntries s.ibufSize 0 s.liveOpts = .ok () ∧
        ((hdrCode s.msgHdr ≠ 0 ∧ ¬ inRange s.ibufSize (lowHalf s.payDesc) (highHalf s.payDesc) ∧
            checkMessage s = .raise .invalidPacketLength) ∨
         ((hdrCode s.msgHdr ≠ 0 → inRange s.ibufSize (lowHalf s.payDesc) (highHalf s.payDesc)) ∧
            checkMessage s = .ok ()))))) := by
  have hcode : (payloadCounts s = true) ↔ hdrCode s.msgHdr ≠ 0 := by
    simp [payloadCounts, isEmptyCode]
  by_cases h1 : s.maxOpts < countField s.optCount
  · exact .inl ⟨h1, by simp only [checkMessage, if_pos h1]⟩
  right
  by_cases h2 : 8 < (hdrTkl s.msgHdr).toNat
  · exact .inl ⟨by omega, h2, by simp only [checkMessage, if_neg h1, if_pos h2]⟩
  right
  by_cases h3 : ¬ inRange s.ibufSize (lowHalf s.tokDesc) (hdrTkl s.msgHdr).toNat
  · exact .inl ⟨by omega, by omega, h3, by simp only [checkMessage, if_neg h1, if_neg h2, if_pos h3]⟩
  right
  refine ⟨by omega, by omega, Decidable.not_not.mp h3, ?_⟩
  rcases h4 : checkEntries s.ibufSize 0 s.liveOpts with u | e
  · cases u
    right
    refine ⟨rfl, ?_⟩
    by_cases h5 : payloadCounts s = true ∧ ¬ inRange s.ibufSize (lowHalf s.payDesc) (highHalf s.payDesc)
    · exact .inl ⟨hcode.mp h5.1, h5.2, by simp only [checkMessage, if_neg h1, if_neg h2, if_neg h3, h4, if_pos h5]⟩
    · refine .inr ⟨fun hc => ?_, by simp only [checkMessage, if_neg h1, if_neg h2, if_neg h3, h4, if_neg h5]⟩
      exact Decidable.byContradiction fun hn => h5 ⟨hcode.mpr hc, hn⟩
  · exact .inl ⟨e, rfl, by simp only [checkMessage, if_neg h1, if_neg h2, if_neg h3, h4]⟩

/-- The entry checks raise InvalidOptionDelta or InvalidPacketLength and nothing else. -/
theorem checkEntries_raise {size : Nat} : ∀ {es : List OptEntry} {prev : Nat} {e : ErrKind},
    checkEntries size prev es = .raise e → e = .invalidOptionDelta ∨ e = .invalidPacketLength := by
  intro es
  induction es with
  | nil => intro prev e h; cases h
  | cons x es ih =>
    intro prev e h
    rw [checkEntries] at h
    split at h
    · injection h with h; exact .inl h.symm
    · split at h
      · injection h with h; exact .inr h.symm
      · exact ih h

/-- The packer never fails on the fields of option entries (spec/42_encode.md R178). -/
theorem encodeOptions_ok (s : State) : ∀ (es : List OptEntry) (prev : Nat), ∃ body, encodeOptions s prev es = .ok body := by
  intro es
  induction es with
  | nil => intro prev; exact ⟨_, rfl⟩
  | cons e es ih =>
    intro prev
    obtain ⟨d, hd⟩ := pack_ok (v := e.num.toNat - prev) (by have := e.num.isLt; omega)
    obtain ⟨l, hl⟩ := pack_ok (v := e.len.toNat) (by have := e.len.isLt; omega)
    obtain ⟨rest, hr⟩ := ih e.num.toNat
    exact ⟨_, by rw [encodeOptions, hd]; simp only [hl, hr]; rfl⟩

/-- The error kinds of ENCODE (spec/60_exceptions.md R205). -/
theorem encodeMessage_raise {s : State} {e : ErrKind} (h : encodeMessage s = .raise e) :
    e = .optionsLimitExceeded ∨ e = .invalidTokenLength ∨ e = .invalidPacketLength ∨ e = .invalidOptionDelta := by
  rcases encodeMessage_cases s with ⟨e', hc, h'⟩ | ⟨-, e', hb, h'⟩ | ⟨-, body, -, ⟨-, h'⟩ | ⟨-, h'⟩⟩ <;>
    rw [h] at h' <;> first | (injection h' with h'; subst h') | cases h'
  · rcases checkMessage_cases s with ⟨-, h'⟩ | ⟨-, -, h'⟩ | ⟨-, -, -, h'⟩ |
        ⟨-, -, -, ⟨e', hce, h'⟩ | ⟨-, ⟨-, -, h'⟩ | ⟨-, h'⟩⟩⟩ <;> rw [hc] at h' <;>
      first | (injection h' with h'; subst h') | cases h'
    · exact .inl rfl
    · exact .inr (.inl rfl)
    · exact .inr (.inr (.inl rfl))
    · rcases checkEntries_raise hce with rfl | rfl
      · exact .inr (.inr (.inr rfl))
      · exact .inr (.inr (.inl rfl))
    · exact .inr (.inr (.inl rfl))
  · obtain ⟨body, hb'⟩ := encodeOptions_ok s s.liveOpts 0
    rw [hb] at hb'; cases hb'
  · exact .inr (.inr (.inl rfl))

end Sys2Proof.Machine
end

