-- ==== Sys2Proof/Laws/Memory.lean ====
section
/-! SUPPORT. The byte memories: a write keeps the canonical form and the size, and reading after a write gives the byte written
there and leaves every other address alone. -/

namespace Sys2Proof.Machine

@[simp] theorem lookup_nil (a : Nat) : Memory.lookup [] a = none := rfl

@[simp] theorem lookup_cons (c : Host.Cell) (m : Memory) (a : Nat) :
    Memory.lookup (c :: m) a = if c.1 = a then some c.2 else Memory.lookup m a := rfl

/-- The first address of a written memory is the written one or the old first one. -/
theorem wf_cons_write {c : Host.Cell} {m : Memory} {a : Nat} {b : Byte} (hc : c.1 < a)
    (hm : Memory.wf (c :: m) = true) (hw : Memory.wf (Memory.write m a b) = true) :
    Memory.wf (c :: Memory.write m a b) = true := by
  cases m with
  | nil => simp [Memory.write, Memory.wf, hc]
  | cons d m =>
    have hcd : c.1 < d.1 := by
      simp only [Memory.wf, Bool.and_eq_true, decide_eq_true_eq] at hm; exact hm.1
    simp only [Memory.write] at hw ⊢
    split
    · next h => simp only [Memory.wf, if_pos h, Bool.and_eq_true, decide_eq_true_eq] at hw ⊢; exact ⟨hc, hw⟩
    · next h =>
      split
      · next h' => simp only [Memory.wf, if_neg h, if_pos h', Bool.and_eq_true, decide_eq_true_eq] at hw ⊢; exact ⟨hc, hw⟩
      · next h' => simp only [Memory.wf, if_neg h, if_neg h', Bool.and_eq_true, decide_eq_true_eq] at hw ⊢; exact ⟨hcd, hw⟩

/-- A tail of a canonical memory is canonical. -/
theorem wf_tail {c : Host.Cell} {m : Memory} (h : Memory.wf (c :: m) = true) : Memory.wf m = true := by
  cases m with
  | nil => rfl
  | cons d m => simp only [Memory.wf, Bool.and_eq_true] at h; exact h.2

/-- A byte replaced at the head keeps the canonical form. -/
theorem wf_replace {c : Host.Cell} {m : Memory} {b : Byte} (h : Memory.wf (c :: m) = true) :
    Memory.wf ((c.1, b) :: m) = true := by
  cases m with
  | nil => rfl
  | cons d m => simpa [Memory.wf] using h

/-- A write keeps the canonical form. -/
theorem write_keeps_wf {m : Memory} (a : Nat) (b : Byte) (h : Memory.wf m = true) :
    Memory.wf (Memory.write m a b) = true := by
  induction m with
  | nil => rfl
  | cons c m ih =>
    simp only [Memory.write]
    split
    · next hlt => simp [Memory.wf, hlt, h]
    · next hge =>
      split
      · next heq => subst heq; exact wf_replace h
      · next hne => exact wf_cons_write (by omega) h (ih (wf_tail h))

/-- A write below the size keeps every listed address below it. -/
theorem write_keeps_below {m : Memory} {size : Nat} {a : Nat} (b : Byte) (ha : a < size)
    (h : Memory.below size m = true) : Memory.below size (Memory.write m a b) = true := by
  induction m with
  | nil => simpa [Memory.below, Memory.write] using ha
  | cons c m ih =>
    have hc : c.1 < size ∧ Memory.below size m = true := by simpa [Memory.below] using h
    simp only [Memory.write]
    split
    · simpa [Memory.below] using And.intro ha (by simpa [Memory.below] using hc)
    · split
      · simpa [Memory.below] using And.intro ha (by simpa [Memory.below] using hc.2)
      · simpa [Memory.below] using And.intro hc.1 (by simpa [Memory.below] using ih hc.2)

/-- Writing a sequence keeps the canonical form. -/
theorem writeSeq_keeps_wf {m : Memory} (a : Nat) (bs : List Byte) (h : Memory.wf m = true) :
    Memory.wf (Memory.writeSeq m a bs) = true := by
  induction bs generalizing m a with
  | nil => exact h
  | cons b bs ih => exact ih (a + 1) (write_keeps_wf a b h)

/-- Writing a sequence that ends within the size keeps every listed address below it. -/
theorem writeSeq_keeps_below {m : Memory} {size : Nat} {a : Nat} {bs : List Byte} (ha : a + bs.length ≤ size)
    (h : Memory.below size m = true) : Memory.below size (Memory.writeSeq m a bs) = true := by
  induction bs generalizing m a with
  | nil => exact h
  | cons b bs ih =>
    simp only [List.length_cons] at ha
    exact ih (by omega) (write_keeps_below b (by omega) h)

/-- Reading the address just written gives the byte written. -/
@[simp] theorem lookup_write_same (m : Memory) (a : Nat) (b : Byte) :
    Memory.lookup (Memory.write m a b) a = some b := by
  induction m with
  | nil => simp [Memory.write]
  | cons c m ih =>
    simp only [Memory.write]
    split
    · simp
    · next hge =>
      split
      · next heq => simp
      · next hne => simp [show c.1 ≠ a from fun h => hne h.symm, ih]

/-- A write leaves every other address alone. -/
theorem lookup_write_other (m : Memory) {a a' : Nat} (b : Byte) (h : a' ≠ a) :
    Memory.lookup (Memory.write m a b) a' = Memory.lookup m a' := by
  induction m with
  | nil => simp [Memory.write, Ne.symm h]
  | cons c m ih =>
    simp only [Memory.write]
    split
    · simp [Ne.symm h]
    · split
      · next heq => subst heq; simp [Ne.symm h]
      · simp [ih]

/-- Reading after a sequence was written. -/
theorem lookup_writeSeq (m : Memory) (a : Nat) (bs : List Byte) (a' : Nat) :
    Memory.lookup (Memory.writeSeq m a bs) a' =
      if h : a ≤ a' ∧ a' < a + bs.length then some (bs[a' - a]'(by omega)) else Memory.lookup m a' := by
  induction bs generalizing m a with
  | nil => simp [Memory.writeSeq]
  | cons b bs ih =>
    simp only [Memory.writeSeq, ih, List.length_cons]
    by_cases h : a' = a
    · subst h; simp
    · by_cases h2 : a + 1 ≤ a' ∧ a' < a + 1 + bs.length
      · have h3 : a ≤ a' ∧ a' < a + (bs.length + 1) := by omega
        rw [dif_pos h2, dif_pos h3]
        have : a' - a = (a' - (a + 1)) + 1 := by omega
        simp [this]
      · have h3 : ¬ (a ≤ a' ∧ a' < a + (bs.length + 1)) := by omega
        rw [dif_neg h2, dif_neg h3, lookup_write_other _ _ h]

/-- A buffer byte outside the buffer reads 0 (spec/20_memory.md R63). -/
theorem byteAt_outside {space : Space} {size : Nat} {m : Memory} {a : Nat} (h : size ≤ a) :
    Memory.byteAt space size m a = 0 := by simp [Memory.byteAt, Nat.not_lt.mpr h]

/-- Reading a buffer after one byte of it was written. -/
theorem byteAt_write {space : Space} {size : Nat} {m : Memory} {a a' : Nat} {b : Byte} (ha : a < size) :
    Memory.byteAt space size (Memory.write m a b) a' =
      if a' = a then b else Memory.byteAt space size m a' := by
  by_cases h : a' = a
  · subst h; simp [Memory.byteAt, ha]
  · simp [Memory.byteAt, h, lookup_write_other _ _ h]

/-- Reading a buffer after a sequence within it was written. -/
theorem byteAt_writeSeq {space : Space} {size : Nat} {m : Memory} {a : Nat} {bs : List Byte} (a' : Nat)
    (ha : a + bs.length ≤ size) :
    Memory.byteAt space size (Memory.writeSeq m a bs) a' =
      if h : a ≤ a' ∧ a' < a + bs.length then bs[a' - a]'(by omega) else Memory.byteAt space size m a' := by
  by_cases h : a ≤ a' ∧ a' < a + bs.length
  · rw [dif_pos h]; simp [Memory.byteAt, lookup_writeSeq, h, show a' < size by omega]
  · rw [dif_neg h]; simp [Memory.byteAt, lookup_writeSeq, h]

/-! ### Byte sequences -/

@[simp] theorem ibufSeq_zero (s : State) (off : Nat) : s.ibufSeq off 0 = [] := rfl

theorem ibufSeq_succ (s : State) (off n : Nat) :
    s.ibufSeq off (n + 1) = s.ibufAt off :: s.ibufSeq (off + 1) n := rfl

@[simp] theorem ibufSeq_length (s : State) (off n : Nat) : (s.ibufSeq off n).length = n := by
  induction n generalizing off with
  | zero => rfl
  | succ n ih => simp [ibufSeq_succ, ih]

theorem ibufSeq_getElem (s : State) (off n i : Nat) (h : i < (s.ibufSeq off n).length) :
    (s.ibufSeq off n)[i] = s.ibufAt (off + i) := by
  induction n generalizing off i with
  | zero => simp at h
  | succ n ih =>
    cases i with
    | zero => rfl
    | succ i =>
      simp only [ibufSeq_succ, List.getElem_cons_succ]
      rw [ih (off + 1) i (by simpa [ibufSeq_succ] using h)]
      congr 1; omega

theorem ibufSeq_append (s : State) (off m n : Nat) :
    s.ibufSeq off (m + n) = s.ibufSeq off m ++ s.ibufSeq (off + m) n := by
  induction m generalizing off with
  | zero => simp
  | succ m ih =>
    rw [show m + 1 + n = (m + n) + 1 by omega, ibufSeq_succ, ibufSeq_succ, ih (off + 1)]
    simp [show off + 1 + m = off + (m + 1) by omega]

@[simp] theorem obufSeq_zero (s : State) (off : Nat) : s.obufSeq off 0 = [] := rfl

theorem obufSeq_succ (s : State) (off n : Nat) :
    s.obufSeq off (n + 1) = s.obufAt off :: s.obufSeq (off + 1) n := rfl

@[simp] theorem obufSeq_length (s : State) (off n : Nat) : (s.obufSeq off n).length = n := by
  induction n generalizing off with
  | zero => rfl
  | succ n ih => simp [obufSeq_succ, ih]

theorem obufSeq_getElem (s : State) (off n i : Nat) (h : i < (s.obufSeq off n).length) :
    (s.obufSeq off n)[i] = s.obufAt (off + i) := by
  induction n generalizing off i with
  | zero => simp at h
  | succ n ih =>
    cases i with
    | zero => rfl
    | succ i =>
      simp only [obufSeq_succ, List.getElem_cons_succ]
      rw [ih (off + 1) i (by simpa [obufSeq_succ] using h)]
      congr 1; omega

end Sys2Proof.Machine
end

