-- ==== Sys2Proof/Laws/Decoder.lean ====
section
/-! SUPPORT. DECODE part by part: one lemma for each part that says everything it can answer, and the loop's invariant and
termination (spec/41_decode.md R124 to R136). -/

namespace Sys2Proof.Machine

/-- What DecodeHeader can answer. -/
theorem decodeHeader_cases (s : State) (ver typ : BitVec 2) (tkl : Nibble) :
    ((s.ibufSize < inputLen s ∨ inputLen s < 4) ∧ decodeHeader s ver typ tkl = .fail .invalidPacketLength) ∨
    (inputLen s ≤ s.ibufSize ∧ 4 ≤ inputLen s ∧ (8 < tkl.toNat ∨ inputLen s < 4 + tkl.toNat) ∧
      decodeHeader s ver typ tkl = .fail .invalidTokenLength) ∨
    (inputLen s ≤ s.ibufSize ∧ 4 + tkl.toNat ≤ inputLen s ∧ tkl.toNat ≤ 8 ∧
      decodeHeader s ver typ tkl = .more
        { stage := .atHeader, hdr := packMsgHdr (s.ibufAt 2 ++ s.ibufAt 3) (s.ibufAt 1) ver typ tkl
          cur := 4 + tkl.toNat, acc := 0, opts := [] }) := by
  unfold decodeHeader
  by_cases h1 : s.ibufSize < inputLen s
  · left; simp [h1]
  by_cases h2 : inputLen s < 4
  · left; simp [h1, h2]
  by_cases h3 : 8 < tkl.toNat
  · right; left; simp [h1, h2, h3]; omega
  by_cases h4 : inputLen s < 4 + tkl.toNat
  · right; left; simp [h1, h2, h3, h4]; omega
  · right; right; simp [h1, h2, h3, h4]; omega

/-- What DecodeOption can answer, in the order of its checks. -/
theorem decodeOption_cases (s : State) (w : Walk) (dsel lsel : Nibble) :
    (∃ e, unpack dsel .delta (availAt s (w.cur + 1)) = .raise e ∧ decodeOption s w dsel lsel = .fail e) ∨
    (∃ d, unpack dsel .delta (availAt s (w.cur + 1)) = .ok d ∧
      ((∃ e, unpack lsel .length (availAt s (w.cur + 1 + d.consumed)) = .raise e ∧
          decodeOption s w dsel lsel = .fail e) ∨
       (∃ l, unpack lsel .length (availAt s (w.cur + 1 + d.consumed)) = .ok l ∧
        ((65535 < w.acc + d.value ∧ decodeOption s w dsel lsel = .fail .invalidOptionDelta) ∨
         (w.acc + d.value ≤ 65535 ∧ inputLen s < w.cur + 1 + d.consumed + l.consumed + l.value ∧
            decodeOption s w dsel lsel = .fail .invalidOptionLength) ∨
         (w.acc + d.value ≤ 65535 ∧ w.cur + 1 + d.consumed + l.consumed + l.value ≤ inputLen s ∧
            w.opts.length = s.maxOpts ∧ decodeOption s w dsel lsel = .fail .optionsLimitExceeded) ∨
         (w.acc + d.value ≤ 65535 ∧ w.cur + 1 + d.consumed + l.consumed + l.value ≤ inputLen s ∧
            w.opts.length ≠ s.maxOpts ∧
            decodeOption s w dsel lsel = .more
              { stage := .atHeader, hdr := w.hdr
                cur := w.cur + 1 + d.consumed + l.consumed + l.value
                acc := w.acc + d.value
                opts := w.opts ++
                  [{ num := BitVec.ofNat 16 (w.acc + d.value)
                     off := BitVec.ofNat 16 (w.cur + 1 + d.consumed + l.consumed)
                     len := BitVec.ofNat 16 l.value }] }))))) := by
  unfold decodeOption
  rcases hd : unpack dsel .delta (availAt s (w.cur + 1)) with d | e
  · right
    refine ⟨d, rfl, ?_⟩
    rcases hl : unpack lsel .length (availAt s (w.cur + 1 + d.consumed)) with l | e
    · right
      refine ⟨l, rfl, ?_⟩
      by_cases h1 : 65535 < w.acc + d.value
      · left; simp [hl, h1]
      · right
        by_cases h2 : inputLen s < w.cur + 1 + d.consumed + l.consumed + l.value
        · left; simp [hl, h1, h2]; omega
        · right
          by_cases h3 : w.opts.length = s.maxOpts
          · left; simp [hl, h1, h2, h3]; omega
          · right; simp [hl, h1, h2, h3]; omega
    · left; exact ⟨e, rfl, by simp [hl]⟩
  · left; exact ⟨e, rfl, rfl⟩

/-- DecodeOption never completes a message by itself. -/
theorem decodeOption_not_done {s : State} {w : Walk} {dsel lsel : Nibble} {m : Decoded} :
    decodeOption s w dsel lsel ≠ .done m := by
  intro h
  rcases decodeOption_cases s w dsel lsel with ⟨e, -, h'⟩ | ⟨d, -, ⟨e, -, h'⟩ | ⟨l, -, h'⟩⟩
  · rw [h] at h'; cases h'
  · rw [h] at h'; cases h'
  · rcases h' with ⟨-, h'⟩ | ⟨-, -, h'⟩ | ⟨-, -, -, h'⟩ | ⟨-, -, -, h'⟩ <;> rw [h] at h' <;> cases h'

/-- The bytes available at a cursor number at most what is left of the input. -/
theorem availAt_length (s : State) (cur : Nat) : (availAt s cur).length = min 2 (inputLen s - cur) := by
  rw [availAt, ibufSeq_length]

theorem inputLen_lt (s : State) : inputLen s < 65536 := lowHalf_lt s.inLen

/-- DecodeOption, when DECODE goes on: the resolved fields and the new working values, without a bit vector. -/
theorem decodeOption_more {s : State} {w w' : Walk} {dsel lsel : Nibble} (h : decodeOption s w dsel lsel = .more w') :
    ∃ (d l : Unpacked) (e : OptEntry),
      unpack dsel .delta (availAt s (w.cur + 1)) = .ok d ∧
      unpack lsel .length (availAt s (w.cur + 1 + d.consumed)) = .ok l ∧
      w.acc + d.value ≤ 65535 ∧ w.cur + 1 + d.consumed + l.consumed + l.value ≤ inputLen s ∧
      w.opts.length ≠ s.maxOpts ∧
      w' = { stage := .atHeader, hdr := w.hdr, cur := w.cur + 1 + d.consumed + l.consumed + l.value
             acc := w.acc + d.value, opts := w.opts ++ [e] } ∧
      e.num.toNat = w.acc + d.value ∧ e.off.toNat = w.cur + 1 + d.consumed + l.consumed ∧ e.len.toNat = l.value := by
  rcases decodeOption_cases s w dsel lsel with ⟨e, -, h'⟩ | ⟨d, hd, ⟨e, -, h'⟩ | ⟨l, hl, h'⟩⟩
  · rw [h] at h'; cases h'
  · rw [h] at h'; cases h'
  · rcases h' with ⟨-, h'⟩ | ⟨-, -, h'⟩ | ⟨-, -, -, h'⟩ | ⟨h1, h2, h3, h'⟩ <;> rw [h] at h' <;>
      first | cases h'; done | skip
    injection h' with h'
    have hn := inputLen_lt s
    refine ⟨d, l, _, hd, hl, h1, h2, h3, h', ?_, ?_, ?_⟩ <;> simp only [BitVec.toNat_ofNat] <;>
      exact Nat.mod_eq_of_lt (by omega)

/-- One more option moves the cursor forward, within the input, keeps the number in 16 bits and the options within the
capacity (R126, R136). -/
theorem decodeOption_more_bounds {s : State} {w w' : Walk} {dsel lsel : Nibble}
    (h : decodeOption s w dsel lsel = .more w') :
    w'.stage = .atHeader ∧ w'.hdr = w.hdr ∧ w.cur < w'.cur ∧ w'.cur ≤ inputLen s ∧ w.acc ≤ w'.acc ∧ w'.acc ≤ 65535 ∧
      w'.opts.length = w.opts.length + 1 ∧ w.opts.length ≠ s.maxOpts := by
  obtain ⟨d, l, e, -, -, h1, h2, h3, rfl, -, -, -⟩ := decodeOption_more h
  simp; omega

/-- The facts that hold of DECODE's working values at every option header position. -/
def WalkOk (s : State) (w : Walk) : Prop :=
  w.stage = .atHeader ∧ 4 ≤ w.cur ∧ w.cur ≤ inputLen s ∧ inputLen s ≤ s.ibufSize ∧ w.acc ≤ 65535 ∧
    w.opts.length ≤ s.maxOpts ∧ (∀ e ∈ w.opts, e.num.toNat ≤ w.acc ∧ e.off.toNat + e.len.toNat ≤ w.cur) ∧
    w.opts.Pairwise fun a b => a.num.toNat ≤ b.num.toNat

/-- DecodeHeader establishes them. -/
theorem decodeHeader_walkOk {s : State} {ver typ : BitVec 2} {tkl : Nibble} {w : Walk}
    (h : decodeHeader s ver typ tkl = .more w) : WalkOk s w := by
  rcases decodeHeader_cases s ver typ tkl with ⟨-, h'⟩ | ⟨-, -, -, h'⟩ | ⟨h1, h2, -, h'⟩ <;> rw [h] at h' <;>
    first | cases h'; done | skip
  injection h' with h'
  subst h'
  exact ⟨rfl, by simp, h2, h1, by simp, by simp, by simp, by simp⟩

/-- DecodeOption keeps them. -/
theorem decodeOption_walkOk {s : State} {w w' : Walk} {dsel lsel : Nibble} (hw : WalkOk s w)
    (h : decodeOption s w dsel lsel = .more w') : WalkOk s w' := by
  obtain ⟨-, h4, -, hn, -, hlen, hall, hsorted⟩ := hw
  obtain ⟨d, l, e, -, -, h1, h2, h3, rfl, hnum, hoff, hl⟩ := decodeOption_more h
  refine ⟨rfl, by simp; omega, h2, hn, h1, by simp; omega, ?_, ?_⟩
  · intro x hx
    rcases List.mem_append.mp hx with hx | hx
    · have := hall x hx; simp; omega
    · rw [List.mem_singleton.mp hx]; simp; omega
  · refine List.pairwise_append.mpr ⟨hsorted, by simp, ?_⟩
    intro a ha b hb
    rw [List.mem_singleton.mp hb, hnum]
    exact Nat.le_trans (hall a ha).1 (Nat.le_add_right _ _)

/-- The end of the options answers a message with the working values' header and options. -/
theorem decodeMarker_done (s : State) (w : Walk) :
    ∃ off len, decodeMarker s w = .done { hdr := w.hdr, opts := w.opts, payOff := off, payLen := len } ∧
      (w.cur + 1 < inputLen s ∧ off = w.cur + 1 ∧ len = inputLen s - w.cur - 1 ∨
       inputLen s ≤ w.cur + 1 ∧ off = inputLen s ∧ len = 0) := by
  unfold decodeMarker
  split
  · exact ⟨_, _, rfl, .inl ⟨‹_›, rfl, rfl⟩⟩
  · exact ⟨_, _, rfl, .inr ⟨by omega, rfl, rfl⟩⟩

/-- An induction over the loop: a property of working values that every iteration keeps holds where the loop ends, at the
end of the input or at a marker. -/
theorem decodeLoop_done {s : State} {P : Walk → Prop}
    (hstep : ∀ w w', P w → s.ibufAt w.cur ≠ 0xFF → w.cur < inputLen s →
      decodeOption s w (highNibble (s.ibufAt w.cur)) (lowNibble (s.ibufAt w.cur)) = .more w' → P w') :
    ∀ {fuel : Nat} {w : Walk} {d : Decoded}, P w → decodeLoop s fuel w = .done d →
      ∃ w', P w' ∧ (inputLen s ≤ w'.cur ∧ decodeEnd s w' = .done d ∨
        w'.cur < inputLen s ∧ s.ibufAt w'.cur = 0xFF ∧ decodeMarker s w' = .done d) := by
  intro fuel
  induction fuel with
  | zero => intro w d _ h; cases h
  | succ fuel ih =>
    intro w d hw h
    rw [decodeLoop] at h
    split at h
    · exact ⟨w, hw, .inl ⟨‹_›, h⟩⟩
    · split at h
      · exact ⟨w, hw, .inr ⟨by omega, ‹_›, h⟩⟩
      · split at h
        · next w' heq => exact ih (hstep w w' hw ‹_› (by omega) heq) h
        · next h' => exact absurd h decodeOption_not_done

/-- With enough fuel the loop does not run out of it (R136). -/
theorem decodeLoop_not_more {s : State} :
    ∀ {fuel : Nat} {w w' : Walk}, inputLen s - w.cur < fuel → decodeLoop s fuel w ≠ .more w' := by
  intro fuel
  induction fuel with
  | zero => intro w w' h; omega
  | succ fuel ih =>
    intro w w' h hloop
    rw [decodeLoop] at hloop
    split at hloop
    · cases hloop
    · split at hloop
      · obtain ⟨off, len, hm, -⟩ := decodeMarker_done s w
        rw [hm] at hloop; cases hloop
      · split at hloop
        · next w1 heq =>
          have := decodeOption_more_bounds heq
          exact ih (by omega) hloop
        · next h1 => exact h1 w' hloop

/-- DECODE never stops half way (R136): it fails or has read a whole message. -/
theorem decodeMessage_not_more (s : State) (w : Walk) : decodeMessage s ≠ .more w := by
  intro h
  rw [decodeMessage] at h
  split at h
  · next w1 heq => exact decodeLoop_not_more (by omega) h
  · next h1 => exact h1 w h

/-- A DECODE that succeeds: the header form and where the options end. -/
theorem decodeMessage_done {s : State} {d : Decoded} {P : Walk → Prop} (h : decodeMessage s = .done d)
    (hhead : ∀ w, decodeHeader s (byte0Ver (s.ibufAt 0)) (byte0Typ (s.ibufAt 0)) (byte0Tkl (s.ibufAt 0)) = .more w → P w)
    (hstep : ∀ w w', P w → s.ibufAt w.cur ≠ 0xFF → w.cur < inputLen s →
      decodeOption s w (highNibble (s.ibufAt w.cur)) (lowNibble (s.ibufAt w.cur)) = .more w' → P w') :
    ∃ w', P w' ∧ (inputLen s ≤ w'.cur ∧ decodeEnd s w' = .done d ∨
      w'.cur < inputLen s ∧ s.ibufAt w'.cur = 0xFF ∧ decodeMarker s w' = .done d) := by
  rw [decodeMessage] at h
  split at h
  · next w1 heq => exact decodeLoop_done hstep (hhead w1 heq) h
  · next h1 =>
    rcases decodeHeader_cases s (byte0Ver (s.ibufAt 0)) (byte0Typ (s.ibufAt 0)) (byte0Tkl (s.ibufAt 0)) with
      ⟨-, h'⟩ | ⟨-, -, -, h'⟩ | ⟨-, -, -, h'⟩ <;> rw [h'] at h <;> cases h

/-- The error kinds of DecodeOption. -/
theorem decodeOption_fail {s : State} {w : Walk} {dsel lsel : Nibble} {e : ErrKind}
    (h : decodeOption s w dsel lsel = .fail e) :
    e = .invalidOptionDelta ∨ e = .invalidOptionLength ∨ e = .optionsLimitExceeded := by
  rcases decodeOption_cases s w dsel lsel with ⟨e', hu, h'⟩ | ⟨d, -, ⟨e', hu, h'⟩ | ⟨l, -, h'⟩⟩
  · rw [h] at h'; injection h' with h'; subst h'
    rcases unpack_raise_cases hu with ⟨he, -, -⟩ | he <;> simp [he]
  · rw [h] at h'; injection h' with h'; subst h'
    rcases unpack_raise_cases hu with ⟨he, -, -⟩ | he <;> simp [he]
  · rcases h' with ⟨-, h'⟩ | ⟨-, -, h'⟩ | ⟨-, -, -, h'⟩ | ⟨-, -, -, h'⟩ <;> rw [h] at h' <;>
      first | (injection h' with h'; simp [h']) | cases h'

/-- The error kinds of the loop. -/
theorem decodeLoop_fail {s : State} :
    ∀ {fuel : Nat} {w : Walk} {e : ErrKind}, decodeLoop s fuel w = .fail e →
      e = .invalidOptionDelta ∨ e = .invalidOptionLength ∨ e = .optionsLimitExceeded := by
  intro fuel
  induction fuel with
  | zero => intro w e h; cases h
  | succ fuel ih =>
    intro w e h
    rw [decodeLoop] at h
    split at h
    · cases h
    · split at h
      · obtain ⟨off, len, hm, -⟩ := decodeMarker_done s w
        rw [hm] at h; cases h
      · split at h
        · exact ih h
        · exact decodeOption_fail h

/-- The error kinds of DECODE (spec/60_exceptions.md R205). -/
theorem decodeMessage_fail {s : State} {e : ErrKind} (h : decodeMessage s = .fail e) :
    e = .invalidPacketLength ∨ e = .invalidTokenLength ∨ e = .invalidOptionDelta ∨ e = .invalidOptionLength ∨
      e = .optionsLimitExceeded := by
  rw [decodeMessage] at h
  split at h
  · rcases decodeLoop_fail h with h | h | h <;> simp [h]
  · rcases decodeHeader_cases s (byte0Ver (s.ibufAt 0)) (byte0Typ (s.ibufAt 0)) (byte0Tkl (s.ibufAt 0)) with
      ⟨-, h'⟩ | ⟨-, -, -, h'⟩ | ⟨-, -, -, h'⟩ <;> rw [h'] at h <;>
      first | (injection h with h; simp [← h]) | cases h

/-- What DECODE does to the state: it fails, or it commits a whole message. -/
theorem execDecode_cases (s : State) :
    (∃ e, decodeMessage s = .fail e ∧ execDecode s = .next (completeErr s e)) ∨
    (∃ d, decodeMessage s = .done d ∧ execDecode s = .next (completeOk (commitDecoded s d))) := by
  rcases h : decodeMessage s with e | w | d
  · exact .inl ⟨e, rfl, by rw [execDecode, h]; rfl⟩
  · exact absurd h (decodeMessage_not_more s w)
  · exact .inr ⟨d, rfl, by rw [execDecode, h]; rfl⟩

/-! ### The parts look only at the parameters, IN_LEN and IBUF -/

/-- States with the same parameters, IN_LEN and IBUF give DECODE the same input. -/
def SameInput (s t : State) : Prop := t.params = s.params ∧ t.inLen = s.inLen ∧ t.ibuf = s.ibuf

theorem SameInput.inputLen {s t : State} (h : SameInput s t) : inputLen t = inputLen s := by
  rw [Machine.inputLen, Machine.inputLen, h.2.1]

theorem SameInput.ibufSize {s t : State} (h : SameInput s t) : t.ibufSize = s.ibufSize := by
  rw [State.ibufSize, State.ibufSize, h.1]

theorem SameInput.ibufAt {s t : State} (h : SameInput s t) (a : Nat) : t.ibufAt a = s.ibufAt a := by
  rw [State.ibufAt, State.ibufAt, h.ibufSize, h.2.2]

theorem SameInput.ibufSeq {s t : State} (h : SameInput s t) (off n : Nat) : t.ibufSeq off n = s.ibufSeq off n := by
  induction n generalizing off with
  | zero => rfl
  | succ n ih => rw [ibufSeq_succ, ibufSeq_succ, ih, h.ibufAt]

theorem SameInput.decodeHeader {s t : State} (h : SameInput s t) (ver typ : BitVec 2) (tkl : Nibble) :
    decodeHeader t ver typ tkl = decodeHeader s ver typ tkl := by
  simp only [Machine.decodeHeader, h.inputLen, h.ibufSize, h.ibufAt]

theorem SameInput.decodeOption {s t : State} (h : SameInput s t) (w : Walk) (dsel lsel : Nibble) :
    decodeOption t w dsel lsel = decodeOption s w dsel lsel := by
  have hm : t.maxOpts = s.maxOpts := by rw [State.maxOpts, State.maxOpts, h.1]
  simp only [Machine.decodeOption, availAt, h.inputLen, h.ibufSeq, hm]

theorem SameInput.decodeMarker {s t : State} (h : SameInput s t) (w : Walk) : decodeMarker t w = decodeMarker s w := by
  simp only [Machine.decodeMarker, h.inputLen]

theorem SameInput.decodeEnd {s t : State} (h : SameInput s t) (w : Walk) : decodeEnd t w = decodeEnd s w := by
  simp only [Machine.decodeEnd, h.inputLen]

theorem SameInput.decodeLoop {s t : State} (h : SameInput s t) (fuel : Nat) (w : Walk) :
    decodeLoop t fuel w = decodeLoop s fuel w := by
  induction fuel generalizing w with
  | zero => rfl
  | succ fuel ih =>
    simp only [Machine.decodeLoop, h.inputLen, h.ibufAt, h.decodeOption, h.decodeMarker, h.decodeEnd, ih]

/-- DECODE's answer depends on the parameters, IN_LEN and IBUF alone (spec/40_command_interface.md R107). -/
theorem SameInput.decodeMessage {s t : State} (h : SameInput s t) : decodeMessage t = decodeMessage s := by
  simp only [Machine.decodeMessage, h.inputLen, h.ibufAt, h.decodeHeader, h.decodeLoop]

end Sys2Proof.Machine
end

