-- ==== Sys2Proof/Laws/OptionSort.lean ====
section
/-! SUPPORT. The stable sort of option entries: a permutation, ascending, and stable (spec/42_encode.md R164), and the table
after a CONSTRUCT. -/

namespace Sys2Proof.Machine

theorem insertByNum_perm (e : OptEntry) (es : List OptEntry) : (insertByNum e es).Perm (e :: es) := by
  induction es with
  | nil => exact .refl _
  | cons x xs ih =>
    rw [insertByNum]
    split
    · exact .refl _
    · exact (List.Perm.cons x ih).trans (List.Perm.swap e x xs)

/-- The sort is a permutation. -/
theorem stableSortByNum_perm (es : List OptEntry) : (stableSortByNum es).Perm es := by
  induction es with
  | nil => exact .refl _
  | cons e es ih => exact (insertByNum_perm e _).trans (ih.cons e)

@[simp] theorem stableSortByNum_length (es : List OptEntry) : (stableSortByNum es).length = es.length :=
  (stableSortByNum_perm es).length_eq

theorem insertByNum_sorted (e : OptEntry) {es : List OptEntry}
    (h : es.Pairwise fun a b => a.num.toNat ≤ b.num.toNat) :
    (insertByNum e es).Pairwise fun a b => a.num.toNat ≤ b.num.toNat := by
  induction es with
  | nil => simp [insertByNum]
  | cons x xs ih =>
    rw [insertByNum]
    have h' := List.pairwise_cons.mp h
    split
    · next hle =>
      refine List.pairwise_cons.mpr ⟨fun a ha => ?_, h⟩
      rcases List.mem_cons.mp ha with rfl | ha
      · exact hle
      · exact Nat.le_trans hle (h'.1 a ha)
    · next hnle =>
      refine List.pairwise_cons.mpr ⟨fun a ha => ?_, ih h'.2⟩
      rcases List.mem_cons.mp ((insertByNum_perm e xs).mem_iff.mp ha) with rfl | ha
      · omega
      · exact h'.1 a ha

/-- The sort is ascending by number. -/
theorem stableSortByNum_sorted (es : List OptEntry) :
    (stableSortByNum es).Pairwise fun a b => a.num.toNat ≤ b.num.toNat := by
  induction es with
  | nil => exact .nil
  | cons e es ih => exact insertByNum_sorted e ih

theorem insertByNum_stable (n : Half) (e : OptEntry) (es : List OptEntry) :
    ((insertByNum e es).filter fun x => decide (x.num = n)) = (e :: es).filter fun x => decide (x.num = n) := by
  induction es with
  | nil => rfl
  | cons x xs ih =>
    rw [insertByNum]
    split
    · rfl
    · next h =>
      have hne : x.num ≠ e.num := fun hh => h (by rw [hh])
      rw [List.filter_cons, ih]
      by_cases h1 : x.num = n
      · have h2 : e.num ≠ n := fun h => hne (by rw [h1, h])
        simp [h1, h2]
      · simp [h1, List.filter_cons]

/-- The sort keeps the order of the entries with one number. -/
theorem stableSortByNum_stable (n : Half) (es : List OptEntry) :
    ((stableSortByNum es).filter fun x => decide (x.num = n)) = es.filter fun x => decide (x.num = n) := by
  induction es with
  | nil => rfl
  | cons e es ih =>
    rw [stableSortByNum, insertByNum_stable, List.filter_cons, List.filter_cons, ih]

/-- A table whose first entries were replaced by as many others: those others are the entries below COUNT. -/
theorem take_replaced {new old : List OptEntry} {c : Nat} (h : new.length = min c old.length) :
    (new ++ old.drop c).take c = new ∧ (new ++ old.drop c).drop c = old.drop c := by
  by_cases hc : c ≤ old.length
  · have : new.length = c := by omega
    subst this
    exact ⟨by simp, by simp⟩
  · rw [List.drop_of_length_le (l := old) (by omega), List.append_nil]
    exact ⟨List.take_of_length_le (by omega), List.drop_of_length_le (by omega)⟩

/-- The entries below COUNT after a CONSTRUCT, and the others. -/
theorem construct_table (s : State) :
    (stableSortByNum s.liveOpts ++ s.opts.drop (countField s.optCount)).take (countField s.optCount) =
      stableSortByNum s.liveOpts ∧
    (stableSortByNum s.liveOpts ++ s.opts.drop (countField s.optCount)).drop (countField s.optCount) =
      s.opts.drop (countField s.optCount) :=
  take_replaced (by simp [State.liveOpts])

end Sys2Proof.Machine
end

