-- ==== Sys2Proof/Laws/PerInstr.lean ====
section
/-! SUPPORT. A statement about every instruction as syntax, one lemma per constructor: whatever the engine fetches, the
instruction the decoder reads from it is well formed (spec/30_encoding.md R82, R84, R88, R91, R92). -/

namespace Sys2Proof.Laws

/-- What the decoder can read from a command word. -/
theorem decodeCmd_wellFormed (w : Word) : WellFormed (decodeCmd w) := by
  have toNat_ne : ∀ {v : Word}, w ≠ v → w.toNat ≠ v.toNat := fun h e => h (BitVec.eq_of_toNat_eq e)
  unfold decodeCmd
  by_cases h1 : w = 1
  · rw [if_pos h1]; rfl
  by_cases h2 : w = 2
  · rw [if_neg h1, if_pos h2]; rfl
  by_cases h3 : w = 3
  · rw [if_neg h1, if_neg h2, if_pos h3]; rfl
  by_cases h4 : w = 4
  · rw [if_neg h1, if_neg h2, if_neg h3, if_pos h4]; rfl
  by_cases h5 : w = 5
  · rw [if_neg h1, if_neg h2, if_neg h3, if_neg h4, if_pos h5]; rfl
  rw [if_neg h1, if_neg h2, if_neg h3, if_neg h4, if_neg h5]
  have e1 : w.toNat ≠ 1 := toNat_ne h1
  have e2 : w.toNat ≠ 2 := toNat_ne h2
  have e3 : w.toNat ≠ 3 := toNat_ne h3
  have e4 : w.toNat ≠ 4 := toNat_ne h4
  have e5 : w.toNat ≠ 5 := toNat_ne h5
  simp only [WellFormed, wellFormed, LegalCommandWord, Bool.not_eq_true', decide_eq_false_iff_not]
  omega

/-- What the decoder can read from byte 0. -/
theorem decodeByte0_wellFormed : ∀ b : Byte, WellFormed (decodeByte0 b) := by decide

/-- What the decoder can read from a header byte. -/
theorem decodeOptHdr_wellFormed : ∀ b : Byte, WellFormed (decodeOptHdr b) := by decide

/-- Whatever is fetched, the instruction read from it is well formed. -/
theorem decode_wellFormed (f : Fetched) : WellFormed (decode f) := by
  cases f with
  | cmd w => exact decodeCmd_wellFormed w
  | byte0 b => exact decodeByte0_wellFormed b
  | optHdr b => exact decodeOptHdr_wellFormed b

namespace DecodedWellFormed

/-- An instruction that the decoder gives is well formed. -/
def Statement (i : Instr) : Prop := ∀ f, Sys2Proof.decode f = i → WellFormed i

theorem of_decode {i : Instr} : Statement i := fun f h => h ▸ decode_wellFormed f

theorem decode : Statement .decode := of_decode
theorem encode : Statement .encode := of_decode
theorem construct : Statement .construct := of_decode
theorem packf : Statement .packf := of_decode
theorem unpackf : Statement .unpackf := of_decode
theorem payloadMarker : Statement .payloadMarker := of_decode
theorem optDx13Lx13 : Statement .optDx13Lx13 := of_decode
theorem optDx13Lx14 : Statement .optDx13Lx14 := of_decode
theorem optDx14Lx13 : Statement .optDx14Lx13 := of_decode
theorem optDx14Lx14 : Statement .optDx14Lx14 := of_decode
theorem illegalCmd (word : Word) : Statement (.illegalCmd word) := of_decode
theorem hdr0 (ver typ : BitVec 2) (tkl : Nibble) : Statement (.hdr0 ver typ tkl) := of_decode
theorem hdr0TklReserved (ver typ : BitVec 2) (k : BitVec 3) : Statement (.hdr0TklReserved ver typ k) := of_decode
theorem optDeltaReserved (l : Nibble) : Statement (.optDeltaReserved l) := of_decode
theorem optLengthReserved (d : Nibble) : Statement (.optLengthReserved d) := of_decode
theorem optDdirLdir (d l : Nibble) : Statement (.optDdirLdir d l) := of_decode
theorem optDdirLx13 (d : Nibble) : Statement (.optDdirLx13 d) := of_decode
theorem optDdirLx14 (d : Nibble) : Statement (.optDdirLx14 d) := of_decode
theorem optDx13Ldir (l : Nibble) : Statement (.optDx13Ldir l) := of_decode
theorem optDx14Ldir (l : Nibble) : Statement (.optDx14Ldir l) := of_decode

end DecodedWellFormed

end Sys2Proof.Laws
end

