-- ==== Sys2Proof/Laws/Port.lean ====
section
/-! SUPPORT. The register map and the host's accesses: which word index each register has, and what one access makes of an idle
and of a busy block. A proof about an access cites these and unfolds neither `regAt` nor `hostTurn`. -/

namespace Sys2Proof.Machine

/-! ### The register map (spec/10_state.md R22) -/

/-- A register of a block with an option table of `m` entries. -/
def Reg.within (m : Nat) : Reg → Prop
  | .optNum i => i < m
  | .optVal i => i < m
  | _ => True

theorem maxOpts_lt (s : State) : s.maxOpts < 256 := s.params.maxOptions.isLt

theorem ite_eq_some {α : Type} {p : Prop} [Decidable p] {x y : Option α} {r : α} (h : (if p then x else y) = some r) :
    p ∧ x = some r ∨ y = some r := by
  by_cases hp : p
  · rw [if_pos hp] at h; exact .inl ⟨hp, h⟩
  · rw [if_neg hp] at h; exact .inr h

/-- A register found at a word index has that index and belongs to the block. -/
theorem regAt_sound {m : Nat} {w : BitVec 10} {r : Reg} (h : regAt m w = some r) :
    r.within m ∧ w.toNat = r.wordIndex := by
  unfold regAt at h
  iterate 14
    rcases ite_eq_some h with ⟨hw, h⟩ | h
    · cases h; subst hw; exact ⟨trivial, rfl⟩
  rcases ite_eq_some h with ⟨hw, h⟩ | h
  · by_cases hp : w.toNat % 2 = 0
    · rw [if_pos hp] at h; cases h; simp only [Reg.within, Reg.wordIndex]; omega
    · rw [if_neg hp] at h; cases h; simp only [Reg.within, Reg.wordIndex]; omega
  · cases h

/-- Every register of the block is found at its word index. -/
theorem regAt_wordIndex {m : Nat} {r : Reg} (hm : m < 256) (hr : r.within m) :
    regAt m (BitVec.ofNat 10 r.wordIndex) = some r := by
  have hn : ∀ n, n < 1024 → (BitVec.ofNat 10 n).toNat = n := fun n h => by rw [BitVec.toNat_ofNat]; omega
  have ne : ∀ n, 0x040 ≤ n → n < 1024 → ∀ k : BitVec 10, k.toNat < 0x040 → BitVec.ofNat 10 n ≠ k := by
    rintro n h1 h2 k hk rfl
    rw [hn n h2] at hk; omega
  cases r with
  | optNum i =>
    simp only [Reg.within] at hr
    simp only [regAt, Reg.wordIndex, hn (0x040 + 2 * i) (by omega)]
    repeat rw [if_neg (ne _ (by omega) (by omega) _ (by decide))]
    rw [if_pos (by omega), if_pos (by omega)]
    congr 2; omega
  | optVal i =>
    simp only [Reg.within] at hr
    simp only [regAt, Reg.wordIndex, hn (0x041 + 2 * i) (by omega)]
    repeat rw [if_neg (ne _ (by omega) (by omega) _ (by decide))]
    rw [if_pos (by omega), if_neg (by omega)]
    congr 2; omega
  | _ => rfl

/-- Registers with one word index are the same register. -/
theorem wordIndex_inj {m : Nat} {r q : Reg} (hm : m < 256) (hr : r.within m) (hq : q.within m)
    (h : r.wordIndex = q.wordIndex) : r = q := by
  have h1 := regAt_wordIndex hm hr
  rw [h, regAt_wordIndex hm hq] at h1
  exact (Option.some.inj h1).symm

/-- CMD stands at word index 0 only. -/
theorem regAt_cmd {m : Nat} {w : BitVec 10} (h : regAt m w = some .cmd) : w = 0 :=
  BitVec.eq_of_toNat_eq (regAt_sound h).2

/-- A read of a register of the block returns its value. -/
theorem hostReadReg_reg {s : State} {r : Reg} (h : r.within s.maxOpts) :
    hostReadReg s (BitVec.ofNat 10 r.wordIndex) = regValue s r := by
  rw [hostReadReg, regAt_wordIndex (maxOpts_lt s) h]

/-! ### The option table -/

@[simp] theorem setEntry_length (opts : List OptEntry) (i : Nat) (f : OptEntry → OptEntry) :
    (setEntry opts i f).length = opts.length := by
  unfold setEntry; split <;> simp

theorem setEntry_getElem? (opts : List OptEntry) (i j : Nat) (f : OptEntry → OptEntry) :
    (setEntry opts i f)[j]? = if j = i then (opts[i]?).map f else opts[j]? := by
  unfold setEntry
  split
  · rename_i e he
    rw [List.getElem?_set]
    obtain ⟨hl, -⟩ := List.getElem?_eq_some_iff.mp he
    by_cases h : j = i
    · subst h; simp [hl, (List.getElem?_eq_some_iff.mp he).2]
    · rw [if_neg fun h' => h h'.symm, if_neg h]
  · rename_i he
    by_cases h : j = i
    · subst h; simp [he]
    · simp [h]

/-! ### One access of the host -/

theorem isIdle_of {s : State} (h : s.phase = .idle) : s.isIdle = true := by simp [State.isIdle, h]

theorem isIdle_of_busy {s : State} {op : Word} (h : s.phase = .busy op) : s.isIdle = false := by simp [State.isIdle, h]

theorem hostTurn_wreg_idle {s : State} (w : BitVec 10) (v : Word) (rest : List HostOp) (h : s.phase = .idle) :
    hostTurn s (.wreg w v) rest = hostWriteReg { s with port := rest } w v := by
  simp [hostTurn, hostAccess, ifIdle, State.isIdle, portAfter, h]

theorem hostTurn_wibuf_idle {s : State} (a : Nat) (b : Byte) (rest : List HostOp) (h : s.phase = .idle) :
    hostTurn s (.wibuf a b) rest = hostWriteIbuf { s with port := rest } a b := by
  simp [hostTurn, hostAccess, ifIdle, State.isIdle, portAfter, h]

theorem hostTurn_wobuf_idle {s : State} (a : Nat) (b : Byte) (rest : List HostOp) (h : s.phase = .idle) :
    hostTurn s (.wobuf a b) rest = { s with port := rest } := by
  simp [hostTurn, hostAccess, ifIdle, State.isIdle, portAfter, hostWriteObuf, h]

/-- A write to a busy block has no effect; it uses up one access of the delay (spec/40_command_interface.md R101, R102). -/
theorem hostTurn_wreg_busy {s : State} {op : Word} (w : BitVec 10) (v : Word) (rest : List HostOp) (h : s.phase = .busy op) :
    hostTurn s (.wreg w v) rest = { s with port := rest, delay := s.delay - 1 } := by
  simp [hostTurn, hostAccess, ifIdle, State.isIdle, portAfter, h]

theorem hostTurn_wibuf_busy {s : State} {op : Word} (a : Nat) (b : Byte) (rest : List HostOp) (h : s.phase = .busy op) :
    hostTurn s (.wibuf a b) rest = { s with port := rest, delay := s.delay - 1 } := by
  simp [hostTurn, hostAccess, ifIdle, State.isIdle, portAfter, h]

theorem hostTurn_wobuf_busy {s : State} {op : Word} (a : Nat) (b : Byte) (rest : List HostOp) (h : s.phase = .busy op) :
    hostTurn s (.wobuf a b) rest = { s with port := rest, delay := s.delay - 1 } := by
  simp [hostTurn, hostAccess, ifIdle, State.isIdle, portAfter, h]

/-- What a write of an idle block's register can do: acceptance at CMD, a store at another register, nothing at an unmapped
offset (spec/10_state.md R23, R24). -/
theorem hostWriteReg_cases (s : State) (w : BitVec 10) (v : Word) :
    (w = 0 ∧ hostWriteReg s w v = accept s v) ∨
    (∃ r, r ≠ .cmd ∧ r.within s.maxOpts ∧ w.toNat = r.wordIndex ∧ hostWriteReg s w v = storeReg s r v) ∨
    (regAt s.maxOpts w = none ∧ hostWriteReg s w v = s) := by
  rcases hr : regAt s.maxOpts w with _ | r
  · exact .inr (.inr ⟨rfl, by simp only [hostWriteReg, hr]⟩)
  · have hs := regAt_sound hr
    by_cases hc : r = .cmd
    · subst hc; exact .inl ⟨regAt_cmd hr, by simp only [hostWriteReg, hr]⟩
    · exact .inr (.inl ⟨r, hc, hs.1, hs.2, by
        unfold hostWriteReg; rw [hr]; cases r <;> first | rfl | exact absurd rfl hc⟩)

/-- What a store to a register leaves alone. -/
theorem storeReg_frame (s : State) (r : Reg) (v : Word) :
    storeReg s r v =
      { s with inLen := (storeReg s r v).inLen, msgHdr := (storeReg s r v).msgHdr, tokDesc := (storeReg s r v).tokDesc
               payDesc := (storeReg s r v).payDesc, optCount := (storeReg s r v).optCount
               packIn := (storeReg s r v).packIn, unpackIn := (storeReg s r v).unpackIn
               opts := (storeReg s r v).opts } := by
  cases r <;> rfl

theorem entryValue_setEntry (i j : Nat) (l : List OptEntry) (f : OptEntry → OptEntry) (g : OptEntry → Word)
    (hf : ∀ e, g (f e) = g e) :
    (match (setEntry l i f)[j]? with | some e => g e | none => 0) = (match l[j]? with | some e => g e | none => 0) := by
  rw [setEntry_getElem?]
  by_cases h : j = i
  · subst h; rw [if_pos rfl]; cases l[j]? <;> simp [hf]
  · rw [if_neg h]

theorem entryValue_setEntry_other {i j : Nat} (l : List OptEntry) (f : OptEntry → OptEntry) (g : OptEntry → Word)
    (h : j ≠ i) :
    (match (setEntry l i f)[j]? with | some e => g e | none => 0) = (match l[j]? with | some e => g e | none => 0) := by
  rw [setEntry_getElem?, if_neg h]

/-- A store to one register leaves what every other register reads as. -/
theorem regValue_storeReg_other {s : State} {r q : Reg} (v : Word) (h : q ≠ r) :
    regValue (storeReg s r v) q = regValue s q := by
  have hi : ∀ {i j : Nat}, Reg.optNum j ≠ Reg.optNum i → j ≠ i := fun h e => h (congrArg _ e)
  have hj : ∀ {i j : Nat}, Reg.optVal j ≠ Reg.optVal i → j ≠ i := fun h e => h (congrArg _ e)
  cases r with
  | optNum i =>
    cases q with
    | optNum j => exact entryValue_setEntry_other _ _ (fun e => 0#16 ++ e.num) (hi h)
    | optVal j => exact entryValue_setEntry _ _ _ _ (fun e => packDesc e.off e.len) fun _ => rfl
    | _ => rfl
  | optVal i =>
    cases q with
    | optNum j => exact entryValue_setEntry _ _ _ _ (fun e => 0#16 ++ e.num) fun _ => rfl
    | optVal j => exact entryValue_setEntry_other _ _ (fun e => packDesc e.off e.len) (hj h)
    | _ => rfl
  | _ => cases q <;> first | rfl | exact absurd rfl h

/-- A store to a register without named fields changes nothing it reads as. -/
theorem storeReg_readOnly {s : State} {r : Reg} (v : Word) (h : hostMask r = 0) : storeReg s r v = s := by
  cases r <;> first | rfl | (exfalso; revert h; simp [hostMask])

/-- The number field of an entry, as OPT_NUM shows it. -/
theorem optNum_field (v : Word) : (0#16 ++ (v &&& 0x0000FFFF).extractLsb' 0 16 : Word) = v &&& 0x0000FFFF := by
  apply BitVec.eq_of_toNat_eq
  rw [toNat_append_add, toNat_field]
  have h : (v &&& 0x0000FFFF).toNat = v.toNat % 65536 := by
    rw [BitVec.toNat_and]; exact Nat.and_two_pow_sub_one_eq_mod _ 16
  rw [h]
  have : (0#16).toNat = 0 := rfl
  omega

/-- The two fields of a descriptor, as OPT_VAL shows them. -/
theorem optVal_fields (v : Word) : packDesc ((v &&& 0xFFFFFFFF).extractLsb' 0 16) ((v &&& 0xFFFFFFFF).extractLsb' 16 16) =
    v &&& 0xFFFFFFFF := by
  apply BitVec.eq_of_toNat_eq
  rw [toNat_packDesc, toNat_field, toNat_field]
  have := (v &&& 0xFFFFFFFF).isLt
  omega

/-- A register with named fields reads as the stored value's named fields. -/
theorem regValue_storeReg_same {s : State} {r : Reg} (v : Word) (hr : r.within s.opts.length) (h : hostMask r ≠ 0) :
    regValue (storeReg s r v) r = v &&& hostMask r := by
  cases r with
  | optNum i =>
    simp only [Reg.within] at hr
    simp only [regValue, storeReg, setEntry_getElem?, if_true, List.getElem?_eq_getElem hr, Option.map_some]
    exact optNum_field v
  | optVal i =>
    simp only [Reg.within] at hr
    simp only [regValue, storeReg, setEntry_getElem?, if_true, List.getElem?_eq_getElem hr, Option.map_some]
    exact optVal_fields v
  | _ => first | rfl | exact absurd rfl h

/-- A store keeps the size of the option table. -/
theorem storeReg_opts_length (s : State) (r : Reg) (v : Word) : (storeReg s r v).opts.length = s.opts.length := by
  cases r <;> simp [storeReg]

end Sys2Proof.Machine
end

