-- ==== Sys2Proof/Laws/Step.lean ====
section
/-! SUPPORT. What one instruction and one step can do, said once: every later proof about all instructions or all steps takes
its cases from `exec_cases` and `step_cases`. -/

namespace Sys2Proof.Machine

/-! ### One instruction -/

/-- Everything an instruction can do: end its command with an error, end it with a message, move DECODE's working values on, or
be one of the other commands' successes. -/
theorem exec_cases (i : Instr) (s : State) :
    (∃ e, exec i s = .next (completeErr s e)) ∨
    (∃ v, exec i s = .next (settle s v) ∧
      ((i = .decode ∧ v = decodeMessage s) ∨
       (∃ ver typ tkl, v = decodeHeader s ver typ tkl) ∨ v = decodeMarker s s.walk ∨
       ∃ d l, v = decodeOption s s.walk d l)) ∨
    (∃ out, i = .encode ∧ encodeMessage s = .ok out ∧ exec i s = .next (completeOk
      { s with obuf := Memory.writeSeq s.obuf 0 out, outLen := BitVec.ofNat 32 out.length })) ∨
    (i = .construct ∧ countField s.optCount ≤ s.maxOpts ∧ exec i s = .next (completeOk
      { s with opts := stableSortByNum s.liveOpts ++ s.opts.drop (countField s.optCount) })) ∨
    (∃ p, i = .packf ∧ pack (packInValue s.packIn) = .ok p ∧
      exec i s = .next (completeOk { s with packOut := packOutOf p })) ∨
    (∃ u, i = .unpackf ∧
      unpack (unpackInSel s.unpackIn) (unpackInKind s.unpackIn) (unpackInBytes s.unpackIn) = .ok u ∧
      exec i s = .next (completeOk
        { s with unpackOut := packUnpackOut (BitVec.ofNat 17 u.value) (BitVec.ofNat 2 u.consumed) })) := by
  cases i with
  | decode => exact .inr (.inl ⟨_, rfl, .inl ⟨rfl, rfl⟩⟩)
  | encode =>
    rcases h : encodeMessage s with out | e
    · exact .inr (.inr (.inl ⟨out, rfl, rfl, execEncode_ok h⟩))
    · exact .inl ⟨e, execEncode_raise h⟩
  | construct =>
    by_cases h : s.maxOpts < countField s.optCount
    · exact .inl ⟨_, execConstruct_raise h⟩
    · exact .inr (.inr (.inr (.inl ⟨rfl, Nat.not_lt.mp h, execConstruct_ok (Nat.not_lt.mp h)⟩)))
  | packf =>
    rcases h : pack (packInValue s.packIn) with p | e
    · exact .inr (.inr (.inr (.inr (.inl ⟨p, rfl, rfl, execPackf_ok h⟩))))
    · exact .inl ⟨e, execPackf_raise h⟩
  | unpackf =>
    rcases h : unpack (unpackInSel s.unpackIn) (unpackInKind s.unpackIn) (unpackInBytes s.unpackIn) with u | e
    · exact .inr (.inr (.inr (.inr (.inr ⟨u, rfl, rfl, execUnpackf_ok h⟩))))
    · exact .inl ⟨e, execUnpackf_raise h⟩
  | illegalCmd w => exact .inl ⟨_, rfl⟩
  | hdr0 ver typ tkl => exact .inr (.inl ⟨_, rfl, .inr (.inl ⟨_, _, _, rfl⟩)⟩)
  | hdr0TklReserved ver typ k => exact .inr (.inl ⟨_, rfl, .inr (.inl ⟨_, _, _, rfl⟩)⟩)
  | payloadMarker => exact .inr (.inl ⟨_, rfl, .inr (.inr (.inl rfl))⟩)
  | _ => exact .inr (.inl ⟨_, rfl, .inr (.inr (.inr ⟨_, _, rfl⟩))⟩)

/-- No instruction faults or is refused. -/
theorem exec_next (i : Instr) (s : State) : ∃ t, exec i s = .next t := by
  rcases exec_cases i s with ⟨_, h⟩ | ⟨_, h, _⟩ | ⟨_, _, _, h⟩ | ⟨_, _, h⟩ | ⟨_, _, _, h⟩ | ⟨_, _, _, h⟩ <;>
    exact ⟨_, h⟩

/-- The command words decode to the six command instructions. -/
theorem decodeCmd_cases (w : Word) :
    (w = 1 ∧ decodeCmd w = .decode) ∨ (w = 2 ∧ decodeCmd w = .encode) ∨ (w = 3 ∧ decodeCmd w = .construct) ∨
    (w = 4 ∧ decodeCmd w = .packf) ∨ (w = 5 ∧ decodeCmd w = .unpackf) ∨ decodeCmd w = .illegalCmd w := by
  unfold decodeCmd
  by_cases h1 : w = 1
  · exact .inl ⟨h1, if_pos h1⟩
  rw [if_neg h1]; right
  by_cases h2 : w = 2
  · exact .inl ⟨h2, if_pos h2⟩
  rw [if_neg h2]; right
  by_cases h3 : w = 3
  · exact .inl ⟨h3, if_pos h3⟩
  rw [if_neg h3]; right
  by_cases h4 : w = 4
  · exact .inl ⟨h4, if_pos h4⟩
  rw [if_neg h4]; right
  by_cases h5 : w = 5
  · exact .inl ⟨h5, if_pos h5⟩
  · exact .inr (if_neg h5)

/-- States with the same parameters, IBUF and message registers give ENCODE the same message. -/
def SameRegisters (s t : State) : Prop :=
  SameInput s t ∧ t.msgHdr = s.msgHdr ∧ t.tokDesc = s.tokDesc ∧ t.payDesc = s.payDesc ∧ t.optCount = s.optCount ∧
    t.opts = s.opts

theorem SameInput.encodeOptions {s t : State} (h : SameInput s t) (prev : Nat) (es : List OptEntry) :
    encodeOptions t prev es = encodeOptions s prev es := by
  induction es generalizing prev with
  | nil => rfl
  | cons e es ih => simp only [Machine.encodeOptions, h.ibufSeq, ih]

/-- ENCODE's answer depends on the parameters, IBUF and the message registers alone (spec/40_command_interface.md R107). -/
theorem SameRegisters.encodeMessage {s t : State} (h : SameRegisters s t) : encodeMessage t = encodeMessage s := by
  obtain ⟨hi, h1, h2, h3, h4, h5⟩ := h
  have hl : t.liveOpts = s.liveOpts := by rw [State.liveOpts, State.liveOpts, h4, h5]
  have hm : t.maxOpts = s.maxOpts := by rw [State.maxOpts, State.maxOpts, hi.1]
  have hp : t.maxPacket = s.maxPacket := by rw [State.maxPacket, State.maxPacket, hi.1]
  have hb : t.ibufSize = s.ibufSize := hi.ibufSize
  have hc : checkMessage t = checkMessage s := by
    unfold checkMessage payloadCounts
    rw [hl, hm, hb, h1, h2, h3, h4]
  have hh : encodeHeader t = encodeHeader s := by unfold encodeHeader; rw [h1, h2, hi.ibufSeq]
  have hy : encodePayload t = encodePayload s := by unfold encodePayload payloadCounts; rw [h1, h3, hi.ibufSeq]
  unfold Machine.encodeMessage
  rw [hc, hh, hy, hl, hp, hi.encodeOptions]

/-- The option forms and the reserved selectors: every header byte but the marker is DecodeOption on its two nibbles. -/
theorem exec_optHdr {b : Byte} (s : State) (h : b ≠ 0xFF) :
    exec (decodeOptHdr b) s = .next (settle s (decodeOption s s.walk (highNibble b) (lowNibble b))) := by
  have h14 : ∀ n : Nibble, ¬ n.toNat ≤ 12 → n ≠ 13 → n ≠ 15 → n = 14 := by decide
  unfold decodeOptHdr
  rw [if_neg h]
  by_cases hd : highNibble b = 15
  · rw [if_pos hd, hd]; rfl
  rw [if_neg hd]
  by_cases hl : lowNibble b = 15
  · rw [if_pos hl, hl]; rfl
  rw [if_neg hl]
  unfold optionForm
  by_cases d1 : (highNibble b).toNat ≤ 12
  · rw [if_pos d1]
    by_cases l1 : (lowNibble b).toNat ≤ 12
    · rw [if_pos l1]; rfl
    rw [if_neg l1]
    by_cases l2 : lowNibble b = 13
    · rw [if_pos l2, l2]; rfl
    · rw [if_neg l2, h14 _ l1 l2 hl]; rfl
  rw [if_neg d1]
  by_cases d2 : highNibble b = 13
  · rw [if_pos d2, d2]
    by_cases l1 : (lowNibble b).toNat ≤ 12
    · rw [if_pos l1]; rfl
    rw [if_neg l1]
    by_cases l2 : lowNibble b = 13
    · rw [if_pos l2, l2]; rfl
    · rw [if_neg l2, h14 _ l1 l2 hl]; rfl
  · rw [if_neg d2, h14 _ d1 d2 hd]
    by_cases l1 : (lowNibble b).toNat ≤ 12
    · rw [if_pos l1]; rfl
    rw [if_neg l1]
    by_cases l2 : lowNibble b = 13
    · rw [if_pos l2, l2]; rfl
    · rw [if_neg l2, h14 _ l1 l2 hl]; rfl

/-- The forms of byte 0: DecodeHeader on its three fields. -/
theorem exec_byte0 (b : Byte) (s : State) :
    exec (decodeByte0 b) s = .next (settle s (decodeHeader s (byte0Ver b) (byte0Typ b) (byte0Tkl b))) := by
  unfold decodeByte0
  by_cases h : (byte0Tkl b).toNat ≤ 8
  · rw [if_pos h]; rfl
  · have hk : ∀ b : Byte, ¬ (byte0Tkl b).toNat ≤ 8 → (1#1 ++ b.extractLsb' 0 3 : Nibble) = byte0Tkl b := by decide
    rw [if_neg h, ← hk b h]; rfl

/-! ### One step -/

theorem turnOf_nobody {s : State} (h : turnOf s = .nobody) : s.phase = .idle ∧ s.port = [] := by
  unfold turnOf at h
  repeat' split at h
  all_goals first | exact ⟨‹_›, ‹_›⟩ | cases h

theorem turnOf_host {s : State} {op : HostOp} {rest : List HostOp} (h : turnOf s = .host op rest) :
    s.port = op :: rest ∧ (s.phase = .idle ∨ 0 < s.delay) := by
  unfold turnOf at h
  repeat' split at h
  all_goals first
    | (cases h; done)
    | (injection h with h1 h2; subst h1 h2; exact ⟨‹_›, .inl ‹_›⟩)
    | (injection h with h1 h2; subst h1 h2; exact ⟨‹_›, .inr (by omega)⟩)

theorem turnOf_engine {s : State} (h : turnOf s = .engine) :
    ∃ w, s.phase = .busy w ∧ (s.port = [] ∨ s.delay = 0) := by
  unfold turnOf at h
  repeat' split at h
  all_goals first | (cases h; done) | exact ⟨_, ‹_›, .inl ‹_›⟩ | exact ⟨_, ‹_›, .inr ‹_›⟩

/-- Everything a step can do: an idle block waits, the host's next access takes effect, the engine executes the instruction it
fetches, or a DECODE ends at the end of its input. -/
theorem step_cases (s : State) :
    (s.phase = .idle ∧ s.port = [] ∧ step s = .next s) ∨
    (∃ op rest, s.port = op :: rest ∧ (s.phase = .idle ∨ 0 < s.delay) ∧ step s = .next (hostTurn s op rest)) ∨
    (∃ w f, s.phase = .busy w ∧ (s.port = [] ∨ s.delay = 0) ∧ fetchFor s w = some f ∧
      step s = exec (decode f) s) ∨
    (∃ w, s.phase = .busy w ∧ (s.port = [] ∨ s.delay = 0) ∧ s.walk.stage = .atHeader ∧ inputLen s ≤ s.walk.cur ∧
      step s = .next (settle s (decodeEnd s s.walk))) := by
  unfold step
  rcases ht : turnOf s with _ | ⟨op, rest⟩ | _
  · obtain ⟨w, hw, hd⟩ := turnOf_engine ht
    have hf : fetch s = fetchFor s w := by simp only [fetch, hw]
    rcases hff : fetchFor s w with _ | f
    · refine .inr (.inr (.inr ⟨w, hw, hd, ?_⟩))
      simp only [hf, hff]
      unfold fetchFor at hff
      repeat' split at hff
      all_goals first | (cases hff; done) | exact ⟨‹_›, ‹_›, rfl⟩
    · exact .inr (.inr (.inl ⟨w, f, hw, hd, hff, by simp only [hf, hff]⟩))
  · obtain ⟨hp, hd⟩ := turnOf_host ht
    exact .inr (.inl ⟨op, rest, hp, hd, rfl⟩)
  · obtain ⟨h1, h2⟩ := turnOf_nobody ht
    exact .inl ⟨h1, h2, rfl⟩

/-- A run takes its first step and goes on. -/
theorem run_succ {s t : State} (k : Nat) (h : step s = .next t) :
    Host.Core.run Sys2Proof.core (k + 1) s = Host.Core.run Sys2Proof.core k t := by
  have hc : Sys2Proof.core.step s = .next t := h
  simp only [Host.Core.run, hc]

end Sys2Proof.Machine
end

