-- ==== Sys2Proof/Tests/Slice0.lean ====
section
/-! SUPPORT. The model's own tests. Expected values are those of spec/95_test_vectors.md (the vector is named in each docstring) or
are written out by hand from the tables of spec/30_encoding.md. The last part gives, for every statement with hypotheses, a
concrete state and operands that meet them all, clause by clause. -/

namespace Sys2Proof.Tests

open Sys2Proof.Machine Sys2Proof.Claim

/-! ### Helpers -/

/-- Bytes as a memory from address `a` on. -/
def mem (a : Nat) : List Byte → Memory
  | [] => []
  | b :: bs => (a, b) :: mem (a + 1) bs

/-- The reset state with a message in IBUF and its length in IN_LEN ("DECODE of b"). -/
def input (bs : List Byte) : State :=
  { State.reset with ibuf := mem 0 bs, inLen := BitVec.ofNat 32 bs.length }

/-- The reset state with option entries (number, offset, length) below COUNT. -/
def table (es : List (Nat × Nat × Nat)) (s : State) : State :=
  { s with
    optCount := BitVec.ofNat 32 es.length
    opts := es.map (fun e => { num := BitVec.ofNat 16 e.1, off := BitVec.ofNat 16 e.2.1, len := BitVec.ofNat 16 e.2.2 })
      ++ s.opts.drop es.length }

/-- The state an instruction leads to. -/
def after (i : Instr) (s : State) : State :=
  match exec i s with
  | .next t => t
  | .fault _ => s
  | .refused _ => s

theorem after_spec (i : Instr) (s : State) : exec i s = .next (after i s) := by
  obtain ⟨t, h⟩ := exec_next i s
  rw [after, h]

/-- The state a step leads to. -/
def afterStep (s : State) : State :=
  match step s with
  | .next t => t
  | .fault _ => s
  | .refused _ => s

theorem afterStep_spec (s : State) : step s = .next (afterStep s) := by
  rcases step_cases s with ⟨-, -, h⟩ | ⟨op, rest, -, -, h⟩ | ⟨w, f, -, -, -, h⟩ | ⟨w, -, -, -, -, h⟩
  · rw [afterStep, h]
  · rw [afterStep, h]
  · obtain ⟨t, ht⟩ := exec_next (decode f) s
    rw [afterStep, h, ht]
  · rw [afterStep, h]

/-- The known vector of the source (S6). -/
def known : List Byte :=
  [0x44, 0x01, 0x84, 0x9E, 0x51, 0x55, 0x77, 0xE8, 0xB2, 0x48, 0x69, 0x04, 0x54, 0x65, 0x73, 0x74, 0x43, 0x61, 0x3D, 0x31]

/-- The header of the derived vectors. -/
def H : List Byte := [0x40, 0x01, 0x00, 0x01]

/-- IB-A: "bax". -/
def ibA : Memory := mem 0 [0x62, 0x61, 0x78]

/-- IB-B, its first 16 bytes. -/
def ibB : Memory := mem 0 [0, 1, 2, 3, 4, 5, 6, 7, 8, 9, 10, 11, 12, 13, 14, 15]

/-- A DECODE that stands before the option header byte at address 4 of `H ++ bs`. -/
def atHeader (bs : List Byte) : State :=
  { input (H ++ bs) with
    phase := .busy 1, status := 1, walk := { stage := .atHeader, hdr := 0x00010140, cur := 4, acc := 0, opts := [] } }

/-- A DECODE that stands before byte 0. -/
def atStart (bs : List Byte) : State := { input bs with phase := .busy 1, status := 1, walk := Walk.start }

/-- A running command with host accesses to come and accesses that pass before its completion. -/
def running (w : Word) (ops : List HostOp) (delay : Nat) : State :=
  { State.reset with phase := .busy w, status := 1, port := ops, delay := delay }

/-- An idle block with host accesses to come. -/
def idleWith (ops : List HostOp) : State := { State.reset with port := ops }

/-! ### WellFormed: an ill-formed term for each check, which the check refuses -/

theorem test_wf_illegalCmd : ¬ WellFormed (.illegalCmd 1) ∧ ¬ WellFormed (.illegalCmd 5) := by decide
theorem test_wf_hdr0 : ¬ WellFormed (.hdr0 1 0 9) := by decide
theorem test_wf_hdr0TklReserved : ¬ WellFormed (.hdr0TklReserved 1 0 0) := by decide
theorem test_wf_optDeltaReserved : ¬ WellFormed (.optDeltaReserved 15) := by decide
theorem test_wf_optLengthReserved : ¬ WellFormed (.optLengthReserved 15) := by decide
theorem test_wf_optDdirLdir : ¬ WellFormed (.optDdirLdir 13 0) ∧ ¬ WellFormed (.optDdirLdir 0 13) := by decide
theorem test_wf_optDdirLx13 : ¬ WellFormed (.optDdirLx13 13) := by decide
theorem test_wf_optDdirLx14 : ¬ WellFormed (.optDdirLx14 13) := by decide
theorem test_wf_optDx13Ldir : ¬ WellFormed (.optDx13Ldir 13) := by decide
theorem test_wf_optDx14Ldir : ¬ WellFormed (.optDx14Ldir 13) := by decide

/-! ### Decoding: every constructor from a word written out from spec/30_encoding.md R81, R84, R88, R91, R92 -/

theorem test_decode_decode : decode (.cmd 0x00000001) = .decode := by decide
theorem test_decode_encode : decode (.cmd 0x00000002) = .encode := by decide
theorem test_decode_construct : decode (.cmd 0x00000003) = .construct := by decide
theorem test_decode_packf : decode (.cmd 0x00000004) = .packf := by decide
theorem test_decode_unpackf : decode (.cmd 0x00000005) = .unpackf := by decide
theorem test_decode_illegalCmd :
    decode (.cmd 0) = .illegalCmd 0 ∧ decode (.cmd 0x11) = .illegalCmd 0x11 ∧
    decode (.cmd 0x80000001) = .illegalCmd 0x80000001 := by decide
theorem test_decode_hdr0 : decode (.byte0 0b11_10_1000) = .hdr0 3 2 8 := by decide
theorem test_decode_hdr0TklReserved : decode (.byte0 0b01_11_1111) = .hdr0TklReserved 1 3 7 := by decide
theorem test_decode_payloadMarker : decode (.optHdr 0b1111_1111) = .payloadMarker := by decide
theorem test_decode_optDeltaReserved : decode (.optHdr 0b1111_1110) = .optDeltaReserved 14 := by decide
theorem test_decode_optLengthReserved : decode (.optHdr 0b1110_1111) = .optLengthReserved 14 := by decide
theorem test_decode_optDdirLdir : decode (.optHdr 0b1100_0000) = .optDdirLdir 12 0 := by decide
theorem test_decode_optDdirLx13 : decode (.optHdr 0b0000_1101) = .optDdirLx13 0 := by decide
theorem test_decode_optDdirLx14 : decode (.optHdr 0b0101_1110) = .optDdirLx14 5 := by decide
theorem test_decode_optDx13Ldir : decode (.optHdr 0b1101_1100) = .optDx13Ldir 12 := by decide
theorem test_decode_optDx13Lx13 : decode (.optHdr 0b1101_1101) = .optDx13Lx13 := by decide
theorem test_decode_optDx13Lx14 : decode (.optHdr 0b1101_1110) = .optDx13Lx14 := by decide
theorem test_decode_optDx14Ldir : decode (.optHdr 0b1110_0111) = .optDx14Ldir 7 := by decide
theorem test_decode_optDx14Lx13 : decode (.optHdr 0b1110_1101) = .optDx14Lx13 := by decide
theorem test_decode_optDx14Lx14 : decode (.optHdr 0b1110_1110) = .optDx14Lx14 := by decide

/-- The bits of the opcode table: a command word, a header byte, and bits of no row. -/
theorem test_decodeTableWord :
    decodeTableWord 32 3 = some .construct ∧ decodeTableWord 8 0xB2 = some (.optDdirLdir 11 2) ∧
    decodeTableWord 16 3 = none ∧ decodeTableWord 8 0x100 = none := by decide

/-- The two positions of the wire format read one byte differently. -/
theorem test_decodeWire :
    decodeWire .messageStart [0x44, 0x01] = .ok (.hdr0 1 0 4, [0x01]) ∧
    decodeWire .headerPosition [0x44, 0x01] = .ok (.optDdirLdir 4 4, [0x01]) ∧
    decodeWire .headerPosition [] = .error .endOfBytes := ⟨rfl, rfl, rfl⟩

/-! ### The commands -/

/-- S6: the registers after DECODE of the known vector. -/
theorem test_decode_known :
    (after .decode (input known)).msgHdr = 0x849E0144 ∧ (after .decode (input known)).payDesc = 0x00000014 ∧
    (after .decode (input known)).liveOpts =
      [{ num := 11, off := 9, len := 2 }, { num := 11, off := 12, len := 4 }, { num := 15, off := 17, len := 3 }] := by
  decide

/-- D9 and D16: the delta is checked before the length, and a number above 65535 is InvalidOptionDelta. -/
theorem test_decode_errors :
    (after .decode (input (H ++ [0xFE, 0x00, 0x00]))).status = 0x00000046 ∧
    (after .decode (input (H ++ [0xE0, 0xFF, 0xFF]))).status = 0x00000046 := by decide

/-- E6: ENCODE of the sorted table of S1. -/
theorem test_encode_sorted :
    (after .encode (table [(7, 2, 1), (11, 0, 1), (11, 1, 1)] { State.reset with msgHdr := 0x00010140, ibuf := ibA })).obufSeq 0 10 =
      [0x40, 0x01, 0x00, 0x01, 0x71, 0x78, 0x41, 0x62, 0x01, 0x61] := by decide

/-- E25 and E16: entry 0's range comes before entry 1's order; the Empty code drops the payload. -/
theorem test_encode_checks :
    (after .encode (table [(11, 255, 5), (7, 0, 1)] { State.reset with msgHdr := 0x00010140 })).status = 0x00000026 ∧
    (after .encode { State.reset with msgHdr := 0x00000040, payDesc := 0x00020000 }).outLen = 4 := by decide

/-- S1: the source's ordering example. -/
theorem test_construct_stable :
    (after .construct (table [(11, 0, 1), (11, 1, 1), (7, 2, 1)] State.reset)).liveOpts =
      [{ num := 7, off := 2, len := 1 }, { num := 11, off := 0, len := 1 }, { num := 11, off := 1, len := 1 }] := by decide

/-- R168: a count above the capacity. -/
theorem test_construct_count : (after .construct { State.reset with optCount := 33 }).status = 0x00000076 := by decide

/-- P10 and P11. -/
theorem test_packf_extended :
    (after .packf { State.reset with packIn := 65535 }).packOut = 0x00F2FE2E ∧
    (after .packf { State.reset with packIn := 65804 }).packOut = 0x00FFFF2E := by decide

/-- P12. -/
theorem test_packf_error : (after .packf { State.reset with packIn := 65805 }).status = 0x00000026 := by decide

/-- U9 and U10. -/
theorem test_unpackf_extended :
    (after .unpackf { State.reset with unpackIn := 0xAB00030E }).unpackOut = 0x002001B8 ∧
    (after .unpackf { State.reset with unpackIn := 0xFFFF021E }).unpackOut = 0x0021010C := by decide

/-- U11, U12 and U14. -/
theorem test_unpackf_errors :
    (after .unpackf { State.reset with unpackIn := 0x0000000F }).status = 0x00000046 ∧
    (after .unpackf { State.reset with unpackIn := 0x0000001F }).status = 0x00000056 ∧
    (after .unpackf { State.reset with unpackIn := 0x0000000D }).status = 0x00000056 := by decide

/-- K3. -/
theorem test_illegalCmd : (after (.illegalCmd 0x11) State.reset).status = 0x000000F6 := by decide

/-! ### The wire forms -/

/-- D6: TKL 8 in an input of 12 bytes. -/
theorem test_hdr0 :
    (after (.hdr0 1 0 8) (atStart [0x48, 1, 0, 1, 1, 2, 3, 4, 5, 6, 7, 8])).walk =
      { stage := .atHeader, hdr := 0x00010148, cur := 12, acc := 0, opts := [] } := by decide

/-- D5: TKL 9. -/
theorem test_hdr0TklReserved :
    (after (.hdr0TklReserved 1 0 1) (atStart [0x49, 1, 0, 1, 0, 0, 0, 0, 0, 0, 0, 0, 0, 0])).status = 0x00000036 := by decide

/-- D4 and D3: a marker with a payload, and as the last byte. -/
theorem test_payloadMarker :
    (after .payloadMarker (atHeader [0xFF, 0x41])).payDesc = 0x00010005 ∧
    (after .payloadMarker (atHeader [0xFF])).payDesc = 0x00000005 := by decide

/-- D8. -/
theorem test_optDeltaReserved : (after (.optDeltaReserved 0) (atHeader [0xF0])).status = 0x00000046 := by decide

/-- D10. -/
theorem test_optLengthReserved : (after (.optLengthReserved 0) (atHeader [0x0F])).status = 0x00000056 := by decide

/-- D20 and D18: a value of one byte, and a value that runs past the end. -/
theorem test_optDdirLdir :
    (after (.optDdirLdir 1 1) (atHeader [0x11, 0xFF])).walk.opts = [{ num := 1, off := 5, len := 1 }] ∧
    (after (.optDdirLdir 1 2) (atHeader [0x12, 0x41])).status = 0x00000056 := by decide

/-- D21. -/
theorem test_optDdirLx13 :
    (after (.optDdirLx13 0) (atHeader [0x0D, 0, 0, 1, 2, 3, 4, 5, 6, 7, 8, 9, 10, 11, 12])).walk.opts =
      [{ num := 0, off := 6, len := 13 }] := by decide

/-- R120: one of two length extension bytes is missing. -/
theorem test_optDdirLx14 : (after (.optDdirLx14 0) (atHeader [0x0E, 0])).status = 0x00000056 := by decide

/-- D19 and D12: FF as an extension byte, and a missing one. -/
theorem test_optDx13Ldir :
    (after (.optDx13Ldir 1) (atHeader [0xD1, 0xFF, 0x41])).walk.opts = [{ num := 268, off := 6, len := 1 }] ∧
    (after (.optDx13Ldir 0) (atHeader [0xD0])).status = 0x00000056 := by decide

/-- R87: the delta's extension byte stands before the length's. -/
theorem test_optDx13Lx13 :
    (after .optDx13Lx13 (atHeader [0xDD, 1, 0, 0, 0, 0, 0, 0, 0, 0, 0, 0, 0, 0, 0, 0])).walk.opts =
      [{ num := 14, off := 7, len := 13 }] := by decide

/-- R126: the delta resolves and the length's bytes are missing. -/
theorem test_optDx13Lx14 : (after .optDx13Lx14 (atHeader [0xDE, 0, 0])).status = 0x00000056 := by decide

/-- D15 and D16: the largest number, and a number above it. -/
theorem test_optDx14Ldir :
    (after (.optDx14Ldir 0) (atHeader [0xE0, 0xFE, 0xF2])).walk.opts = [{ num := 65535, off := 7, len := 0 }] ∧
    (after (.optDx14Ldir 0) (atHeader [0xE0, 0xFF, 0xFF])).status = 0x00000046 := by decide

/-- R87: both delta bytes are taken before the length byte. -/
theorem test_optDx14Lx13 :
    (after .optDx14Lx13 (atHeader [0xED, 0, 1, 0, 0, 0, 0, 0, 0, 0, 0, 0, 0, 0, 0, 0, 0])).walk.opts =
      [{ num := 270, off := 8, len := 13 }] := by decide

/-- R126, R127: the number bound is checked before the value's range. -/
theorem test_optDx14Lx14 :
    (after .optDx14Lx14 (atHeader [0xEE, 0xFF, 0xFF, 0, 0])).status = 0x00000046 ∧
    (after .optDx14Lx14 (atHeader [0xEE, 0, 0, 0, 0])).status = 0x00000056 := by decide

/-! ### The ports, one step each -/

/-- K9: what a write of all ones leaves in UNPACK_IN and in OPT_NUM[31]. -/
theorem test_reserved_bits :
    (afterStep (idleWith [wreg .unpackIn 0xFFFFFFFF])).unpackIn = 0xFFFF031F ∧
    hostReadReg (afterStep (idleWith [wreg (.optNum 31) 0xFFFFFFFF])) 0x07E = 0x0000FFFF := by decide

/-- K10, K11 and K8: read-only registers, CMD, and unmapped offsets. -/
theorem test_ignored_writes :
    afterStep (idleWith [wreg .outLen 7]) = State.reset ∧
    afterStep (idleWith [wreg (.optNum 32) 7]) = State.reset ∧ hostReadReg State.reset 0x080 = 0 := by decide

/-- K1: the configuration registers. -/
theorem test_cfg : hostReadReg State.reset 0x00C = 0x00000020 ∧ hostReadReg State.reset 0x00D = 0x01000100 := by decide

/-- K2 and K4: acceptance, and STATUS while busy. -/
theorem test_acceptance :
    (afterStep (idleWith [wreg .cmd 0])).phase = .busy 0 ∧ (afterStep (idleWith [wreg .cmd 0])).status = 1 ∧
    (afterStep (running 0 [] 0)).status = 0x000000F6 := by decide

/-- K13: reset while a command runs. -/
theorem test_reset_abandons : (afterStep (running 2 [.reset] 1)).phase = .idle ∧ (afterStep (running 2 [.reset] 1)).outLen = 0 := by
  decide

/-- The host's placement of an instruction, from reset. -/
theorem test_withFetchWord :
    (afterStep (State.reset.withFetchWord 32 4)).status = 2 ∧
    (afterStep (State.reset.withFetchWord 8 0xD0)).walk.opts = [{ num := 13, off := 6, len := 0 }] := by decide

/-! ### Witnesses: a state and operands that meet the hypotheses of each statement, clause by clause -/

/-- The invariant holds of the states the witnesses use. -/
theorem inv_idleWith (ops : List HostOp) : (idleWith ops).Inv :=
  ⟨by show Params.reference.Legal; decide, rfl, by show State.reset.BuffersInv; decide,
    by show State.reset.ReservedInv; decide, by show State.reset.status ∈ _; decide, rfl⟩

theorem inv_running (w : Word) (ops : List HostOp) (d : Nat) : (running w ops d).Inv :=
  ⟨by show Params.reference.Legal; decide, rfl, by show State.reset.BuffersInv; decide,
    ⟨by show (1 : Word) &&& _ = 0; decide, (by decide : State.reset.ReservedInv).2⟩, rfl, rfl⟩

theorem turn_running (w : Word) (op : HostOp) (rest : List HostOp) : HostTurn (running w (op :: rest) 1) op rest :=
  ⟨rfl, .inr Nat.one_pos⟩

theorem turn_idleWith (op : HostOp) (rest : List HostOp) : HostTurn (idleWith (op :: rest)) op rest := ⟨rfl, .inl rfl⟩

/-- Below, just above and far above the legal words. -/
theorem witness_CommandWordsDecode_and_IllegalWords :
    ((0 : Word).toNat = 0 ∨ 5 < (0 : Word).toNat) ∧ ((6 : Word).toNat = 0 ∨ 5 < (6 : Word).toNat) ∧
    ((0x10000001 : Word).toNat = 0 ∨ 5 < (0x10000001 : Word).toNat) := by decide

theorem witness_DecodeOfEncodeIsTheInstruction :
    WellFormed (.illegalCmd 6) ∧ WellFormed (.hdr0 3 3 8) ∧ WellFormed (.hdr0TklReserved 3 3 7) ∧
    WellFormed (.optDeltaReserved 14) ∧ WellFormed (.optLengthReserved 14) ∧ WellFormed (.optDdirLdir 12 12) ∧
    WellFormed .optDx14Lx14 := by decide

theorem witness_HeaderBytesAreClassifiedInPriority :
    (0xFF : Byte).toNat = 255 ∧
    (0xFE : Byte).toNat ≠ 255 ∧ (0xFE : Byte).toNat / 16 = 15 ∧
    (0xEF : Byte).toNat / 16 ≤ 14 ∧ (0xEF : Byte).toNat % 16 = 15 ∧
    (0xEE : Byte).toNat / 16 ≤ 14 ∧ (0xEE : Byte).toNat % 16 ≤ 14 := by decide

/-- Both ends of the three classes, and the first value above them. -/
theorem witness_PackfWritesSelectorAndExtension :
    packInValue 12 ≤ 12 ∧ 13 ≤ packInValue 13 ∧ packInValue 268 ≤ 268 ∧ 269 ≤ packInValue 269 ∧
    (∃ s : State, packInValue s.packIn = 65804) ∧ ∃ s : State, packInValue s.packIn = 65805 := by
  refine ⟨by decide, by decide, by decide, by decide, ⟨{ State.reset with packIn := 65804 }, by decide⟩,
    { State.reset with packIn := 65805 }, by decide⟩

/-- The largest direct selector, 13 with one byte, 14 with two; and each of the four errors. -/
theorem witness_UnpackfResolvesOrFails :
    (∃ s : State, (unpackInSel s.unpackIn).toNat = 12) ∧
    (∃ s : State, (unpackInSel s.unpackIn).toNat = 13 ∧ unpackInAvail s.unpackIn = 1) ∧
    (∃ s : State, (unpackInSel s.unpackIn).toNat = 14 ∧ unpackInAvail s.unpackIn = 2) ∧
    (∃ s : State, (unpackInSel s.unpackIn).toNat = 15 ∧ s.unpackIn.getLsbD 4 = false) ∧
    (∃ s : State, (unpackInSel s.unpackIn).toNat = 15 ∧ s.unpackIn.getLsbD 4 = true) ∧
    (∃ s : State, (unpackInSel s.unpackIn).toNat = 13 ∧ unpackInAvail s.unpackIn = 0) ∧
    ∃ s : State, (unpackInSel s.unpackIn).toNat = 14 ∧ unpackInAvail s.unpackIn = 1 :=
  ⟨⟨{ State.reset with unpackIn := 0x0000000C }, by decide⟩, ⟨{ State.reset with unpackIn := 0x0000010D }, by decide⟩,
    ⟨{ State.reset with unpackIn := 0x0000020E }, by decide⟩, ⟨{ State.reset with unpackIn := 0x0000000F }, by decide⟩,
    ⟨{ State.reset with unpackIn := 0x0000001F }, by decide⟩, ⟨{ State.reset with unpackIn := 0x0000000D }, by decide⟩,
    ⟨{ State.reset with unpackIn := 0x0000010E }, by decide⟩⟩

theorem witness_PackAndUnpackAreInverse :
    65804 ≤ 65804 ∧ unpack 14 .length [0xFF, 0xFF, 0x00] = .ok { value := 65804, consumed := 2 } := by decide

/-- A full table, and a count of one more. -/
theorem witness_ConstructSortsTheTableStably :
    (∃ s : State, countField s.optCount = s.maxOpts) ∧ ∃ s : State, countField s.optCount = s.maxOpts + 1 :=
  ⟨⟨{ State.reset with optCount := 32 }, by decide⟩, { State.reset with optCount := 33 }, by decide⟩

def e11 : OptEntry := { num := 11, off := 0, len := 1 }
def e11' : OptEntry := { num := 11, off := 1, len := 1 }
def e7 : OptEntry := { num := 7, off := 2, len := 1 }

theorem witness_StableSortIsTheUniqueStableOrder :
    SortedByNum [e7, e11, e11'] ∧ ∀ n, withNum n [e7, e11, e11'] = withNum n [e11, e11', e7] := by
  refine ⟨by show List.Pairwise _ _; decide, fun n => ?_⟩
  by_cases h7 : (7 : Half) = n
  · subst h7; decide
  · have : withNum n [e7, e11, e11'] = withNum n [e11, e11'] := by
      simp only [withNum, List.filter_cons, e7, h7, decide_false, Bool.false_eq_true, if_false]
    rw [this]
    simp only [withNum, List.filter_cons, List.filter_nil, e7, h7, decide_false, Bool.false_eq_true, if_false]

/-- The unsorted table of S1, sorted and encoded. -/
theorem witness_ConstructEstablishesTheEncodersOrder :
    ∃ s t u : State, exec .construct s = .next t ∧ t.status = 0x00000002 ∧ exec .encode t = .next u :=
  ⟨table [(11, 0, 1), (11, 1, 1), (7, 2, 1)] { State.reset with msgHdr := 0x00010140, ibuf := ibA }, _, _,
    after_spec _ _, by decide, after_spec _ _⟩

/-- A configuration for messages of at most 8 bytes. -/
def tiny : State := State.resetWith { maxPacketSize := 8, maxOptions := 2, ibufSize := 16 }

/-- The sorted table of S1; a message with an Empty code whose payload lies outside IBUF (E17); a message of exactly
MAX_PACKET_SIZE bytes (like E7, for a smaller configuration). -/
theorem witness_EncodeEmitsTheMessage :
    Encodable (table [(7, 2, 1), (11, 0, 1), (11, 1, 1)] { State.reset with msgHdr := 0x00010140, ibuf := ibA }) ∧
    Encodable { State.reset with msgHdr := 0x00000040, payDesc := 0x000A00FF } ∧
    (Encodable { tiny with msgHdr := 0x00004540, payDesc := 0x00030000 } ∧
      (wire (sent (messageOf { tiny with msgHdr := 0x00004540, payDesc := 0x00030000 })) false).length = tiny.maxPacket) := by
  refine ⟨?_, ?_, ?_, by decide⟩ <;> (unfold Claim.Encodable SortedByNum; decide)

theorem witness_EncodeReportsItsFirstFailingCheck_count_and_token :
    (∃ s : State, countField s.optCount = s.maxOpts + 1) ∧
    (∃ s : State, countField s.optCount ≤ s.maxOpts ∧ (hdrTkl s.msgHdr).toNat = 9) ∧
    ∃ s : State, countField s.optCount ≤ s.maxOpts ∧ (hdrTkl s.msgHdr).toNat ≤ 8 ∧
      ¬ inRange s.ibufSize (lowHalf s.tokDesc) (hdrTkl s.msgHdr).toNat :=
  ⟨⟨{ State.reset with optCount := 33 }, by decide⟩, ⟨{ State.reset with msgHdr := 0x00010149 }, by decide⟩,
    ⟨{ State.reset with msgHdr := 0x00010144, tokDesc := 253 }, by decide⟩⟩

/-- The second entry below the first (E4), and the first entry one byte out of range (E21). -/
theorem witness_EncodeReportsItsFirstFailingCheck_options :
    (∃ (s : State) (e : OptEntry), countField s.optCount ≤ s.maxOpts ∧ (hdrTkl s.msgHdr).toNat ≤ 8 ∧
      inRange s.ibufSize (lowHalf s.tokDesc) (hdrTkl s.msgHdr).toNat ∧
      (∀ j e', j < 1 → s.liveOpts[j]? = some e' →
        inOrderAt s.liveOpts j ∧ inRange s.ibufSize e'.off.toNat e'.len.toNat) ∧
      s.liveOpts[1]? = some e ∧ ¬ inOrderAt s.liveOpts 1) ∧
    ∃ (s : State) (e : OptEntry), countField s.optCount ≤ s.maxOpts ∧ (hdrTkl s.msgHdr).toNat ≤ 8 ∧
      inRange s.ibufSize (lowHalf s.tokDesc) (hdrTkl s.msgHdr).toNat ∧
      (∀ j e', j < 0 → s.liveOpts[j]? = some e' →
        inOrderAt s.liveOpts j ∧ inRange s.ibufSize e'.off.toNat e'.len.toNat) ∧
      s.liveOpts[0]? = some e ∧ inOrderAt s.liveOpts 0 ∧ ¬ inRange s.ibufSize e.off.toNat e.len.toNat := by
  refine ⟨⟨table [(11, 0, 1), (7, 2, 1)] State.reset, { num := 7, off := 2, len := 1 }, by decide, by decide, by decide,
    ?_, by decide, ?_⟩, ⟨table [(1, 255, 2)] State.reset, { num := 1, off := 255, len := 2 }, by decide, by decide,
    by decide, fun j _ h => absurd h (Nat.not_lt_zero j), by decide, fun _ _ h => absurd h (Nat.lt_irrefl 0), by decide⟩⟩
  · intro j e' hj he
    have hj : j = 0 := by omega
    subst hj
    have h0 : (table [(11, 0, 1), (7, 2, 1)] State.reset).liveOpts[0]? = some { num := 11, off := 0, len := 1 } := by decide
    rw [h0] at he
    cases he
    exact ⟨fun _ _ h => absurd h (Nat.lt_irrefl 0), by decide⟩
  · intro h
    have := h { num := 11, off := 0, len := 1 } { num := 7, off := 2, len := 1 } Nat.one_pos (by decide) (by decide)
    exact absurd this (by decide)

/-- A payload one byte out of range, and a message one byte too long (like E8). -/
theorem witness_EncodeReportsItsFirstFailingCheck_payload_and_size :
    (∃ s : State, countField s.optCount ≤ s.maxOpts ∧ (hdrTkl s.msgHdr).toNat ≤ 8 ∧
      inRange s.ibufSize (lowHalf s.tokDesc) (hdrTkl s.msgHdr).toNat ∧ SortedByNum s.liveOpts ∧
      (∀ e ∈ s.liveOpts, inRange s.ibufSize e.off.toNat e.len.toNat) ∧ hdrCode s.msgHdr ≠ 0 ∧
      ¬ inRange s.ibufSize (lowHalf s.payDesc) (highHalf s.payDesc)) ∧
    ∃ s : State, countField s.optCount ≤ s.maxOpts ∧ (hdrTkl s.msgHdr).toNat ≤ 8 ∧
      inRange s.ibufSize (lowHalf s.tokDesc) (hdrTkl s.msgHdr).toNat ∧ SortedByNum s.liveOpts ∧
      (∀ e ∈ s.liveOpts, inRange s.ibufSize e.off.toNat e.len.toNat) ∧
      s.maxPacket < (wire (sent (messageOf s)) false).length :=
  ⟨⟨{ State.reset with msgHdr := 0x00004540, payDesc := 0x000200FF }, by unfold SortedByNum; decide⟩,
    ⟨{ tiny with msgHdr := 0x00004540, payDesc := 0x00040000 }, by unfold SortedByNum; decide⟩⟩

/-- IN_LEN 257, 3 bytes, TKL 9, and a token cut off. -/
theorem witness_DecodeRejectsBadHeaders :
    (∃ s : State, inputLen s = s.ibufSize + 1) ∧ (∃ s : State, inputLen s ≤ s.ibufSize ∧ inputLen s = 3) ∧
    (∃ s : State, inputLen s ≤ s.ibufSize ∧ 4 ≤ inputLen s ∧ (s.ibufAt 0).toNat % 16 = 9) ∧
    ∃ s : State, inputLen s ≤ s.ibufSize ∧ 4 ≤ inputLen s ∧ (s.ibufAt 0).toNat % 16 = 8 ∧ inputLen s = 11 :=
  ⟨⟨{ State.reset with inLen := 257 }, by decide⟩, ⟨{ State.reset with inLen := 3 }, by decide⟩,
    ⟨input [0x49, 1, 0, 1], by decide⟩, ⟨input [0x48, 1, 0, 1, 1, 2, 3, 4, 5, 6, 7], by decide⟩⟩

/-- The message of S6. -/
def knownMessage : Message :=
  { ver := 1, typ := 0, code := 1, mid := 33950, token := [0x51, 0x55, 0x77, 0xE8]
    options := [(11, [0x48, 0x69]), (11, [0x54, 0x65, 0x73, 0x74]), (15, [0x61, 0x3D, 0x31])], payload := [] }

/-- The known vector, and the same with a bare marker. -/
theorem witness_DecodeReadsTheMessage :
    knownMessage.token.length ≤ 8 ∧ knownMessage.options.length ≤ (input known).maxOpts ∧
    knownMessage.options.Pairwise (fun a b => a.1.toNat ≤ b.1.toNat) ∧
    inputLen (input known) ≤ (input known).ibufSize ∧
    (input known).ibufSeq 0 (inputLen (input known)) = wire knownMessage false ∧
    (input (known ++ [0xFF])).ibufSeq 0 (inputLen (input (known ++ [0xFF]))) = wire knownMessage true := by decide

theorem witness_DecodeAcceptsOnlyWireMessages :
    ∃ s t : State, exec .decode s = .next t ∧ t.status = 0x00000002 := ⟨input known, _, after_spec _ _, by decide⟩

theorem witness_DecodeEstablishesTheMessageInvariants :
    ∃ s t : State, exec .decode s = .next t ∧ t.status = 0x00000002 ∧ 0 < countField t.optCount :=
  ⟨input known, _, after_spec _ _, by decide, by decide⟩

/-- The longest token, in an input that it fills. -/
theorem witness_HeaderFormStartsTheOptions :
    ∃ (s : State) (tkl : Nibble), tkl.toNat = 8 ∧ inputLen s ≤ s.ibufSize ∧ 4 + tkl.toNat = inputLen s :=
  ⟨atStart [0x48, 1, 0, 1, 1, 2, 3, 4, 5, 6, 7, 8], 8, by decide⟩

theorem witness_HeaderFormsReportTheirErrors :
    (∃ (s : State) (tkl : Nibble), tkl.toNat ≤ 8 ∧ inputLen s = s.ibufSize + 1) ∧
    (∃ (s : State) (tkl : Nibble), tkl.toNat ≤ 8 ∧ inputLen s = 3) ∧
    (∃ (s : State) (tkl : Nibble), tkl.toNat ≤ 8 ∧ inputLen s ≤ s.ibufSize ∧ 4 ≤ inputLen s ∧
      inputLen s + 1 = 4 + tkl.toNat) ∧
    (∃ (s : State) (k : BitVec 3), k.toNat ≠ 0 ∧ inputLen s = s.ibufSize + 1) ∧
    (∃ (s : State) (k : BitVec 3), k.toNat ≠ 0 ∧ inputLen s = 3) ∧
    ∃ (s : State) (k : BitVec 3), k.toNat ≠ 0 ∧ inputLen s ≤ s.ibufSize ∧ inputLen s = 4 :=
  ⟨⟨{ State.reset with inLen := 257 }, 8, by decide⟩, ⟨input [0x48, 1, 0], 8, by decide⟩,
    ⟨input [0x48, 1, 0, 1, 1, 2, 3, 4, 5, 6, 7], 8, by decide⟩, ⟨{ State.reset with inLen := 257 }, 1, by decide⟩,
    ⟨input [0x49, 1, 0], 1, by decide⟩, ⟨input [0x49, 1, 0, 1], 1, by decide⟩⟩

/-- A marker with one byte after it, and a marker as the last byte. -/
theorem witness_MarkerFormCommitsTheMessage :
    (∃ s : State, s.walk.cur < inputLen s ∧ s.walk.opts.length < 256 ∧ s.walk.cur + 1 < inputLen s) ∧
    ∃ s : State, s.walk.cur < inputLen s ∧ s.walk.opts.length < 256 ∧ s.walk.cur + 1 = inputLen s :=
  ⟨⟨atHeader [0xFF, 0x41], by decide⟩, ⟨atHeader [0xFF], by decide⟩⟩

theorem witness_ReservedSelectorFormsFail : (14 : Nibble).toNat ≤ 14 ∧ (0 : Nibble).toNat ≤ 14 := by decide

/-- The largest option number, in an input that the option fills; and both lengths on the wire. -/
theorem witness_OptionFormsAppendTheirOption :
    (∃ s : State, optionSelectors (.optDx14Ldir 0) = some (14, 0) ∧ WellFormed (.optDx14Ldir 0) ∧
      s.walk.acc + fieldAt s 14 (s.walk.cur + 1) = 65535 ∧
      s.walk.cur + 1 + extra 14 + extra 0 + fieldAt s 0 (s.walk.cur + 1 + extra 14) = inputLen s ∧
      s.walk.opts.length < s.maxOpts) ∧
    ∃ s : State, optionSelectors .optDx13Lx13 = some (13, 13) ∧ WellFormed .optDx13Lx13 ∧
      s.walk.acc + fieldAt s 13 (s.walk.cur + 1) ≤ 65535 ∧
      s.walk.cur + 1 + extra 13 + extra 13 + fieldAt s 13 (s.walk.cur + 1 + extra 13) ≤ inputLen s ∧
      s.walk.opts.length < s.maxOpts :=
  ⟨⟨atHeader [0xE0, 0xFE, 0xF2], by decide⟩, ⟨atHeader [0xDD, 1, 0, 0, 0, 0, 0, 0, 0, 0, 0, 0, 0, 0, 0, 0], by decide⟩⟩

/-- A missing length byte, number 65536, a value one byte too long, and a full table. -/
theorem witness_OptionFormsReportTheirFirstError :
    (∃ s : State, optionSelectors (.optDdirLx13 0) = some (0, 13) ∧ WellFormed (.optDdirLx13 0) ∧
      s.walk.cur < inputLen s ∧ inputLen s + 1 = s.walk.cur + 1 + extra 0 + extra 13) ∧
    (∃ s : State, optionSelectors (.optDx14Ldir 0) = some (14, 0) ∧ WellFormed (.optDx14Ldir 0) ∧
      s.walk.cur < inputLen s ∧ s.walk.cur + 1 + extra 14 + extra 0 ≤ inputLen s ∧
      s.walk.acc + fieldAt s 14 (s.walk.cur + 1) = 65536) ∧
    (∃ s : State, optionSelectors (.optDdirLdir 1 2) = some (1, 2) ∧ WellFormed (.optDdirLdir 1 2) ∧
      s.walk.cur < inputLen s ∧ s.walk.cur + 1 + extra 1 + extra 2 ≤ inputLen s ∧ s.walk.acc + fieldAt s 1 0 ≤ 65535 ∧
      inputLen s + 1 = s.walk.cur + 1 + extra 1 + extra 2 + fieldAt s 2 0) ∧
    ∃ s : State, optionSelectors (.optDdirLdir 0 0) = some (0, 0) ∧ WellFormed (.optDdirLdir 0 0) ∧
      s.walk.cur < inputLen s ∧ s.walk.cur + 1 + extra 0 + extra 0 + fieldAt s 0 0 ≤ inputLen s ∧
      s.walk.acc + fieldAt s 0 0 ≤ 65535 ∧ s.walk.opts.length = s.maxOpts :=
  ⟨⟨atHeader [0x0D], by decide⟩, ⟨atHeader [0xE0, 0xFE, 0xF3], by decide⟩, ⟨atHeader [0x12, 0x41], by decide⟩,
    ⟨{ atHeader [0x00] with
        walk := { stage := .atHeader, hdr := 0, cur := 4, acc := 0, opts := List.replicate 32 { num := 0, off := 4, len := 0 } } },
      by decide⟩⟩

theorem witness_DecodeIsItsWireForms : ∃ s : State, EngineTurn s 1 ∧ s.walk = Walk.idle ∧ 0 < inputLen s :=
  ⟨{ input known with phase := .busy 1, status := 1 }, ⟨rfl, .inl rfl⟩, rfl, by decide⟩

theorem witness_CommandWriteIsAccepted :
    ∃ (s : State) (rest : List HostOp), s.phase = .idle ∧ s.port = .wreg 0 0xFFFFFFFF :: rest :=
  ⟨idleWith [.wreg 0 0xFFFFFFFF, .wait], [.wait], rfl, rfl⟩

/-- A second command word, an IBUF byte and an OBUF byte while a command runs; and a read of STATUS. -/
theorem witness_BusyBlockIgnoresWritesAndShowsItsState :
    ((running 2 [.wreg 0 1] 1).phase = .busy 2 ∧ HostTurn (running 2 [.wreg 0 1] 1) (.wreg 0 1) [] ∧
      isWrite (.wreg 0 1) = true) ∧
    (HostTurn (running 2 [.wibuf 255 9] 1) (.wibuf 255 9) [] ∧ isWrite (.wibuf 255 9) = true) ∧
    (HostTurn (running 2 [.wobuf 0 9] 1) (.wobuf 0 9) [] ∧ isWrite (.wobuf 0 9) = true) ∧
    (running 2 [.rreg 1] 1).Inv ∧ HostTurn (running 2 [.rreg 1] 1) (.rreg 1) [] ∧
      (readValue (running 2 [.rreg 1] 1) (.rreg 1)).isSome :=
  ⟨⟨rfl, turn_running _ _ _, rfl⟩, ⟨turn_running _ _ _, rfl⟩, ⟨turn_running _ _ _, rfl⟩, inv_running _ _ _,
    turn_running _ _ _, rfl⟩

/-- A register, an IBUF byte and an OBUF byte, of an idle and of a busy block. -/
theorem witness_ReadsReturnTheHeldValueWithoutEffect :
    (HostTurn (idleWith [.rreg 0x00C]) (.rreg 0x00C) [] ∧ (readValue (idleWith [.rreg 0x00C]) (.rreg 0x00C)).isSome) ∧
    (HostTurn (running 2 [.ribuf 256] 1) (.ribuf 256) [] ∧ (readValue (running 2 [.ribuf 256] 1) (.ribuf 256)).isSome) ∧
    HostTurn (running 2 [.robuf 0] 1) (.robuf 0) [] ∧ (readValue (running 2 [.robuf 0] 1) (.robuf 0)).isSome :=
  ⟨⟨turn_idleWith _ _, rfl⟩, ⟨turn_running _ _ _, rfl⟩, turn_running _ _ _, rfl⟩

theorem witness_WaitReadsStatusUntilIdle :
    ((idleWith [.wait]).Inv ∧ HostTurn (idleWith [.wait]) .wait [] ∧ (idleWith [.wait]).phase = .idle) ∧
    (running 2 [.wait] 1).Inv ∧ HostTurn (running 2 [.wait] 1) .wait [] ∧ ∃ w, (running 2 [.wait] 1).phase = .busy w :=
  ⟨⟨inv_idleWith _, turn_idleWith _ _, rfl⟩, inv_running _ _ _, turn_running _ _ _, 2, rfl⟩

/-- With no access to come, and with accesses to come but the delay used up. -/
theorem witness_StepExecutesTheAcceptedCommand :
    (EngineTurn (running 4 [] 3) 4 ∧ (running 4 [] 3).walk.stage = .off) ∧
    EngineTurn (running 7 [.wait] 0) 7 ∧ (running 7 [.wait] 0).walk.stage = .off :=
  ⟨⟨⟨rfl, .inl rfl⟩, rfl⟩, ⟨rfl, .inr rfl⟩, rfl⟩

theorem witness_StepExecutesTheWireForm :
    (EngineTurn (atStart known) 1 ∧ (atStart known).walk.stage = .atByte0) ∧
    (EngineTurn (atHeader [0xFF]) 1 ∧ (atHeader [0xFF]).walk.stage = .atHeader ∧
      (atHeader [0xFF]).walk.cur + 1 = inputLen (atHeader [0xFF])) ∧
    EngineTurn (atHeader []) 1 ∧ (atHeader []).walk.stage = .atHeader ∧ (atHeader []).walk.cur = inputLen (atHeader []) ∧
      (atHeader []).walk.opts.length < 256 :=
  ⟨⟨⟨rfl, .inl rfl⟩, rfl⟩, ⟨⟨rfl, .inl rfl⟩, rfl, by decide⟩, ⟨rfl, .inl rfl⟩, rfl, by decide, by decide⟩

theorem witness_IdleBlockWaits : State.reset.phase = .idle ∧ State.reset.port = [] := ⟨rfl, rfl⟩

theorem witness_FailedCommandsChangeOnlyStatus :
    ∃ (s t : State) (w : Word), exec (decode (.cmd w)) s = .next t ∧ t.status ≠ 0x00000002 :=
  ⟨State.reset, _, 1, after_spec _ _, by decide⟩

theorem witness_CommandsRaiseOnlyTheirErrors (s : State) :
    (∃ t, exec .decode s = .next t) ∧ (∃ t, exec .encode s = .next t) ∧ (∃ t, exec .construct s = .next t) ∧
    (∃ t, exec .packf s = .next t) ∧ ∃ t, exec .unpackf s = .next t :=
  ⟨⟨_, after_spec _ _⟩, ⟨_, after_spec _ _⟩, ⟨_, after_spec _ _⟩, ⟨_, after_spec _ _⟩, ⟨_, after_spec _ _⟩⟩

theorem witness_DelayedCommandGivesTheAcceptanceResult :
    (running 1 [.wreg 2 3, .rreg 1, .wait] 2).phase = .busy 1 ∧ (running 1 [.wreg 2 3, .rreg 1, .wait] 2).walk = Walk.idle ∧
    ∀ op ∈ (running 1 [.wreg 2 3, .rreg 1, .wait] 2).port, op ≠ .reset := ⟨rfl, rfl, by decide⟩

/-- A read, and a write of another register. -/
theorem witness_StatusStaysUntilTheNextCommandOrReset :
    ∃ s t : State, s.phase = .idle ∧ step s = .next t ∧ (∀ v rest, s.port ≠ .wreg 0 v :: rest) ∧
      (∀ rest, s.port ≠ .reset :: rest) ∧ s.port = [.wreg 2 3] := by
  refine ⟨idleWith [.wreg 2 3], _, rfl, afterStep_spec _, ?_, ?_, rfl⟩
  · intro v rest h
    injection h with h _; injection h with h _; exact absurd h (by decide)
  · intro rest h
    injection h with h _; cases h

/-- The last entry of the table, and both ends of the unmapped offsets. -/
theorem witness_RegisterMapReads :
    31 < State.reset.maxOpts ∧ State.reset.opts[31]? = some { num := 0, off := 0, len := 0 } ∧
    0x00E ≤ (0x00E : BitVec 10).toNat ∧ (0x03F : BitVec 10).toNat < 0x040 ∧
    0x040 + 2 * State.reset.maxOpts ≤ (0x080 : BitVec 10).toNat := by decide

/-- A register with named fields, a read-only one, and an unmapped offset. -/
theorem witness_RegisterWritesStoreNamedFields :
    (∃ (s : State) (v : Word), s.Inv ∧ s.phase = .idle ∧ s.port = [.wreg 0x07E v] ∧
      storedBits s.maxOpts (0x07E : BitVec 10).toNat ≠ 0) ∧
    (∃ (s : State) (v : Word), s.Inv ∧ s.phase = .idle ∧ s.port = [.wreg 0x003 v] ∧
      storedBits s.maxOpts (0x003 : BitVec 10).toNat = 0) ∧
    ∃ (s : State) (v : Word), s.Inv ∧ s.phase = .idle ∧ s.port = [.wreg 0x080 v] ∧
      storedBits s.maxOpts (0x080 : BitVec 10).toNat = 0 :=
  ⟨⟨idleWith [.wreg 0x07E 9], 9, inv_idleWith _, rfl, rfl, by decide⟩,
    ⟨idleWith [.wreg 0x003 9], 9, inv_idleWith _, rfl, rfl, by decide⟩,
    ⟨idleWith [.wreg 0x080 9], 9, inv_idleWith _, rfl, rfl, by decide⟩⟩

/-- The last byte of IBUF, and the first address outside it. -/
theorem witness_IbufWritesWriteOneByte :
    (∃ s : State, s.phase = .idle ∧ s.port = [.wibuf 255 9] ∧ 255 < s.ibufSize) ∧
    ∃ s : State, s.phase = .idle ∧ s.port = [.wibuf 256 9] ∧ s.ibufSize ≤ 256 :=
  ⟨⟨idleWith [.wibuf 255 9], rfl, rfl, by decide⟩, ⟨idleWith [.wibuf 256 9], rfl, rfl, by decide⟩⟩

theorem witness_ObufWritesAreIgnoredAndOutsideReadsZero :
    (∃ s : State, s.phase = .idle ∧ s.port = [.wobuf 0 9]) ∧ State.reset.ibufSize ≤ 256 ∧ State.reset.maxPacket ≤ 256 :=
  ⟨⟨idleWith [.wobuf 0 9], rfl, rfl⟩, by decide, by decide⟩

theorem witness_ResetInputResetsRegistersAndKeepsBuffers :
    ((idleWith [.reset]).Inv ∧ HostTurn (idleWith [.reset]) .reset []) ∧
    (running 2 [.reset] 1).Inv ∧ HostTurn (running 2 [.reset] 1) .reset [] :=
  ⟨⟨inv_idleWith _, turn_idleWith _ _⟩, inv_running _ _ _, turn_running _ _ _⟩

/-- The smallest and the largest configuration. -/
theorem witness_CommandsAfterReset_and_ResetMeetsTheInvariant :
    Params.Legal { maxPacketSize := 4, maxOptions := 1, ibufSize := 4 } ∧
    Params.Legal { maxPacketSize := 65535, maxOptions := 255, ibufSize := 65535 } := by decide

theorem witness_StepKeepsTheInvariant :
    (∃ s t : State, s.Inv ∧ step s = .next t ∧ s.port ≠ []) ∧ ∃ (s t : State) (w : Word), s.Inv ∧ step s = .next t ∧ s.phase = .busy w :=
  ⟨⟨idleWith [.wibuf 0 9], _, inv_idleWith _, afterStep_spec _, by decide⟩,
    ⟨running 2 [] 0, _, 2, inv_running _ _ _, afterStep_spec _, rfl⟩⟩

theorem witness_ParametersAndInputsAreNotWrittenByTheEngine :
    ∃ (s t : State) (w : Word), step s = .next t ∧ EngineTurn s w :=
  ⟨running 2 [] 0, _, 2, afterStep_spec _, rfl, .inl rfl⟩

/-- A DECODE that changes the message registers, and an ENCODE that changes OUT_LEN. -/
theorem witness_EngineWritersAreTheListedOnes :
    (∃ s t : State, EngineTurn s 1 ∧ s.walk = Walk.idle ∧ step s = .next t ∧ t.msgHdr ≠ s.msgHdr) ∧
    ∃ s t : State, EngineTurn s 2 ∧ s.walk = Walk.idle ∧ step s = .next t ∧ t.outLen ≠ s.outLen :=
  ⟨⟨{ input known with phase := .busy 1, status := 1 }, _, ⟨rfl, .inl rfl⟩, rfl, afterStep_spec _, by decide⟩,
    ⟨running 2 [] 0, _, ⟨rfl, .inl rfl⟩, rfl, afterStep_spec _, by decide⟩⟩

/-- S5: a message with a payload is encoded, and its bytes are put into IBUF; and the known vector is decoded. -/
theorem witness_EncodeAndDecodeRoundTrip :
    (∃ s t u : State, exec .encode s = .next t ∧ t.status = 0x00000002 ∧
      (hdrCode s.msgHdr ≠ 0 ∨ highHalf s.payDesc = 0) ∧ u.params = s.params ∧ inputLen u = t.outLen.toNat ∧
      inputLen u ≤ u.ibufSize ∧ u.ibufSeq 0 (inputLen u) = t.obufSeq 0 (inputLen u)) ∧
    ∃ s t : State, exec .decode s = .next t ∧ t.status = 0x00000002 ∧
      s.ibufSeq 0 (inputLen s) = wire (messageOf t) false ∧ hdrCode t.msgHdr ≠ 0 ∧ inputLen s ≤ s.maxPacket :=
  ⟨⟨{ State.reset with msgHdr := 0x00014540, payDesc := 0x00020000, ibuf := mem 0 [0x68, 0x69] }, _,
    input [0x40, 0x45, 0x00, 0x01, 0xFF, 0x68, 0x69], after_spec _ _, by decide, .inl (by decide), rfl, by decide, by decide,
    by decide⟩, ⟨input known, _, after_spec _ _, by decide, by decide, by decide, by decide⟩⟩

/-- The known vector (no payload), and S7 (a payload). -/
theorem witness_DecodeThenEncodeGivesTheBuffer :
    (∃ s t : State, exec .decode s = .next t ∧ t.status = 0x00000002 ∧
      optionsEnd t = 20 ∧ ¬ (hdrCode t.msgHdr ≠ 0 ∧ 0 < highHalf t.payDesc) ∧ 20 ≤ s.maxPacket) ∧
    ∃ s t : State, exec .decode s = .next t ∧ t.status = 0x00000002 ∧
      hdrCode t.msgHdr ≠ 0 ∧ 0 < highHalf t.payDesc ∧ inputLen s ≤ s.maxPacket :=
  ⟨⟨input known, _, after_spec _ _, by decide⟩,
    ⟨input [0x64, 0x45, 0x13, 0xFD, 0xD0, 0xE2, 0x4D, 0xAC, 0xFF, 0x48, 0x65, 0x6C, 0x6C, 0x6F], _, after_spec _ _, by decide⟩⟩

theorem witness_PlacedInstructionRunsNext :
    9 ≤ State.reset.ibufSize ∧ decodeTableWord 32 1 = some .decode ∧ decodeTableWord 8 0xFF = some .payloadMarker := by
  decide

end Sys2Proof.Tests
end

section
/-! The invariant of the machine: it holds after reset, and every update of the state keeps it (spec/10_state.md R24, R26, R33,
R45, R47; spec/20_memory.md R60). -/

namespace Sys2Proof.Machine

/-! ### Reserved bits of the stored values (spec/10_state.md R24) -/

/-- A masked value has no bit where its mask has none. -/
theorem and_mask_and_reserved (v : Word) {mask reserved : Word} (h : mask &&& reserved = 0) : v &&& mask &&& reserved = 0 := by
  rw [BitVec.and_assoc, h]; exact BitVec.and_zero

/-- A number of `k` bits has no bit above them. -/
theorem ofNat_and_reserved {n k : Nat} {reserved : Word} (h : n < 2 ^ k) (hk : BitVec.ofNat 32 (2 ^ k - 1) &&& reserved = 0) :
    BitVec.ofNat 32 n &&& reserved = 0 := by
  rw [← Nat.and_two_pow_sub_one_of_lt_two_pow h, BitVec.ofNat_and]
  exact and_mask_and_reserved _ hk

/-- Fields that are 0 where the reserved bits lie, put together. -/
theorem append_and_append_eq_zero {m n : Nat} {x x' : BitVec m} {y y' : BitVec n} (hx : x &&& x' = 0) (hy : y &&& y' = 0) :
    (x ++ y) &&& (x' ++ y') = 0 := by
  rw [BitVec.and_append, hx, hy]; exact BitVec.zero_append_zero

/-- PACK_OUT built from its fields has its reserved bits 0 (R36). -/
theorem packPackOut_reserved (sel : Nibble) (next : BitVec 2) (ext0 ext1 : Byte) :
    packPackOut sel next ext0 ext1 &&& 0xFF0000C0 = 0 := by
  have hm : (0xFF0000C0 : Word) = 0xFF#8 ++ 0#8 ++ 0#8 ++ 3#2 ++ 0#2 ++ 0#4 := by decide
  have h8 : (0#8 ++ ext1 ++ ext0) &&& (0xFF#8 ++ 0#8 ++ 0#8) = 0#(8 + 8 + 8) :=
    append_and_append_eq_zero (append_and_append_eq_zero BitVec.zero_and BitVec.and_zero) BitVec.and_zero
  rw [hm, packPackOut]
  exact append_and_append_eq_zero
    (append_and_append_eq_zero (append_and_append_eq_zero h8 BitVec.zero_and) BitVec.and_zero) BitVec.and_zero

/-- PACK_OUT after a PACKF has its reserved bits 0, whatever the packer answered. -/
theorem packOutOf_reserved (p : Packed) : packOutOf p &&& 0xFF0000C0 = 0 := by
  unfold packOutOf
  split <;> exact packPackOut_reserved _ _ _ _

/-- UNPACK_OUT built from its fields has its reserved bits 0 (R38). -/
theorem packUnpackOut_reserved (value : BitVec 17) (consumed : BitVec 2) :
    packUnpackOut value consumed &&& 0xFFCE0000 = 0 := by
  have hm : (0xFFCE0000 : Word) = 0x3FF#10 ++ 0#2 ++ 7#3 ++ 0#17 := by decide
  rw [hm, packUnpackOut]
  exact append_and_append_eq_zero
    (append_and_append_eq_zero (append_and_append_eq_zero BitVec.zero_and BitVec.and_zero) BitVec.zero_and) BitVec.and_zero

theorem statusOk_reserved : statusOk &&& 0xFFFFFF08 = 0 := by decide
theorem statusBusy_reserved : statusBusy &&& 0xFFFFFF08 = 0 := by decide
theorem statusErr_reserved (e : ErrKind) : statusErr e &&& 0xFFFFFF08 = 0 := by cases e <;> decide

/-- The token descriptor that a DECODE writes lies in the named bits of TOK_DESC (R31). -/
theorem tokDesc_reserved : (4 : Word) &&& 0xFFFF0000 = 0 := by decide

/-! ### The part of the invariant that does not speak of PHASE -/

/-- The registers, the buffers and the table are as the invariant says, whatever the block is doing. -/
def StoreInv (s : State) : Prop :=
  s.params.Legal ∧ s.opts.length = s.maxOpts ∧ s.BuffersInv ∧ s.ReservedInv

theorem storeInv_of_inv {s : State} (h : s.Inv) : StoreInv s := by
  obtain ⟨hp, ho, hb, hr, -, -⟩ := h
  exact ⟨hp, ho, hb, hr⟩

/-- A store to a register keeps it: only named fields are stored, and the table keeps its size. -/
theorem storeReg_storeInv {s : State} (h : StoreInv s) (r : Reg) (v : Word) : StoreInv (storeReg s r v) := by
  obtain ⟨hp, ho, hb, hst, hil, hol, htd, hoc, hpi, hpo, hui, huo⟩ := h
  cases r with
  | inLen => exact ⟨hp, ho, hb, hst, and_mask_and_reserved v (by decide), hol, htd, hoc, hpi, hpo, hui, huo⟩
  | tokDesc => exact ⟨hp, ho, hb, hst, hil, hol, and_mask_and_reserved v (by decide), hoc, hpi, hpo, hui, huo⟩
  | optCount => exact ⟨hp, ho, hb, hst, hil, hol, htd, and_mask_and_reserved v (by decide), hpi, hpo, hui, huo⟩
  | packIn => exact ⟨hp, ho, hb, hst, hil, hol, htd, hoc, and_mask_and_reserved v (by decide), hpo, hui, huo⟩
  | unpackIn => exact ⟨hp, ho, hb, hst, hil, hol, htd, hoc, hpi, hpo, and_mask_and_reserved v (by decide), huo⟩
  | optNum i => exact ⟨hp, (setEntry_length ..).trans ho, hb, hst, hil, hol, htd, hoc, hpi, hpo, hui, huo⟩
  | optVal i => exact ⟨hp, (setEntry_length ..).trans ho, hb, hst, hil, hol, htd, hoc, hpi, hpo, hui, huo⟩
  | _ => exact ⟨hp, ho, hb, hst, hil, hol, htd, hoc, hpi, hpo, hui, huo⟩

/-- A host write of IBUF keeps it: the byte lies within the buffer, or nothing is written. -/
theorem hostWriteIbuf_storeInv {s : State} (h : StoreInv s) (a : Nat) (b : Byte) : StoreInv (hostWriteIbuf s a b) := by
  obtain ⟨hp, ho, ⟨hiw, hib, how, hob⟩, hr⟩ := h
  unfold hostWriteIbuf
  split
  · next ha => exact ⟨hp, ho, ⟨write_keeps_wf a b hiw, write_keeps_below b ha hib, how, hob⟩, hr⟩
  · exact ⟨hp, ho, ⟨hiw, hib, how, hob⟩, hr⟩

/-- The writes of a DECODE keep it where the options are within the capacity (spec/41_decode.md R126). -/
theorem commitDecoded_storeInv {s : State} {d : Decoded} (h : StoreInv s) (hd : d.opts.length ≤ s.maxOpts) :
    StoreInv (commitDecoded s d) := by
  obtain ⟨hp, ho, hb, hst, hil, hol, -, -, hpi, hpo, hui, huo⟩ := h
  have hlen : (d.opts ++ s.opts.drop d.opts.length).length = s.maxOpts := by
    rw [List.length_append, List.length_drop]; omega
  have hcount : BitVec.ofNat 32 d.opts.length &&& 0xFFFFFF00 = 0 :=
    ofNat_and_reserved (k := 8) (Nat.lt_of_le_of_lt hd (maxOpts_lt s)) (by decide)
  exact ⟨hp, hlen, hb, hst, hil, hol, tokDesc_reserved, hcount, hpi, hpo, hui, huo⟩

/-- The writes of an ENCODE keep it where the message is at most MAX_PACKET_SIZE bytes long (spec/42_encode.md R176). -/
theorem encoded_storeInv {s : State} {out : List Byte} (h : StoreInv s) (hout : out.length ≤ s.maxPacket) :
    StoreInv { s with obuf := Memory.writeSeq s.obuf 0 out, outLen := BitVec.ofNat 32 out.length } := by
  obtain ⟨hp, ho, ⟨hiw, hib, how, hob⟩, hst, hil, -, htd, hoc, hpi, hpo, hui, huo⟩ := h
  have hlen : BitVec.ofNat 32 out.length &&& 0xFFFF0000 = 0 :=
    ofNat_and_reserved (k := 16) (Nat.lt_of_le_of_lt hout s.params.maxPacketSize.isLt) (by decide)
  exact ⟨hp, ho, ⟨hiw, hib, writeSeq_keeps_wf 0 out how, writeSeq_keeps_below (by rwa [Nat.zero_add]) hob⟩,
    hst, hil, hlen, htd, hoc, hpi, hpo, hui, huo⟩

/-- The sort of a CONSTRUCT keeps it: the table keeps its size. -/
theorem constructed_storeInv {s : State} (h : StoreInv s) (hc : countField s.optCount ≤ s.maxOpts) :
    StoreInv { s with opts := stableSortByNum s.liveOpts ++ s.opts.drop (countField s.optCount) } := by
  obtain ⟨hp, ho, hb, hr⟩ := h
  refine ⟨hp, ?_, hb, hr⟩
  change (stableSortByNum s.liveOpts ++ s.opts.drop (countField s.optCount)).length = s.maxOpts
  rw [List.length_append, stableSortByNum_length, State.liveOpts, List.length_take, List.length_drop]
  omega

theorem packed_storeInv {s : State} (h : StoreInv s) (p : Packed) : StoreInv { s with packOut := packOutOf p } := by
  obtain ⟨hp, ho, hb, hst, hil, hol, htd, hoc, hpi, -, hui, huo⟩ := h
  exact ⟨hp, ho, hb, hst, hil, hol, htd, hoc, hpi, packOutOf_reserved p, hui, huo⟩

theorem unpacked_storeInv {s : State} (h : StoreInv s) (value : BitVec 17) (consumed : BitVec 2) :
    StoreInv { s with unpackOut := packUnpackOut value consumed } := by
  obtain ⟨hp, ho, hb, hst, hil, hol, htd, hoc, hpi, hpo, hui, -⟩ := h
  exact ⟨hp, ho, hb, hst, hil, hol, htd, hoc, hpi, hpo, hui, packUnpackOut_reserved value consumed⟩

/-! ### The lifecycle of a command -/

/-- The error kinds that some command raises (spec/60_exceptions.md R202). -/
def ErrKind.Raised (e : ErrKind) : Prop := e ≠ .invalidHeader ∧ e ≠ .invalidOption ∧ e ≠ .pathLengthExceeded

theorem completeOk_inv {s : State} (h : StoreInv s) : (completeOk s).Inv := by
  obtain ⟨hp, ho, hb, -, hr⟩ := h
  exact ⟨hp, ho, hb, ⟨statusOk_reserved, hr⟩, .tail _ (.head _), rfl⟩

theorem completeErr_inv {s : State} {e : ErrKind} (h : StoreInv s) (he : e.Raised) : (completeErr s e).Inv := by
  obtain ⟨hp, ho, hb, -, hr⟩ := h
  obtain ⟨h1, h2, h3⟩ := he
  refine ⟨hp, ho, hb, ⟨statusErr_reserved e, hr⟩, ?_, rfl⟩
  change statusErr e ∈ _
  cases e with
  | invalidHeader => exact absurd rfl h1
  | invalidOption => exact absurd rfl h2
  | pathLengthExceeded => exact absurd rfl h3
  | _ => decide

theorem accept_inv {s : State} (h : StoreInv s) (w : Word) : (accept s w).Inv := by
  obtain ⟨hp, ho, hb, -, hr⟩ := h
  exact ⟨hp, ho, hb, ⟨statusBusy_reserved, hr⟩, rfl, rfl⟩

/-- The state after reset meets the invariant, whatever canonical bytes the buffers hold (spec/70_reset_and_hazards.md R231). -/
theorem resetWith_inv {p : Params} {ibuf obuf : Memory} (hp : p.Legal)
    (hb : { State.resetWith p with ibuf := ibuf, obuf := obuf }.BuffersInv) :
    { State.resetWith p with ibuf := ibuf, obuf := obuf }.Inv :=
  ⟨hp, List.length_replicate, hb, by simp [State.ReservedInv, State.resetWith], .head _, rfl⟩

theorem resetInput_inv {s : State} (h : StoreInv s) : (resetInput s).Inv := by
  obtain ⟨hp, -, hb, -⟩ := h
  exact resetWith_inv hp hb

/-! ### The host's accesses -/

/-- An idle block has no working values of a DECODE. -/
theorem walk_idle_of_inv {s : State} (h : s.Inv) (hi : s.phase = .idle) : s.walk = Walk.idle := by
  obtain ⟨-, -, -, -, -, hw⟩ := h
  unfold State.WalkInv at hw
  split at hw
  · exact hw
  · obtain ⟨hb, -⟩ := hw
    cases hi.symm.trans hb
  · obtain ⟨hb, -⟩ := hw
    cases hi.symm.trans hb

/-- A write to an idle block that leaves PHASE, STATUS and the working values alone keeps the invariant. -/
theorem inv_of_idle_write {s t : State} (h : s.Inv) (hi : s.phase = .idle) (ht : StoreInv t)
    (hphase : t.phase = s.phase) (hstatus : t.status = s.status) (hwalk : t.walk = s.walk) : t.Inv := by
  have hidle := walk_idle_of_inv h hi
  obtain ⟨-, -, -, -, hs, -⟩ := h
  obtain ⟨hp, ho, hb, hr⟩ := ht
  refine ⟨hp, ho, hb, hr, ?_, ?_⟩
  · simpa only [State.StatusInv, hphase, hstatus] using hs
  · simp only [State.WalkInv, hwalk, hidle, walk_idle_stage]

theorem hostWriteReg_inv {s : State} (h : s.Inv) (hi : s.phase = .idle) (w : BitVec 10) (v : Word) :
    (hostWriteReg s w v).Inv := by
  rcases hostWriteReg_cases s w v with ⟨-, ht⟩ | ⟨r, -, -, -, ht⟩ | ⟨-, ht⟩ <;> rw [ht]
  · exact accept_inv (storeInv_of_inv h) v
  · have hf := storeReg_frame s r v
    exact inv_of_idle_write h hi (storeReg_storeInv (storeInv_of_inv h) r v)
      (by rw [hf]) (by rw [hf]) (by rw [hf])
  · exact h

theorem hostWriteIbuf_inv {s : State} (h : s.Inv) (hi : s.phase = .idle) (a : Nat) (b : Byte) :
    (hostWriteIbuf s a b).Inv := by
  have hst := hostWriteIbuf_storeInv (storeInv_of_inv h) a b
  refine inv_of_idle_write h hi hst ?_ ?_ ?_ <;> unfold hostWriteIbuf <;> split <;> rfl

/-- A write takes effect on an idle block only, so it keeps the invariant when it does so there. -/
theorem ifIdle_inv {s : State} {f : State → State} (h : s.Inv) (hf : s.phase = .idle → (f s).Inv) : (ifIdle s f).Inv := by
  unfold ifIdle
  split
  · next hi => exact hf (of_decide_eq_true hi)
  · exact h

/-- A note of what a read returned is not the block's. -/
theorem reply_inv {s : State} (h : s.Inv) (r : Reply) : (reply s r).Inv := h

theorem hostAccess_inv {s : State} (h : s.Inv) (op : HostOp) : (hostAccess s op).Inv := by
  cases op with
  | wreg w v => exact ifIdle_inv h fun hi => hostWriteReg_inv h hi w v
  | wibuf a b => exact ifIdle_inv h fun hi => hostWriteIbuf_inv h hi a b
  | wobuf a b => exact ifIdle_inv h fun _ => h
  | rreg w => exact reply_inv h _
  | ribuf a => exact reply_inv h _
  | robuf a => exact reply_inv h _
  | wait => exact reply_inv h _
  | reset => exact resetInput_inv (storeInv_of_inv h)

/-- The queue of accesses and the delay are not the block's, so an access served keeps the invariant. -/
theorem hostTurn_inv {s : State} (h : s.Inv) (op : HostOp) (rest : List HostOp) : (hostTurn s op rest).Inv :=
  hostAccess_inv
    (s := { s with port := portAfter s op rest, delay := if s.isIdle then s.delay else s.delay - 1 }) h op

end Sys2Proof.Machine
end

section
/-! The engine's steps: what each command word can do, and that a DECODE, whole or one wire form at a time, keeps the invariant
(spec/40_command_interface.md R103, spec/41_decode.md R124 to R136). -/

namespace Sys2Proof.Machine

/-! ### The error kinds of the commands (spec/60_exceptions.md R205) -/

theorem pack_raise {v : Nat} {e : ErrKind} (h : pack v = .raise e) : e.Raised := by
  rcases pack_cases v with ⟨-, h'⟩ | ⟨-, -, h'⟩ | ⟨-, -, h'⟩ | ⟨-, h'⟩ <;> rw [h] at h' <;> cases h'
  simp [ErrKind.Raised]

theorem unpack_raise {sel : Nibble} {kind : SelectorKind} {x : List Byte} {e : ErrKind} (h : unpack sel kind x = .raise e) :
    e.Raised := by
  rcases unpack_raise_cases h with ⟨rfl, -, -⟩ | rfl <;> simp [ErrKind.Raised]

theorem encodeMessage_raised {s : State} {e : ErrKind} (h : encodeMessage s = .raise e) : e.Raised := by
  rcases encodeMessage_raise h with rfl | rfl | rfl | rfl <;> simp [ErrKind.Raised]

theorem decodeMessage_raised {s : State} {e : ErrKind} (h : decodeMessage s = .fail e) : e.Raised := by
  rcases decodeMessage_fail h with rfl | rfl | rfl | rfl | rfl <;> simp [ErrKind.Raised]

/-! ### The commands -/

/-- Everything a command word can do: complete with an error that some command raises, or be one of the five commands and make
that command's own writes. -/
theorem execCommand_cases (w : Word) (s : State) :
    (∃ e, e.Raised ∧ exec (decodeCmd w) s = .next (completeErr s e)) ∨
    (w = 1 ∧ ∃ d, decodeMessage s = .done d ∧ exec (decodeCmd w) s = .next (completeOk (commitDecoded s d))) ∨
    (w = 2 ∧ ∃ out, encodeMessage s = .ok out ∧ exec (decodeCmd w) s = .next (completeOk
      { s with obuf := Memory.writeSeq s.obuf 0 out, outLen := BitVec.ofNat 32 out.length })) ∨
    (w = 3 ∧ countField s.optCount ≤ s.maxOpts ∧ exec (decodeCmd w) s = .next (completeOk
      { s with opts := stableSortByNum s.liveOpts ++ s.opts.drop (countField s.optCount) })) ∨
    (w = 4 ∧ ∃ p, exec (decodeCmd w) s = .next (completeOk { s with packOut := packOutOf p })) ∨
    (w = 5 ∧ ∃ value consumed, exec (decodeCmd w) s = .next (completeOk
      { s with unpackOut := packUnpackOut value consumed })) := by
  rcases decodeCmd_cases w with ⟨hw, hi⟩ | ⟨hw, hi⟩ | ⟨hw, hi⟩ | ⟨hw, hi⟩ | ⟨hw, hi⟩ | hi <;> rw [hi]
  · rcases execDecode_cases s with ⟨e, he, ht⟩ | ⟨d, hd, ht⟩
    · exact .inl ⟨e, decodeMessage_raised he, ht⟩
    · exact .inr (.inl ⟨hw, d, hd, ht⟩)
  · rcases hm : encodeMessage s with out | e
    · exact .inr (.inr (.inl ⟨hw, out, rfl, execEncode_ok hm⟩))
    · exact .inl ⟨e, encodeMessage_raised hm, execEncode_raise hm⟩
  · by_cases hc : s.maxOpts < countField s.optCount
    · exact .inl ⟨.optionsLimitExceeded, by simp [ErrKind.Raised], execConstruct_raise hc⟩
    · exact .inr (.inr (.inr (.inl ⟨hw, Nat.not_lt.mp hc, execConstruct_ok (Nat.not_lt.mp hc)⟩)))
  · rcases hp : pack (packInValue s.packIn) with p | e
    · exact .inr (.inr (.inr (.inr (.inl ⟨hw, p, execPackf_ok hp⟩))))
    · exact .inl ⟨e, pack_raise hp, execPackf_raise hp⟩
  · rcases hu : unpack (unpackInSel s.unpackIn) (unpackInKind s.unpackIn) (unpackInBytes s.unpackIn) with u | e
    · exact .inr (.inr (.inr (.inr (.inr ⟨hw, _, _, execUnpackf_ok hu⟩))))
    · exact .inl ⟨e, unpack_raise hu, execUnpackf_raise hu⟩
  · exact .inl ⟨.illegalCommand, by simp [ErrKind.Raised], rfl⟩

/-- A message that ENCODE emits is at most MAX_PACKET_SIZE bytes long (spec/42_encode.md R176). -/
theorem encodeMessage_ok_length {s : State} {out : List Byte} (h : encodeMessage s = .ok out) : out.length ≤ s.maxPacket := by
  rcases encodeMessage_cases s with ⟨e, -, h'⟩ | ⟨-, e, -, h'⟩ | ⟨-, body, -, ⟨-, h'⟩ | ⟨hlen, h'⟩⟩ <;> rw [h] at h' <;> cases h'
  exact hlen

/-- A message that DECODE reads has options within the capacity (spec/41_decode.md R126). -/
theorem decodeMessage_done_length {s : State} {d : Decoded} (h : decodeMessage s = .done d) : d.opts.length ≤ s.maxOpts := by
  obtain ⟨w, hw, hend⟩ := decodeMessage_done (P := WalkOk s) h (fun _ => decodeHeader_walkOk)
    fun _ _ hw _ _ => decodeOption_walkOk hw
  obtain ⟨-, -, -, -, -, hlen, -, -⟩ := hw
  rcases hend with ⟨-, hd⟩ | ⟨-, -, hd⟩
  · cases hd; exact hlen
  · obtain ⟨off, len, hm, -⟩ := decodeMarker_done s w
    cases hm.symm.trans hd
    exact hlen

/-- A command keeps the invariant. -/
theorem execCommand_inv {s t : State} (w : Word) (h : StoreInv s) (hstep : exec (decodeCmd w) s = .next t) : t.Inv := by
  rcases execCommand_cases w s with ⟨e, he, ht⟩ | ⟨-, d, hd, ht⟩ | ⟨-, out, hout, ht⟩ | ⟨-, hc, ht⟩ | ⟨-, p, ht⟩ |
      ⟨-, value, consumed, ht⟩ <;> cases ht.symm.trans hstep
  · exact completeErr_inv h he
  · exact completeOk_inv (commitDecoded_storeInv h (decodeMessage_done_length hd))
  · exact completeOk_inv (encoded_storeInv h (encodeMessage_ok_length hout))
  · exact completeOk_inv (constructed_storeInv h hc)
  · exact completeOk_inv (packed_storeInv h p)
  · exact completeOk_inv (unpacked_storeInv h value consumed)

/-! ### The wire forms -/

/-- What a part of DECODE may answer: an error that some command raises, working values that meet the invariant, or a message
within the capacity of the table. -/
def VerdictOk (s : State) : Verdict → Prop
  | .fail e => e.Raised
  | .more w => WalkOk s w
  | .done d => d.opts.length ≤ s.maxOpts

theorem decodeHeader_verdictOk (s : State) (ver typ : BitVec 2) (tkl : Nibble) : VerdictOk s (decodeHeader s ver typ tkl) := by
  rcases decodeHeader_cases s ver typ tkl with ⟨-, h⟩ | ⟨-, -, -, h⟩ | ⟨-, -, -, h⟩
  · rw [h]; simp [VerdictOk, ErrKind.Raised]
  · rw [h]; simp [VerdictOk, ErrKind.Raised]
  · have hw := decodeHeader_walkOk h
    rw [h]; exact hw

theorem decodeOption_verdictOk {s : State} {w : Walk} (hw : WalkOk s w) (dsel lsel : Nibble) :
    VerdictOk s (decodeOption s w dsel lsel) := by
  rcases h : decodeOption s w dsel lsel with e | w' | d
  · rcases decodeOption_fail h with rfl | rfl | rfl <;> simp [VerdictOk, ErrKind.Raised]
  · exact decodeOption_walkOk hw h
  · exact absurd h decodeOption_not_done

theorem decodeMarker_verdictOk {s : State} {w : Walk} (hw : WalkOk s w) : VerdictOk s (decodeMarker s w) := by
  obtain ⟨-, -, -, -, -, hlen, -, -⟩ := hw
  obtain ⟨off, len, h, -⟩ := decodeMarker_done s w
  rw [h]; exact hlen

theorem decodeEnd_verdictOk {s : State} {w : Walk} (hw : WalkOk s w) : VerdictOk s (decodeEnd s w) := by
  obtain ⟨-, -, -, -, -, hlen, -, -⟩ := hw
  exact hlen

/-- Of a DECODE under way, the invariant says what holds at every option header position. -/
theorem walkOk_of_inv {s : State} (h : s.Inv) (hstage : s.walk.stage = .atHeader) : s.phase = .busy 1 ∧ WalkOk s s.walk := by
  obtain ⟨-, -, -, -, -, hw⟩ := h
  simp only [State.WalkInv, hstage] at hw
  obtain ⟨hb, hrest⟩ := hw
  exact ⟨hb, hstage, hrest⟩

/-- A DECODE that is taken one wire form at a time runs under the command word 1 (R47). -/
theorem busy_decode_of_inv {s : State} (h : s.Inv) (hstage : s.walk.stage = .atByte0) : s.phase = .busy 1 := by
  obtain ⟨-, -, -, -, -, hw⟩ := h
  simp only [State.WalkInv, hstage] at hw
  obtain ⟨hb, -⟩ := hw
  exact hb

/-- New working values of a DECODE under way keep the invariant. -/
theorem walk_inv {s : State} {w : Walk} (h : s.Inv) (hb : s.phase = .busy 1) (hw : WalkOk s w) :
    State.Inv { s with walk := w } := by
  obtain ⟨hp, ho, hbuf, hr, hs, -⟩ := h
  obtain ⟨hstage, hrest⟩ := hw
  refine ⟨hp, ho, hbuf, hr, hs, ?_⟩
  simp only [State.WalkInv, hstage]
  exact ⟨hb, hrest⟩

/-- A wire form keeps the invariant: it fails, moves the working values on, or completes the command. -/
theorem settle_inv {s : State} {v : Verdict} (h : s.Inv) (hb : s.phase = .busy 1) (hv : VerdictOk s v) :
    (settle s v).Inv := by
  cases v with
  | fail e => exact completeErr_inv (storeInv_of_inv h) hv
  | more w => exact walk_inv h hb hv
  | done d => exact completeOk_inv (commitDecoded_storeInv (storeInv_of_inv h) hv)

/-- The byte at an option header position, the marker or an option, keeps the invariant. -/
theorem execOptHdr_inv {s t : State} {b : Byte} (h : s.Inv) (hstage : s.walk.stage = .atHeader)
    (hstep : exec (decodeOptHdr b) s = .next t) : t.Inv := by
  obtain ⟨hb, hw⟩ := walkOk_of_inv h hstage
  by_cases hm : b = 0xFF
  · have ht : exec (decodeOptHdr b) s = .next (settle s (decodeMarker s s.walk)) := by subst hm; rfl
    cases ht.symm.trans hstep
    exact settle_inv h hb (decodeMarker_verdictOk hw)
  · cases (exec_optHdr s hm).symm.trans hstep
    exact settle_inv h hb (decodeOption_verdictOk hw _ _)

/-- Byte 0 keeps the invariant. -/
theorem execByte0_inv {s t : State} {b : Byte} (h : s.Inv) (hstage : s.walk.stage = .atByte0)
    (hstep : exec (decodeByte0 b) s = .next t) : t.Inv := by
  cases (exec_byte0 b s).symm.trans hstep
  exact settle_inv h (busy_decode_of_inv h hstage) (decodeHeader_verdictOk s _ _ _)

/-- What the engine fetches, by where DECODE's working values stand. -/
theorem fetchFor_cases {s : State} {w : Word} {f : Fetched} (h : fetchFor s w = some f) :
    (s.walk.stage = .off ∧ f = .cmd w) ∨ (s.walk.stage = .atByte0 ∧ f = .byte0 (s.ibufAt 0)) ∨
    (s.walk.stage = .atHeader ∧ f = .optHdr (s.ibufAt s.walk.cur)) := by
  unfold fetchFor at h
  split at h
  · cases h; exact .inl ⟨‹_›, rfl⟩
  · cases h; exact .inr (.inl ⟨‹_›, rfl⟩)
  · split at h
    · cases h
    · cases h; exact .inr (.inr ⟨‹_›, rfl⟩)

/-- The instruction that the engine fetches keeps the invariant. -/
theorem execFetched_inv {s t : State} {w : Word} {f : Fetched} (h : s.Inv) (hf : fetchFor s w = some f)
    (hstep : exec (decode f) s = .next t) : t.Inv := by
  rcases fetchFor_cases hf with ⟨-, rfl⟩ | ⟨hstage, rfl⟩ | ⟨hstage, rfl⟩
  · exact execCommand_inv w (storeInv_of_inv h) hstep
  · exact execByte0_inv h hstage hstep
  · exact execOptHdr_inv h hstage hstep

/-- Settles O46, by the four things a step can do. -/
theorem stepKeepsTheInvariant : Obligations.StepKeepsTheInvariant := by
  unfold Obligations.StepKeepsTheInvariant
  intro s t h hstep
  rcases step_cases s with ⟨-, -, ht⟩ | ⟨op, rest, -, -, ht⟩ | ⟨w, f, -, -, hf, ht⟩ | ⟨w, -, -, hstage, -, ht⟩ <;>
    rw [ht] at hstep
  · cases hstep; exact h
  · cases hstep; exact hostTurn_inv h op rest
  · exact execFetched_inv h hf hstep
  · cases hstep
    obtain ⟨hb, hw⟩ := walkOk_of_inv h hstage
    exact settle_inv h hb (decodeEnd_verdictOk hw)

/-- Settles O45: no byte of a buffer is written yet. -/
theorem resetMeetsTheInvariant : Obligations.ResetMeetsTheInvariant := by
  unfold Obligations.ResetMeetsTheInvariant
  intro p hp
  exact resetWith_inv (ibuf := []) (obuf := []) hp ⟨rfl, rfl, rfl, rfl⟩

end Sys2Proof.Machine
end

section
/-! The register port: what a read of each offset returns, and what a write of an idle block's register does to what every offset
reads as (spec/10_state.md R22 to R25, R33, R39). -/

namespace Sys2Proof.Machine

open Sys2Proof.Claim

/-! ### Reads -/

/-- An offset that is no register's is unmapped. -/
theorem regAt_eq_none {m : Nat} {w : BitVec 10} (h : ∀ r : Reg, r.within m → w.toNat ≠ r.wordIndex) : regAt m w = none := by
  rcases hr : regAt m w with _ | r
  · rfl
  · obtain ⟨hm, hw⟩ := regAt_sound hr
    exact absurd hw (h r hm)

/-- The offsets between the registers and the option table, and those behind the table, are unmapped (R22). -/
theorem regAt_unmapped {m : Nat} {w : BitVec 10} (h : (0x00E ≤ w.toNat ∧ w.toNat < 0x040) ∨ 0x040 + 2 * m ≤ w.toNat) :
    regAt m w = none := by
  apply regAt_eq_none
  intro r hr
  cases r with
  | optNum i => simp only [Reg.within] at hr; simp only [Reg.wordIndex]; omega
  | optVal i => simp only [Reg.within] at hr; simp only [Reg.wordIndex]; omega
  | _ => simp only [Reg.wordIndex]; omega

/-- An unmapped offset reads 0 (R23). -/
theorem hostReadReg_unmapped {s : State} {w : BitVec 10} (h : regAt s.maxOpts w = none) : hostReadReg s w = 0 := by
  simp only [hostReadReg, h]

/-- OPT_NUM shows the number of its entry (R33). -/
theorem toNat_regValue_optNum {s : State} {i : Nat} {e : OptEntry} (h : s.opts[i]? = some e) :
    (regValue s (.optNum i)).toNat = e.num.toNat := by
  have hv : regValue s (.optNum i) = 0#16 ++ e.num := by simp only [regValue, h]
  rw [hv, toNat_append_add, BitVec.toNat_ofNat, Nat.zero_mod, Nat.zero_mul, Nat.zero_add]

/-- OPT_VAL shows the descriptor of its entry (R33). -/
theorem toNat_regValue_optVal {s : State} {i : Nat} {e : OptEntry} (h : s.opts[i]? = some e) :
    (regValue s (.optVal i)).toNat = e.len.toNat * 65536 + e.off.toNat := by
  have hv : regValue s (.optVal i) = packDesc e.off e.len := by simp only [regValue, h]
  rw [hv, toNat_packDesc]

/-- CFG0 shows MAX_OPTIONS (R39). -/
theorem toNat_regValue_cfg0 (s : State) : (regValue s .cfg0).toNat = s.maxOpts := by
  rw [regValue, toNat_append_add, BitVec.toNat_ofNat, Nat.zero_mod, Nat.zero_mul, Nat.zero_add, State.maxOpts]

/-- CFG1 shows IBUF_SIZE and MAX_PACKET_SIZE (R39). -/
theorem toNat_regValue_cfg1 (s : State) : (regValue s .cfg1).toNat = s.ibufSize * 65536 + s.maxPacket :=
  toNat_append_add s.params.ibufSize s.params.maxPacketSize

/-- Settles O39: every register is read at its word index, and no register stands at the other offsets. -/
theorem registerMapReads : Obligations.RegisterMapReads := by
  unfold Obligations.RegisterMapReads
  intro s
  have read {r : Reg} (hr : r.within s.maxOpts) := hostReadReg_reg hr
  refine ⟨⟨read (r := .cmd) trivial, read (r := .status) trivial, read (r := .inLen) trivial, read (r := .outLen) trivial,
    read (r := .msgHdr) trivial, read (r := .tokDesc) trivial, read (r := .payDesc) trivial, read (r := .optCount) trivial,
    read (r := .packIn) trivial, read (r := .packOut) trivial, read (r := .unpackIn) trivial,
    read (r := .unpackOut) trivial⟩, ?_, ?_, ?_, ?_⟩
  · rw [← toNat_regValue_cfg0, ← read (r := .cfg0) trivial]; rfl
  · rw [← toNat_regValue_cfg1, ← read (r := .cfg1) trivial]; rfl
  · intro i e hi he
    rw [← toNat_regValue_optNum he, ← toNat_regValue_optVal he, ← read (r := .optNum i) hi, ← read (r := .optVal i) hi]
    exact ⟨rfl, rfl⟩
  · intro w hw
    exact hostReadReg_unmapped (regAt_unmapped hw)

/-! ### Writes -/

theorem storedBits_optNum {m i : Nat} (h : i < m) : storedBits m (0x040 + 2 * i) = 0x0000FFFF := by
  unfold storedBits
  repeat rw [if_neg (by omega)]
  rw [if_pos (by omega), if_pos (by omega)]

theorem storedBits_optVal {m i : Nat} (h : i < m) : storedBits m (0x041 + 2 * i) = 0xFFFFFFFF := by
  unfold storedBits
  repeat rw [if_neg (by omega)]
  rw [if_pos (by omega), if_neg (by omega)]

/-- The stored bits of a register's offset are the named fields of the register (R24). -/
theorem storedBits_wordIndex {m : Nat} {r : Reg} (hr : r.within m) : storedBits m r.wordIndex = hostMask r := by
  cases r with
  | optNum i => exact storedBits_optNum hr
  | optVal i => exact storedBits_optVal hr
  | _ => simp [storedBits, Reg.wordIndex, hostMask]

/-- An offset that stores bits is a register's. -/
theorem reg_of_storedBits {m n : Nat} (h : storedBits m n ≠ 0) : ∃ r : Reg, r.within m ∧ n = r.wordIndex := by
  unfold storedBits at h
  repeat' split at h
  · exact ⟨.inLen, trivial, ‹_›⟩
  · exact ⟨.msgHdr, trivial, ‹_›⟩
  · exact ⟨.tokDesc, trivial, ‹_›⟩
  · exact ⟨.payDesc, trivial, ‹_›⟩
  · exact ⟨.optCount, trivial, ‹_›⟩
  · exact ⟨.packIn, trivial, ‹_›⟩
  · exact ⟨.unpackIn, trivial, ‹_›⟩
  · exact ⟨.optNum ((n - 0x040) / 2), by simp only [Reg.within]; omega, by simp only [Reg.wordIndex]; omega⟩
  · exact ⟨.optVal ((n - 0x040) / 2), by simp only [Reg.within]; omega, by simp only [Reg.wordIndex]; omega⟩
  · exact absurd rfl h

/-- An unmapped offset stores nothing (R23). -/
theorem storedBits_unmapped {m : Nat} {w : BitVec 10} (hm : m < 256) (h : regAt m w = none) : storedBits m w.toNat = 0 := by
  by_contra hne
  obtain ⟨r, hr, hw⟩ := reg_of_storedBits hne
  have hat := regAt_wordIndex hm hr
  rw [← hw, BitVec.ofNat_toNat, BitVec.setWidth_eq, h] at hat
  cases hat

theorem storeReg_params (s : State) (r : Reg) (v : Word) : (storeReg s r v).params = s.params := by
  rw [storeReg_frame]

/-- A store to a register changes no byte of a buffer. -/
theorem storeReg_sameBytes (s : State) (r : Reg) (v : Word) : SameBytes s (storeReg s r v) := by
  intro a
  rw [storeReg_frame]
  exact ⟨rfl, rfl⟩

/-- A read after a store to a register looks at the same map. -/
theorem storeReg_maxOpts (s : State) (r : Reg) (v : Word) : (storeReg s r v).maxOpts = s.maxOpts := by
  rw [State.maxOpts, storeReg_params, State.maxOpts]

/-- A store to a register leaves what every other offset reads as. -/
theorem hostReadReg_storeReg_other {s : State} {r : Reg} {w : BitVec 10} (v : Word) (h : w.toNat ≠ r.wordIndex) :
    hostReadReg (storeReg s r v) w = hostReadReg s w := by
  simp only [hostReadReg, storeReg_maxOpts]
  rcases hq : regAt s.maxOpts w with _ | q
  · rfl
  · obtain ⟨-, hw⟩ := regAt_sound hq
    exact regValue_storeReg_other v fun hqr => h (hqr ▸ hw)

/-- A read of the register just stored to returns the value's named fields (R24). -/
theorem hostReadReg_storeReg_same {s : State} {r : Reg} (v : Word) (hlen : s.opts.length = s.maxOpts)
    (hr : r.within s.maxOpts) (hmask : hostMask r ≠ 0) :
    hostReadReg (storeReg s r v) (BitVec.ofNat 10 r.wordIndex) = v &&& hostMask r := by
  rw [hostReadReg_reg ((storeReg_maxOpts s r v).symm ▸ hr), regValue_storeReg_same v (hlen.symm ▸ hr) hmask]

/-- An idle block serves the next access of the host. -/
theorem step_idle_access {s : State} {op : HostOp} {rest : List HostOp} (hi : s.phase = .idle) (hp : s.port = op :: rest) :
    step s = .next (hostTurn s op rest) := by
  simp only [step, turnOf, hi, hp]

/-- Settles O40: the write is a store to the register at that offset, or there is none and nothing changes. -/
theorem registerWritesStoreNamedFields : Obligations.RegisterWritesStoreNamedFields := by
  unfold Obligations.RegisterWritesStoreNamedFields
  intro s w v rest hinv hi hp hw
  obtain ⟨-, hlen, -⟩ := hinv
  refine ⟨hostWriteReg { s with port := rest } w v, ?_, ?_⟩
  · rw [step_idle_access hi hp, hostTurn_wreg_idle w v rest hi]
  rcases hostWriteReg_cases { s with port := rest } w v with ⟨h0, -⟩ | ⟨r, -, hr, hidx, ht⟩ | ⟨hnone, ht⟩
  · exact absurd h0 hw
  · have hbits : storedBits s.maxOpts w.toNat = hostMask r := hidx ▸ storedBits_wordIndex hr
    rw [ht, hbits]
    have hwr : w = BitVec.ofNat 10 r.wordIndex := by rw [← hidx, BitVec.ofNat_toNat, BitVec.setWidth_eq]
    refine ⟨storeReg_frame _ r v, storeReg_sameBytes _ r v, fun w' hne => ?_, fun hmask => ?_, fun hmask => ?_⟩
    · exact hostReadReg_storeReg_other v fun h' => hne (BitVec.eq_of_toNat_eq (h'.trans hidx.symm))
    · rw [storeReg_readOnly v hmask]; rfl
    · rw [hwr]; exact hostReadReg_storeReg_same v hlen hr hmask
  · rw [ht]
    refine ⟨rfl, fun a => ⟨rfl, rfl⟩, fun w' _ => rfl, fun _ => rfl, fun hne => ?_⟩
    exact absurd (storedBits_unmapped (maxOpts_lt s) hnone) hne

end Sys2Proof.Machine
end

section
/-! What the engine does not write: the parameters, the inputs and the host's side in any of its steps, and in a command every
register and OBUF byte that is another command's (spec/10_state.md R39, R41; spec/20_memory.md R61). -/

namespace Sys2Proof.Machine

open Sys2Proof.Claim

/-! ### The parameters (spec/10_state.md R39) -/

theorem hostWriteReg_params (s : State) (w : BitVec 10) (v : Word) : (hostWriteReg s w v).params = s.params := by
  rcases hostWriteReg_cases s w v with ⟨-, ht⟩ | ⟨r, -, -, -, ht⟩ | ⟨-, ht⟩ <;> rw [ht]
  · rfl
  · exact storeReg_params s r v

theorem hostWriteIbuf_params (s : State) (a : Nat) (b : Byte) : (hostWriteIbuf s a b).params = s.params := by
  unfold hostWriteIbuf
  split <;> rfl

theorem ifIdle_params {s : State} {f : State → State} (hf : (f s).params = s.params) : (ifIdle s f).params = s.params := by
  unfold ifIdle
  split
  · exact hf
  · rfl

theorem hostAccess_params (s : State) (op : HostOp) : (hostAccess s op).params = s.params := by
  cases op with
  | wreg w v => exact ifIdle_params (hostWriteReg_params s w v)
  | wibuf a b => exact ifIdle_params (hostWriteIbuf_params s a b)
  | wobuf a b => exact ifIdle_params rfl
  | _ => rfl

theorem hostTurn_params (s : State) (op : HostOp) (rest : List HostOp) : (hostTurn s op rest).params = s.params := by
  rw [hostTurn, hostAccess_params]

/-! ### The engine's turn -/

/-- While an access of the host is served it is not the engine's turn. -/
theorem not_engineTurn_of_served {s : State} {op : HostOp} {rest : List HostOp} {w : Word} (hport : s.port = op :: rest)
    (hturn : s.phase = .idle ∨ 0 < s.delay) : ¬ EngineTurn s w := by
  rintro ⟨hbusy, hempty | hdelay⟩
  · cases hport.symm.trans hempty
  · rcases hturn with hidle | hpos
    · cases hidle.symm.trans hbusy
    · omega

theorem turnOf_of_engineTurn {s : State} {w : Word} (h : EngineTurn s w) : turnOf s = .engine := by
  obtain ⟨hbusy, hempty | hdelay⟩ := h
  · simp only [turnOf, hbusy, hempty]
  · rcases hport : s.port with _ | ⟨op, rest⟩
    · simp only [turnOf, hbusy, hport]
    · simp only [turnOf, hbusy, hport, hdelay, if_true]

/-- On the engine's turn, outside a DECODE that is taken form by form, the step is the accepted command (R103). -/
theorem step_command {s : State} {w : Word} (h : EngineTurn s w) (hwalk : s.walk = Walk.idle) :
    step s = exec (decodeCmd w) s := by
  have hturn := turnOf_of_engineTurn h
  obtain ⟨hbusy, -⟩ := h
  have hfetch : fetch s = some (.cmd w) := by simp only [fetch, hbusy, fetchFor, hwalk, walk_idle_stage]
  simp only [step, hturn, hfetch, decode]

/-! ### The inputs (spec/10_state.md R41, spec/20_memory.md R61) -/

/-- What no step of the engine writes. -/
structure EngineKeeps (s t : State) : Prop where
  params : t.params = s.params
  ibuf : t.ibuf = s.ibuf
  inLen : t.inLen = s.inLen
  packIn : t.packIn = s.packIn
  unpackIn : t.unpackIn = s.unpackIn
  port : t.port = s.port
  replies : t.replies = s.replies

theorem settle_engineKeeps (s : State) (v : Verdict) : EngineKeeps s (settle s v) := by
  cases v <;> exact ⟨rfl, rfl, rfl, rfl, rfl, rfl, rfl⟩

theorem exec_engineKeeps {i : Instr} {s t : State} (h : exec i s = .next t) : EngineKeeps s t := by
  rcases exec_cases i s with ⟨e, ht⟩ | ⟨v, ht, -⟩ | ⟨out, -, -, ht⟩ | ⟨-, -, ht⟩ | ⟨p, -, -, ht⟩ | ⟨u, -, -, ht⟩ <;>
    cases ht.symm.trans h
  case inr.inl => exact settle_engineKeeps s v
  all_goals exact ⟨rfl, rfl, rfl, rfl, rfl, rfl, rfl⟩

/-- What the engine keeps is what the statement about its steps asks for. -/
theorem EngineKeeps.inputs {s t : State} (h : EngineKeeps s t) :
    t.ibuf = s.ibuf ∧ (∀ a, t.ibufAt a = s.ibufAt a) ∧ t.inLen = s.inLen ∧ t.packIn = s.packIn ∧
      t.unpackIn = s.unpackIn ∧ t.port = s.port ∧ t.replies = s.replies := by
  have hinput : SameInput s t := ⟨h.params, h.inLen, h.ibuf⟩
  exact ⟨h.ibuf, hinput.ibufAt, h.inLen, h.packIn, h.unpackIn, h.port, h.replies⟩

/-- Settles O47: the host's accesses keep the parameters, and the engine keeps the inputs as well. -/
theorem parametersAndInputsAreNotWrittenByTheEngine : Obligations.ParametersAndInputsAreNotWrittenByTheEngine := by
  unfold Obligations.ParametersAndInputsAreNotWrittenByTheEngine
  intro s t hstep
  rcases step_cases s with ⟨hidle, -, ht⟩ | ⟨op, rest, hport, hturn, ht⟩ | ⟨w, f, -, -, -, ht⟩ | ⟨w, -, -, -, -, ht⟩ <;>
    rw [ht] at hstep
  · cases hstep
    exact ⟨rfl, fun w ⟨hbusy, _⟩ => nomatch hidle.symm.trans hbusy⟩
  · cases hstep
    exact ⟨hostTurn_params s op rest, fun w hw => absurd hw (not_engineTurn_of_served hport hturn)⟩
  · have hkeep := exec_engineKeeps hstep
    exact ⟨hkeep.params, fun _ _ => hkeep.inputs⟩
  · cases hstep
    have hkeep := settle_engineKeeps s (decodeEnd s s.walk)
    exact ⟨hkeep.params, fun _ _ => hkeep.inputs⟩

/-! ### The outputs (spec/10_state.md R41) -/

/-- Settles O48, command by command: the writes of each are the fields that its success replaces. -/
theorem engineWritersAreTheListedOnes : Obligations.EngineWritersAreTheListedOnes := by
  unfold Obligations.EngineWritersAreTheListedOnes
  intro s t w hturn hwalk hstep
  rw [step_command hturn hwalk] at hstep
  rcases execCommand_cases w s with ⟨e, -, ht⟩ | ⟨rfl, d, -, ht⟩ | ⟨rfl, out, -, ht⟩ | ⟨rfl, -, ht⟩ | ⟨rfl, p, ht⟩ |
      ⟨rfl, value, consumed, ht⟩ <;> cases ht.symm.trans hstep
  all_goals simp [State.obufAt, State.maxPacket]

end Sys2Proof.Machine
end

section
/-! The buffer ports: what a host write of IBUF does to what every address reads as, and that host reads and host writes of OBUF
change nothing of the block (spec/20_memory.md R60, R62, R63, R68). -/

namespace Sys2Proof.Machine

open Sys2Proof.Claim

/-- On the host's turn the step is the access. -/
theorem step_of_hostTurn {s : State} {op : HostOp} {rest : List HostOp} (h : HostTurn s op rest) :
    step s = .next (hostTurn s op rest) := by
  obtain ⟨hport, hturn⟩ := h
  rcases hphase : s.phase with _ | w
  · exact step_idle_access hphase hport
  · have hdelay : s.delay ≠ 0 := (hturn.resolve_left (by simp [hphase])).ne'
    simp only [step, turnOf, hphase, hport, if_neg hdelay]

/-! ### Writes of IBUF -/

/-- A host write of IBUF writes no field but the buffer. -/
theorem hostWriteIbuf_frame (s : State) (a : Nat) (b : Byte) :
    hostWriteIbuf s a b = { s with ibuf := (hostWriteIbuf s a b).ibuf } := by
  unfold hostWriteIbuf
  split <;> rfl

/-- A host write of IBUF changes what its own address reads as, and only where that lies in IBUF. -/
theorem ibufAt_hostWriteIbuf (s : State) (a a' : Nat) (b : Byte) :
    (hostWriteIbuf s a b).ibufAt a' = if a < s.ibufSize ∧ a' = a then b else s.ibufAt a' := by
  unfold hostWriteIbuf
  by_cases ha : a < s.ibufSize
  · simp only [ha, if_true, true_and]
    exact byteAt_write ha
  · simp only [ha, if_false, false_and]

/-- Settles O41: the access is one write of IBUF, which every other address and every other field of the state survives. -/
theorem ibufWritesWriteOneByte : Obligations.IbufWritesWriteOneByte := by
  unfold Obligations.IbufWritesWriteOneByte
  intro s a b rest hi hp
  have hread := ibufAt_hostWriteIbuf { s with port := rest } a
  have hframe := hostWriteIbuf_frame { s with port := rest } a b
  refine ⟨hostWriteIbuf { s with port := rest } a b, ?_, hframe, fun ha => ?_, fun a' ha' => ?_, fun a' => ?_⟩
  · rw [step_idle_access hi hp, hostTurn_wibuf_idle a b rest hi]
  · rw [hread, if_pos ⟨ha, rfl⟩]
  · have hmiss : ¬ (a < s.ibufSize ∧ a' = a) := by omega
    exact (hread a' b).trans (if_neg hmiss)
  · rw [hframe]; rfl

/-! ### Reads -/

/-- A read, of an idle or of a busy block, notes the value and moves the queue and the delay on (R68). -/
theorem hostTurn_read {s : State} {a : HostOp} {v : Reply} (rest : List HostOp) (h : readValue s a = some v) :
    hostTurn s a rest =
      { s with port := rest, delay := if s.isIdle then s.delay else s.delay - 1, replies := s.replies ++ [v] } := by
  cases a <;> cases h <;> rfl

/-- Settles O28: of the state, a read changes the queue, the delay and the replies. -/
theorem readsReturnTheHeldValueWithoutEffect : Obligations.ReadsReturnTheHeldValueWithoutEffect := by
  unfold Obligations.ReadsReturnTheHeldValueWithoutEffect
  intro s a rest v hturn hv
  refine ⟨hostTurn s a rest, step_of_hostTurn hturn, ?_⟩
  rw [hostTurn_read rest hv]
  exact ⟨rfl, rfl, rfl, fun _ => ⟨rfl, rfl⟩⟩

/-! ### OBUF, and addresses outside a buffer -/

/-- Settles O42: a write of OBUF by the host moves the queue on and nothing else. -/
theorem obufWritesAreIgnoredAndOutsideReadsZero : Obligations.ObufWritesAreIgnoredAndOutsideReadsZero := by
  unfold Obligations.ObufWritesAreIgnoredAndOutsideReadsZero
  refine ⟨fun s a b rest hi hp => ⟨{ s with port := rest }, ?_, rfl, fun _ => ⟨rfl, rfl⟩⟩,
    fun s a => ⟨byteAt_outside, byteAt_outside⟩⟩
  rw [step_idle_access hi hp, hostTurn_wobuf_idle a b rest hi]

end Sys2Proof.Machine
end

section
/-! The decoder and the encoder of command words and wire bytes are inverse to each other (spec/30_encoding.md R81 to R92). -/

namespace Sys2Proof

open Sys2Proof.Claim

/-! ### Command words (R81, R82) -/

/-- A word that is none of the five legal ones is the illegal command. -/
theorem decodeCmd_illegal {w : Word} (h : ¬ LegalCommandWord w) : decodeCmd w = .illegalCmd w := by
  rcases Machine.decodeCmd_cases w with ⟨rfl, -⟩ | ⟨rfl, -⟩ | ⟨rfl, -⟩ | ⟨rfl, -⟩ | ⟨rfl, -⟩ | hw
  case inr.inr.inr.inr.inr => exact hw
  all_goals exact absurd (by decide) h

theorem encode_decodeCmd (w : Word) : encode (decodeCmd w) = .cmd w := by
  rcases Machine.decodeCmd_cases w with ⟨rfl, h⟩ | ⟨rfl, h⟩ | ⟨rfl, h⟩ | ⟨rfl, h⟩ | ⟨rfl, h⟩ | h <;> rw [h] <;> rfl

/-- Settles O1: five values, and the words outside 1 to 5. -/
theorem commandWordsDecode : Obligations.CommandWordsDecode := by
  unfold Obligations.CommandWordsDecode
  refine ⟨⟨rfl, rfl, rfl, rfl, rfl⟩, fun w hw => decodeCmd_illegal ?_⟩
  rintro ⟨h1, h5⟩
  omega

/-! ### Byte 0 (R84, R91) -/

/-- The reserved token lengths are those with the top bit set: `8 + k`. -/
theorem toNat_reservedTkl (k : BitVec 3) : (1#1 ++ k : Nibble).toNat = 8 + k.toNat := by
  rw [toNat_append_add]; rfl

theorem decodeByte0_hdr0 {ver typ : BitVec 2} {tkl : Nibble} (h : tkl.toNat ≤ 8) :
    decodeByte0 (byte0Of ver typ tkl) = .hdr0 ver typ tkl := by
  simp [decodeByte0, h]

theorem low3_byte0Of (ver typ : BitVec 2) (k : BitVec 3) : (byte0Of ver typ (1#1 ++ k)).extractLsb' 0 3 = k := by
  apply BitVec.eq_of_toNat_eq
  rw [toNat_field, toNat_byte0Of, toNat_reservedTkl]
  have := k.isLt; omega

theorem decodeByte0_hdr0TklReserved {ver typ : BitVec 2} {k : BitVec 3} (h : k.toNat ≠ 0) :
    decodeByte0 (byte0Of ver typ (1#1 ++ k)) = .hdr0TklReserved ver typ k := by
  have hk : ¬ (1#1 ++ k : Nibble).toNat ≤ 8 := by rw [toNat_reservedTkl]; omega
  simp only [decodeByte0, byte0Tkl_byte0Of, if_neg hk, byte0Ver_byte0Of, byte0Typ_byte0Of, low3_byte0Of]

/-- The three low bits of a byte 0 with a reserved token length determine that length. -/
theorem reservedTkl_low3 {b : Byte} (h : 8 < (byte0Tkl b).toNat) : (1#1 ++ b.extractLsb' 0 3 : Nibble) = byte0Tkl b := by
  apply BitVec.eq_of_toNat_eq
  rw [byte0Tkl, toNat_field] at h
  rw [toNat_reservedTkl, byte0Tkl, toNat_field, toNat_field]
  omega

theorem encode_decodeByte0 (b : Byte) : encode (decodeByte0 b) = .byte0 b := by
  unfold decodeByte0
  split
  · rw [encode, byte0Of_fields]
  · rw [encode, reservedTkl_low3 (by omega), byte0Of_fields]

/-! ### Option header bytes (R88, R90 to R92) -/

theorem openSelector_ne {s : Nibble} (h : OpenSelector s) : s ≠ 15 := by
  rintro rfl
  exact absurd h (by decide)

theorem headerByte_ne_marker {d l : Nibble} (h : d ≠ 15 ∨ l ≠ 15) : headerByte d l ≠ 0xFF := by
  rw [Ne, headerByte_eq_marker, not_and_or]
  exact h

theorem decodeOptHdr_optDeltaReserved {l : Nibble} (h : OpenSelector l) :
    decodeOptHdr (headerByte 15 l) = .optDeltaReserved l := by
  rw [decodeOptHdr, if_neg (headerByte_ne_marker (.inr (openSelector_ne h))), highNibble_headerByte, if_pos rfl,
    lowNibble_headerByte]

theorem decodeOptHdr_optLengthReserved {d : Nibble} (h : OpenSelector d) :
    decodeOptHdr (headerByte d 15) = .optLengthReserved d := by
  rw [decodeOptHdr, if_neg (headerByte_ne_marker (.inl (openSelector_ne h))), highNibble_headerByte,
    if_neg (openSelector_ne h), lowNibble_headerByte, if_pos rfl]

theorem decodeOptHdr_optionForm {d l : Nibble} (hd : OpenSelector d) (hl : OpenSelector l) :
    decodeOptHdr (headerByte d l) = optionForm d l := by
  rw [decodeOptHdr, if_neg (headerByte_ne_marker (.inl (openSelector_ne hd))), highNibble_headerByte,
    if_neg (openSelector_ne hd), lowNibble_headerByte, if_neg (openSelector_ne hl)]

/-- An open selector is direct, 13 or 14. -/
theorem openSelector_cases {s : Nibble} (h : OpenSelector s) : s.toNat ≤ 12 ∨ s = 13 ∨ s = 14 := by
  rcases Machine.selector_cases s with hs | hs | hs | hs
  · exact .inl hs
  · exact .inr (.inl hs)
  · exact .inr (.inr hs)
  · exact absurd hs (openSelector_ne h)

/-- The option form of two selectors has those selectors. -/
theorem optionSelectors_optionForm {d l : Nibble} (hd : OpenSelector d) (hl : OpenSelector l) :
    optionSelectors (optionForm d l) = some (d, l) := by
  rcases openSelector_cases hd with hd | rfl | rfl <;> rcases openSelector_cases hl with hl | rfl | rfl <;>
    simp [optionForm, optionSelectors, *]

/-- A well-formed option form is the form of its selectors, neither of which is 15: in each of the nine forms the range check
decides the branch of `optionForm`. -/
theorem optionForm_of_optionSelectors {i : Instr} {d l : Nibble} (hi : WellFormed i) (h : optionSelectors i = some (d, l)) :
    OpenSelector d ∧ OpenSelector l ∧ optionForm d l = i := by
  unfold WellFormed at hi
  cases i <;> cases h <;> simp only [wellFormed, Bool.and_eq_true, decide_eq_true_eq] at hi <;>
    simp [optionForm, hi] <;> omega

/-- An option form is encoded as the header byte of its selectors. -/
theorem encode_of_optionSelectors {i : Instr} {d l : Nibble} (h : optionSelectors i = some (d, l)) :
    encode i = .optHdr (headerByte d l) := by
  cases i <;> cases h <;> rfl

theorem decode_encode_optionForm {i : Instr} {d l : Nibble} (hi : WellFormed i) (h : optionSelectors i = some (d, l)) :
    decode (encode i) = i := by
  obtain ⟨hd, hl, hform⟩ := optionForm_of_optionSelectors hi h
  rw [encode_of_optionSelectors h, decode, decodeOptHdr_optionForm hd hl, hform]

/-- Each row of R92 is encoded from the nibbles it was read from. -/
theorem encode_decodeOptHdr (b : Byte) : encode (decodeOptHdr b) = .optHdr b := by
  have hopen : ∀ s : Nibble, s ≠ 15 → OpenSelector s := by decide
  unfold decodeOptHdr
  split_ifs with hmarker hd hl
  · rw [hmarker]; rfl
  · rw [encode, ← hd, headerByte_of_nibbles]
  · rw [encode, ← hl, headerByte_of_nibbles]
  · rw [encode_of_optionSelectors (optionSelectors_optionForm (hopen _ hd) (hopen _ hl)), headerByte_of_nibbles]

/-- Settles O3: the commands, byte 0 and the reserved forms each by their rule, the nine option forms by their selectors. -/
theorem decodeOfEncodeIsTheInstruction : Obligations.DecodeOfEncodeIsTheInstruction := by
  unfold Obligations.DecodeOfEncodeIsTheInstruction
  intro i hi
  cases i with
  | decode | encode | construct | packf | unpackf | payloadMarker => rfl
  | illegalCmd w =>
    exact decodeCmd_illegal (by simpa only [WellFormed, wellFormed, Bool.not_eq_true', decide_eq_false_iff_not] using hi)
  | hdr0 ver typ tkl => exact decodeByte0_hdr0 (of_decide_eq_true hi)
  | hdr0TklReserved ver typ k => exact decodeByte0_hdr0TklReserved (of_decide_eq_true hi)
  | optDeltaReserved l => exact decodeOptHdr_optDeltaReserved (of_decide_eq_true hi)
  | optLengthReserved d => exact decodeOptHdr_optLengthReserved (of_decide_eq_true hi)
  | _ => exact decode_encode_optionForm hi rfl

/-- Settles O4, place by place. -/
theorem encodeOfDecodeIsTheWord : Obligations.EncodeOfDecodeIsTheWord := by
  unfold Obligations.EncodeOfDecodeIsTheWord
  intro f
  cases f with
  | cmd w => exact encode_decodeCmd w
  | byte0 b => exact encode_decodeByte0 b
  | optHdr b => exact encode_decodeOptHdr b

/-- Settles O2: nine closed decodings. -/
theorem writtenOutWireBytesDecode : Obligations.WrittenOutWireBytesDecode := by
  unfold Obligations.WrittenOutWireBytesDecode
  exact ⟨rfl, rfl, rfl, rfl, rfl, rfl, rfl, rfl, rfl⟩

/-- Settles O5: the byte is the header byte of its two nibbles, and each row of R92 is one of the rules above. -/
theorem headerBytesAreClassifiedInPriority : Obligations.HeaderBytesAreClassifiedInPriority := by
  unfold Obligations.HeaderBytesAreClassifiedInPriority
  intro h
  obtain ⟨d, l, rfl⟩ : ∃ d l, h = headerByte d l := ⟨_, _, (headerByte_of_nibbles h).symm⟩
  have hval := toNat_headerByte d l
  have hdiv : (headerByte d l).toNat / 16 = d.toNat := by have := l.isLt; omega
  have hmod : (headerByte d l).toNat % 16 = l.toNat := by have := l.isLt; omega
  simp only [hdiv, hmod, BitVec.ofNat_toNat, BitVec.setWidth_eq, decode]
  refine ⟨fun hm => ?_, fun hm hd => ?_, fun hd hl => ?_, fun hd hl => ?_⟩
  · rw [show headerByte d l = 0xFF from BitVec.eq_of_toNat_eq hm]; rfl
  · obtain rfl : d = 15 := BitVec.eq_of_toNat_eq hd
    exact decodeOptHdr_optDeltaReserved (show l.toNat ≤ 14 by omega)
  · obtain rfl : l = 15 := BitVec.eq_of_toNat_eq hl
    exact decodeOptHdr_optLengthReserved hd
  · rw [decodeOptHdr_optionForm hd hl, optionSelectors_optionForm hd hl]

end Sys2Proof
end

section
/-! The host's `wait`: under the invariant STATUS.BUSY says whether the block is busy, and so whether the access is done
(spec/30_encoding.md R95, spec/10_state.md R45). -/

namespace Sys2Proof.Machine

open Sys2Proof.Claim

/-- STATUS.BUSY reads 0 on an idle block. -/
theorem statusBUSY_of_idle {s : State} (h : s.StatusInv) (hi : s.phase = .idle) : statusBUSY s.status = false := by
  simp only [State.StatusInv, hi, List.mem_cons, List.not_mem_nil, or_false] at h
  rcases h with h | h | h | h | h | h | h | h <;> rw [h] <;> rfl

/-- STATUS.BUSY reads 1 on a busy block. -/
theorem statusBUSY_of_busy {s : State} {w : Word} (h : s.StatusInv) (hb : s.phase = .busy w) : statusBUSY s.status = true := by
  simp only [State.StatusInv, hb] at h
  rw [h]; rfl

/-- Settles O29: the access notes STATUS, and its place in the queue follows STATUS.BUSY. -/
theorem waitReadsStatusUntilIdle : Obligations.WaitReadsStatusUntilIdle := by
  unfold Obligations.WaitReadsStatusUntilIdle
  rintro s rest ⟨-, -, -, -, hstatus, -⟩ hturn
  refine ⟨hostTurn s .wait rest, step_of_hostTurn hturn, rfl, fun _ => ⟨rfl, rfl⟩, rfl, fun hi => ?_, fun ⟨w, hb⟩ => ?_⟩
  · exact if_neg (by rw [statusBUSY_of_idle hstatus hi]; decide)
  · exact if_pos (statusBUSY_of_busy hstatus hb)

end Sys2Proof.Machine
end

section
/-! DECODE reads the wire form of a message: byte sequences that stand in IBUF, one option, the options, the header, and with
them the whole message (spec/30_encoding.md R83 to R90, spec/41_decode.md R124 to R130). -/

namespace Sys2Proof.Machine

open Sys2Proof.Claim

/-! ### Byte sequences in IBUF -/

/-- The bytes `bs` stand in IBUF from address `pos` on. -/
def BytesAt (s : State) (pos : Nat) (bs : List Byte) : Prop := s.ibufSeq pos bs.length = bs

@[simp] theorem bytesAt_nil (s : State) (pos : Nat) : BytesAt s pos [] := rfl

@[simp] theorem bytesAt_cons {s : State} {pos : Nat} {b : Byte} {bs : List Byte} :
    BytesAt s pos (b :: bs) ↔ s.ibufAt pos = b ∧ BytesAt s (pos + 1) bs := by
  rw [BytesAt, List.length_cons, ibufSeq_succ, List.cons.injEq]
  rfl

@[simp] theorem bytesAt_append {s : State} {pos : Nat} {xs ys : List Byte} :
    BytesAt s pos (xs ++ ys) ↔ BytesAt s pos xs ∧ BytesAt s (pos + xs.length) ys := by
  rw [BytesAt, List.length_append, ibufSeq_append]
  constructor
  · exact fun h => List.append_inj h (ibufSeq_length s pos xs.length)
  · rintro ⟨hx, hy⟩
    rw [hx, hy]

/-- Bytes that stand at a cursor, within the input, are the first that UNPACK may look at. -/
theorem BytesAt.prefix_availAt {s : State} {pos : Nat} {bs : List Byte} (h : BytesAt s pos bs) (htwo : bs.length ≤ 2)
    (hend : pos + bs.length ≤ inputLen s) : bs <+: availAt s pos := by
  refine ⟨s.ibufSeq (pos + bs.length) (min 2 (inputLen s - pos) - bs.length), ?_⟩
  calc bs ++ s.ibufSeq (pos + bs.length) (min 2 (inputLen s - pos) - bs.length)
      = s.ibufSeq pos bs.length ++ s.ibufSeq (pos + bs.length) (min 2 (inputLen s - pos) - bs.length) := by rw [h]
    _ = s.ibufSeq pos (bs.length + (min 2 (inputLen s - pos) - bs.length)) := (ibufSeq_append ..).symm
    _ = availAt s pos := by rw [availAt, Nat.add_sub_cancel' (by omega)]

/-! ### One option field (spec/30_encoding.md R88, spec/41_decode.md R120) -/

/-- The three classes of a value: direct, one extension byte, two extension bytes. -/
theorem selOf_extOf_cases (v : Nat) :
    (v ≤ 12 ∧ selOf v = v ∧ extOf v = []) ∨
    (13 ≤ v ∧ v ≤ 268 ∧ selOf v = 13 ∧ extOf v = [BitVec.ofNat 8 (v - 13)]) ∨
    (269 ≤ v ∧ selOf v = 14 ∧ extOf v = [BitVec.ofNat 8 ((v - 269) / 256), BitVec.ofNat 8 ((v - 269) % 256)]) := by
  unfold selOf extOf
  split_ifs <;> simp <;> omega

theorem selOf_le (v : Nat) : selOf v ≤ 14 := by
  rcases selOf_extOf_cases v with ⟨hv, h, -⟩ | ⟨-, -, h, -⟩ | ⟨-, h, -⟩ <;> omega

theorem extOf_length_le (v : Nat) : (extOf v).length ≤ 2 := by
  rcases selOf_extOf_cases v with ⟨-, -, h⟩ | ⟨-, -, -, h⟩ | ⟨-, -, h⟩ <;> simp [h]

/-- UNPACK resolves the selector and the extension bytes of a value to the value. -/
theorem unpack_selOf {v : Nat} {x : List Byte} (kind : SelectorKind) (hv : v ≤ 65804) (hx : extOf v <+: x) :
    unpack (BitVec.ofNat 4 (selOf v)) kind x = .ok { value := v, consumed := (extOf v).length } := by
  obtain ⟨r, rfl⟩ := hx
  rcases selOf_extOf_cases v with ⟨hle, hsel, hext⟩ | ⟨hge, hle, hsel, hext⟩ | ⟨hge, hsel, hext⟩ <;> rw [hsel, hext]
  · have hval : (BitVec.ofNat 4 v).toNat = v := by rw [BitVec.toNat_ofNat]; omega
    rw [unpack_direct kind _ (by omega), hval]; rfl
  · have hval : (BitVec.ofNat 8 (v - 13)).toNat + 13 = v := by rw [BitVec.toNat_ofNat]; omega
    exact (unpack_13_cons kind _ r).trans (by rw [hval]; rfl)
  · have hval : be16 (BitVec.ofNat 8 ((v - 269) / 256)) (BitVec.ofNat 8 ((v - 269) % 256)) + 269 = v := by
      rw [be16, BitVec.toNat_ofNat, BitVec.toNat_ofNat]; omega
    exact (unpack_14_cons kind _ _ r).trans (by rw [hval]; rfl)

/-- The header byte of an option on the wire is the header byte of its two selectors. -/
theorem headerByte_selOf (v u : Nat) :
    BitVec.ofNat 8 (selOf v * 16 + selOf u) = headerByte (BitVec.ofNat 4 (selOf v)) (BitVec.ofNat 4 (selOf u)) := by
  have := selOf_le v; have := selOf_le u
  apply BitVec.eq_of_toNat_eq
  rw [toNat_headerByte, BitVec.toNat_ofNat, BitVec.toNat_ofNat, BitVec.toNat_ofNat]
  omega

/-- No option on the wire starts with the marker. -/
theorem headerByte_selOf_ne_marker (v u : Nat) :
    headerByte (BitVec.ofNat 4 (selOf v)) (BitVec.ofNat 4 (selOf u)) ≠ 0xFF := by
  have hopen : OpenSelector (BitVec.ofNat 4 (selOf v)) := by
    have := selOf_le v
    rw [OpenSelector, BitVec.toNat_ofNat]; omega
  exact headerByte_ne_marker (.inl (openSelector_ne hopen))

/-! ### One option (spec/41_decode.md R126) -/

/-- Where the value of option `o` stands when its header byte stands at `pos`, after an option with number `prev`. -/
def valueAt (pos prev : Nat) (o : Half × List Byte) : Nat :=
  pos + 1 + (extOf (o.1.toNat - prev)).length + (extOf o.2.length).length

/-- The table entry of that option. -/
def entryOf (pos prev : Nat) (o : Half × List Byte) : OptEntry :=
  { num := o.1, off := BitVec.ofNat 16 (valueAt pos prev o), len := BitVec.ofNat 16 o.2.length }

theorem layout_cons (pos prev : Nat) (o : Half × List Byte) (os : List (Half × List Byte)) :
    layout pos prev (o :: os) = entryOf pos prev o :: layout (valueAt pos prev o + o.2.length) o.1.toNat os := rfl

@[simp] theorem layout_length (pos prev : Nat) (os : List (Half × List Byte)) : (layout pos prev os).length = os.length := by
  induction os generalizing pos prev with
  | nil => rfl
  | cons o os ih => rw [layout_cons, List.length_cons, List.length_cons, ih]

/-- What it means that the options and then `tail` stand in IBUF: the first option's header byte, extension bytes and value,
and then the others and `tail`. -/
theorem bytesAt_optionsWire_cons {s : State} {pos prev : Nat} {o : Half × List Byte} {os : List (Half × List Byte)}
    {tail : List Byte} :
    BytesAt s pos (optionsWire prev (o :: os) ++ tail) ↔
      s.ibufAt pos = headerByte (BitVec.ofNat 4 (selOf (o.1.toNat - prev))) (BitVec.ofNat 4 (selOf o.2.length)) ∧
      BytesAt s (pos + 1) (extOf (o.1.toNat - prev)) ∧
      BytesAt s (pos + 1 + (extOf (o.1.toNat - prev)).length) (extOf o.2.length) ∧
      BytesAt s (valueAt pos prev o) o.2 ∧
      BytesAt s (valueAt pos prev o + o.2.length) (optionsWire o.1.toNat os ++ tail) := by
  rw [optionsWire, headerByte_selOf]
  simp only [List.append_assoc, List.cons_append, List.nil_append, bytesAt_cons, bytesAt_append (xs := extOf _),
    bytesAt_append (xs := o.2)]
  rfl

theorem add_length_optionsWire_cons (pos prev : Nat) (o : Half × List Byte) (os : List (Half × List Byte))
    (tail : List Byte) :
    pos + (optionsWire prev (o :: os) ++ tail).length =
      valueAt pos prev o + o.2.length + (optionsWire o.1.toNat os ++ tail).length := by
  simp only [optionsWire, valueAt, List.length_append, List.length_cons, List.length_nil]
  omega

/-- The working values after an option that stands at the cursor. -/
def afterOption (w : Walk) (o : Half × List Byte) : Walk :=
  { stage := .atHeader
    hdr := w.hdr
    cur := valueAt w.cur w.acc o + o.2.length
    acc := o.1.toNat
    opts := w.opts ++ [entryOf w.cur w.acc o] }

/-- DecodeOption reads an option whose fields stand after the cursor. -/
theorem decodeOption_wire {s : State} {w : Walk} {o : Half × List Byte} (hord : w.acc ≤ o.1.toNat)
    (hdelta : BytesAt s (w.cur + 1) (extOf (o.1.toNat - w.acc)))
    (hlength : BytesAt s (w.cur + 1 + (extOf (o.1.toNat - w.acc)).length) (extOf o.2.length))
    (hend : valueAt w.cur w.acc o + o.2.length ≤ inputLen s) (hroom : w.opts.length ≠ s.maxOpts) :
    decodeOption s w (BitVec.ofNat 4 (selOf (o.1.toNat - w.acc))) (BitVec.ofNat 4 (selOf o.2.length)) =
      .more (afterOption w o) := by
  have hnum := o.1.isLt
  have hn := inputLen_lt s
  have hend' := hend
  rw [valueAt] at hend'
  have hd := unpack_selOf .delta (by omega) (hdelta.prefix_availAt (extOf_length_le _) (by omega))
  have hl := unpack_selOf .length (by omega) (hlength.prefix_availAt (extOf_length_le _) (by omega))
  have hacc : w.acc + (o.1.toNat - w.acc) = o.1.toNat := by omega
  have hnumber : ¬ 65535 < o.1.toNat := by omega
  have hrange : ¬ inputLen s < w.cur + 1 + (extOf (o.1.toNat - w.acc)).length + (extOf o.2.length).length + o.2.length := by
    omega
  simp only [decodeOption, hd, hl, hacc, if_neg hnumber, if_neg hrange, if_neg hroom, BitVec.ofNat_toNat,
    BitVec.setWidth_eq]
  rfl

/-! ### The options and the payload (spec/41_decode.md R125, R128) -/

/-- What DECODE of an input of `n` bytes has read when the options end, followed by a marker and this payload, if any. -/
def decodedWith (n : Nat) (hdr : Word) (opts : List OptEntry) (payload : List Byte) : Decoded :=
  { hdr := hdr
    opts := opts
    payOff := if payload = [] then n else n - payload.length
    payLen := payload.length }

/-- The loop ends where only the payload's part of the message is left. -/
theorem decodeLoop_payloadWire {s : State} {w : Walk} {payload : List Byte} {bare : Bool} (fuel : Nat)
    (hbytes : BytesAt s w.cur (payloadWire payload bare)) (hlen : w.cur + (payloadWire payload bare).length = inputLen s) :
    decodeLoop s (fuel + 1) w = .done (decodedWith (inputLen s) w.hdr w.opts payload) := by
  rw [decodeLoop]
  cases payload with
  | nil =>
    cases bare with
    | false =>
      have hcur : w.cur + 0 = inputLen s := hlen
      rw [if_pos (by omega)]; rfl
    | true =>
      obtain ⟨hmarker, -⟩ := bytesAt_cons.mp hbytes
      have hcur : w.cur + 1 = inputLen s := hlen
      rw [if_neg (by omega), if_pos hmarker, decodeMarker, if_neg (by omega)]
      rfl
  | cons p ps =>
    obtain ⟨hmarker, -⟩ := bytesAt_cons.mp hbytes
    have hcur : w.cur + (ps.length + 1 + 1) = inputLen s := hlen
    have hoff : w.cur + 1 = inputLen s - (ps.length + 1) := by omega
    have hpay : inputLen s - w.cur - 1 = ps.length + 1 := by omega
    rw [if_neg (by omega), if_pos hmarker, decodeMarker, if_pos (by omega), hpay, hoff]
    rfl

/-- The loop reads the options and the payload that stand from the cursor to the end of the input. -/
theorem decodeLoop_wire {s : State} {payload : List Byte} {bare : Bool} (os : List (Half × List Byte)) :
    ∀ {w : Walk} {fuel : Nat},
      BytesAt s w.cur (optionsWire w.acc os ++ payloadWire payload bare) →
      w.cur + (optionsWire w.acc os ++ payloadWire payload bare).length = inputLen s →
      (w.acc :: os.map fun o => o.1.toNat).Pairwise (· ≤ ·) → w.opts.length + os.length ≤ s.maxOpts →
      inputLen s - w.cur < fuel →
      decodeLoop s fuel w = .done (decodedWith (inputLen s) w.hdr (w.opts ++ layout w.cur w.acc os) payload) := by
  induction os with
  | nil =>
    intro w fuel hbytes hlen _ _ hfuel
    obtain ⟨fuel, rfl⟩ : ∃ k, fuel = k + 1 := ⟨fuel - 1, by omega⟩
    rw [decodeLoop_payloadWire fuel hbytes hlen, layout, List.append_nil]
  | cons o os ih =>
    intro w fuel hbytes hlen hord hroom hfuel
    obtain ⟨fuel, rfl⟩ : ∃ k, fuel = k + 1 := ⟨fuel - 1, by omega⟩
    obtain ⟨hbyte, hdelta, hlength, -, hrest⟩ := bytesAt_optionsWire_cons.mp hbytes
    rw [add_length_optionsWire_cons] at hlen
    obtain ⟨hfirst, hord'⟩ := List.pairwise_cons.mp hord
    have hcur : w.cur < valueAt w.cur w.acc o := by rw [valueAt]; omega
    have hroom' : w.opts.length + (os.length + 1) ≤ s.maxOpts := hroom
    have hstep : decodeOption s w (highNibble (s.ibufAt w.cur)) (lowNibble (s.ibufAt w.cur)) = .more (afterOption w o) := by
      rw [hbyte, highNibble_headerByte, lowNibble_headerByte]
      exact decodeOption_wire (hfirst _ (List.mem_cons_self ..)) hdelta hlength (by omega) (by omega)
    have hmarker : s.ibufAt w.cur ≠ 0xFF := by rw [hbyte]; exact headerByte_selOf_ne_marker _ _
    rw [decodeLoop, if_neg (by omega), if_neg hmarker, hstep]
    have hread := ih (w := afterOption w o) (fuel := fuel) hrest hlen hord'
      (by simp only [afterOption, List.length_append, List.length_singleton]; omega) (by simp only [afterOption]; omega)
    rw [layout_cons, List.append_cons]
    exact hread

/-- The entries of options that stand in IBUF read back as those options. -/
theorem layout_reads {s : State} {tail : List Byte} (os : List (Half × List Byte)) :
    ∀ {pos prev : Nat}, BytesAt s pos (optionsWire prev os ++ tail) →
      pos + (optionsWire prev os ++ tail).length < 65536 →
      ((layout pos prev os).map fun e => (e.num, s.ibufSeq e.off.toNat e.len.toNat)) = os := by
  induction os with
  | nil => intro pos prev _ _; rfl
  | cons o os ih =>
    intro pos prev hbytes hlen
    obtain ⟨-, -, -, hvalue, hrest⟩ := bytesAt_optionsWire_cons.mp hbytes
    rw [add_length_optionsWire_cons] at hlen
    have hoff : (entryOf pos prev o).off.toNat = valueAt pos prev o := Nat.mod_eq_of_lt (by omega)
    have hentry : (entryOf pos prev o).len.toNat = o.2.length := Nat.mod_eq_of_lt (by omega)
    rw [layout_cons, List.map_cons, hoff, hentry, hvalue, ih hrest hlen]
    rfl

/-! ### The header (spec/41_decode.md R124) -/

/-- The token length field of a message. -/
def tklOf (m : Message) : Nibble := BitVec.ofNat 4 m.token.length

theorem toNat_tklOf {m : Message} (h : m.token.length ≤ 8) : (tklOf m).toNat = m.token.length := by
  rw [tklOf, BitVec.toNat_ofNat]; omega

/-- MSG_HDR of a message. -/
def hdrOf (m : Message) : Word := packMsgHdr m.mid m.code m.ver m.typ (tklOf m)

theorem byte0Of_tklOf {m : Message} (h : m.token.length ≤ 8) :
    BitVec.ofNat 8 (m.ver.toNat * 64 + m.typ.toNat * 16 + m.token.length) = byte0Of m.ver m.typ (tklOf m) := by
  have := m.ver.isLt; have := m.typ.isLt
  apply BitVec.eq_of_toNat_eq
  rw [toNat_byte0Of, toNat_tklOf h, BitVec.toNat_ofNat]
  omega

theorem append_bytes_of_half (v : Half) :
    (BitVec.ofNat 8 (v.toNat / 256) ++ BitVec.ofNat 8 (v.toNat % 256) : Half) = v := by
  have := v.isLt
  apply BitVec.eq_of_toNat_eq
  rw [toNat_append_add, BitVec.toNat_ofNat, BitVec.toNat_ofNat]
  omega

/-- What it means that a message stands in IBUF: byte 0, the code, the message id, the token, and then the options and the
payload. -/
theorem bytesAt_wire {s : State} {m : Message} {bare : Bool} (htkl : m.token.length ≤ 8) (h : BytesAt s 0 (wire m bare)) :
    s.ibufAt 0 = byte0Of m.ver m.typ (tklOf m) ∧ s.ibufAt 1 = m.code ∧ s.ibufAt 2 ++ s.ibufAt 3 = m.mid ∧
      BytesAt s 4 m.token ∧
      BytesAt s (4 + m.token.length) (optionsWire 0 m.options ++ payloadWire m.payload bare) := by
  simp only [wire, headWire, byte0Of_tklOf htkl, List.append_assoc, List.cons_append, List.nil_append, bytesAt_cons,
    bytesAt_append (xs := m.token)] at h
  obtain ⟨h0, h1, h2, h3, htoken, hrest⟩ := h
  exact ⟨h0, h1, by rw [h2, h3, append_bytes_of_half], htoken, hrest⟩

theorem length_wire (m : Message) (bare : Bool) :
    (wire m bare).length = 4 + m.token.length + (optionsWire 0 m.options ++ payloadWire m.payload bare).length := by
  simp only [wire, headWire, List.length_append, List.length_cons, List.length_nil]
  omega

/-! ### The message -/

/-- What DECODE reads of a message whose wire form has `n` bytes. -/
def decodedOf (n : Nat) (m : Message) : Decoded :=
  decodedWith n (hdrOf m) (layout (4 + m.token.length) 0 m.options) m.payload

@[simp] theorem decodedOf_hdr (n : Nat) (m : Message) : (decodedOf n m).hdr = hdrOf m := rfl

@[simp] theorem decodedOf_opts (n : Nat) (m : Message) :
    (decodedOf n m).opts = layout (4 + m.token.length) 0 m.options := rfl

theorem decodedOf_payOff (n : Nat) (m : Message) :
    (decodedOf n m).payOff = if m.payload = [] then n else n - m.payload.length := rfl

@[simp] theorem decodedOf_payLen (n : Nat) (m : Message) : (decodedOf n m).payLen = m.payload.length := rfl

/-- DECODE reads the message whose wire form is its input. -/
theorem decodeMessage_wire {s : State} {m : Message} {bare : Bool} (htkl : m.token.length ≤ 8)
    (hcount : m.options.length ≤ s.maxOpts) (hord : m.options.Pairwise fun a b => a.1.toNat ≤ b.1.toNat)
    (hsize : inputLen s ≤ s.ibufSize) (hlen : (wire m bare).length = inputLen s) (hbytes : BytesAt s 0 (wire m bare)) :
    decodeMessage s = .done (decodedOf (inputLen s) m) := by
  obtain ⟨h0, h1, hmid, -, hrest⟩ := bytesAt_wire htkl hbytes
  rw [length_wire] at hlen
  rw [decodeMessage, h0, byte0Ver_byte0Of, byte0Typ_byte0Of, byte0Tkl_byte0Of, decodeHeader, h1, hmid, toNat_tklOf htkl,
    if_neg (by omega), if_neg (by omega), if_neg (by omega), if_neg (by omega)]
  refine decodeLoop_wire m.options hrest hlen ?_ (by simpa using hcount) (by omega)
  exact List.pairwise_cons.mpr ⟨fun _ _ => Nat.zero_le _, List.pairwise_map.mpr hord⟩

/-- The payload of a message on the wire stands where the descriptor that DECODE reads says. -/
theorem bytesAt_payload {s : State} {m : Message} {bare : Bool} (htkl : m.token.length ≤ 8)
    (hlen : (wire m bare).length = inputLen s) (hbytes : BytesAt s 0 (wire m bare)) :
    BytesAt s (decodedOf (inputLen s) m).payOff m.payload := by
  obtain ⟨-, -, -, -, hrest⟩ := bytesAt_wire htkl hbytes
  obtain ⟨-, hpay⟩ := bytesAt_append.mp hrest
  rw [length_wire, List.length_append] at hlen
  by_cases hempty : m.payload = []
  · rw [hempty]; exact bytesAt_nil s _
  · have hwire : payloadWire m.payload bare = 0xFF :: m.payload := if_neg hempty
    rw [hwire] at hpay hlen
    obtain ⟨-, hpay⟩ := bytesAt_cons.mp hpay
    rw [List.length_cons] at hlen
    have hoff : (decodedOf (inputLen s) m).payOff = 4 + m.token.length + (optionsWire 0 m.options).length + 1 := by
      rw [decodedOf_payOff, if_neg hempty]
      omega
    rwa [hoff]

/-- The payload descriptor fits its register's fields (R32). -/
theorem payDesc_fits {n : Nat} {m : Message} (hn : n < 65536) (hlen : m.payload.length ≤ n) :
    (decodedOf n m).payOff % 65536 = (decodedOf n m).payOff ∧ m.payload.length % 65536 = m.payload.length := by
  refine ⟨Nat.mod_eq_of_lt ?_, Nat.mod_eq_of_lt (by omega)⟩
  rw [decodedOf_payOff]
  split <;> omega

theorem payload_length_le (m : Message) (bare : Bool) : m.payload.length ≤ (wire m bare).length := by
  have hpay : m.payload.length ≤ (payloadWire m.payload bare).length := by
    unfold payloadWire
    split
    · rw [‹m.payload = []›]; exact Nat.zero_le _
    · exact Nat.le_succ _
  rw [length_wire, List.length_append]
  omega

/-- The options of the registers that a DECODE leaves are those it has read. -/
theorem liveOpts_commitDecoded (s : State) {d : Decoded} (h : d.opts.length < 256) :
    (completeOk (commitDecoded s d)).liveOpts = d.opts := by
  rw [State.liveOpts, completeOk_optCount, commitDecoded_optCount, countField_ofNat _ h, completeOk_opts,
    commitDecoded_opts, List.take_left]

/-- The registers that DECODE leaves denote the message it has read. -/
theorem messageOf_decoded {s : State} {m : Message} {bare : Bool} (htkl : m.token.length ≤ 8)
    (hcount : m.options.length ≤ s.maxOpts) (hlen : (wire m bare).length = inputLen s) (hbytes : BytesAt s 0 (wire m bare)) :
    messageOf (completeOk (commitDecoded s (decodedOf (inputLen s) m))) = m := by
  have hn := inputLen_lt s
  have hmax := maxOpts_lt s
  have hopts : (decodedOf (inputLen s) m).opts.length < 256 := by rw [decodedOf_opts, layout_length]; omega
  have hseq := SameInput.ibufSeq (t := completeOk (commitDecoded s (decodedOf (inputLen s) m))) (s := s) ⟨rfl, rfl, rfl⟩
  obtain ⟨hoff, hpayLen⟩ := payDesc_fits hn (hlen ▸ payload_length_le m bare)
  obtain ⟨-, -, -, htoken, hrest⟩ := bytesAt_wire htkl hbytes
  have htoken : s.ibufSeq (lowHalf 4#32) m.token.length = m.token := htoken
  have hoptions := layout_reads m.options hrest (by rw [← length_wire, hlen]; exact hn)
  have hpayload : s.ibufSeq (decodedOf (inputLen s) m).payOff m.payload.length = m.payload :=
    bytesAt_payload htkl hlen hbytes
  simp [messageOf, hseq, hdrOf, toNat_tklOf htkl, htoken, liveOpts_commitDecoded s hopts, hoptions, hoff, hpayLen, hpayload]

/-- Settles O15: DECODE commits the message it reads, and the committed registers denote it. -/
theorem decodeReadsTheMessage : Obligations.DecodeReadsTheMessage := by
  unfold Obligations.DecodeReadsTheMessage
  intro s m bare htkl hcount hord hsize hinput
  have hlen : (wire m bare).length = inputLen s := by rw [← hinput, ibufSeq_length]
  have hbytes : BytesAt s 0 (wire m bare) := by rw [BytesAt, hlen, hinput]
  have hread := decodeMessage_wire htkl hcount hord hsize hlen hbytes
  have hmax := maxOpts_lt s
  obtain ⟨hoff, hpayLen⟩ := payDesc_fits (inputLen_lt s) (hlen ▸ payload_length_le m bare)
  refine ⟨completeOk (commitDecoded s (decodedOf (inputLen s) m)), ?_, ?_, fun _ => ⟨rfl, rfl⟩, ?_, ?_, ?_, ?_,
    messageOf_decoded htkl hcount hlen hbytes⟩
  · rw [exec, execDecode, hread, settle_done]
  · rw [← layout_length (4 + m.token.length) 0 m.options]; rfl
  · rw [completeOk_msgHdr, commitDecoded_msgHdr, decodedOf_hdr, hdrOf, toNat_packMsgHdr, toNat_tklOf htkl]
  · rw [completeOk_optCount, commitDecoded_optCount, decodedOf_opts, layout_length, BitVec.toNat_ofNat,
      Nat.mod_eq_of_lt (by omega)]
  · rw [completeOk_payDesc, commitDecoded_payDesc, highHalf_packDesc, BitVec.toNat_ofNat, decodedOf_payLen, hpayLen]
  · rw [completeOk_payDesc, commitDecoded_payDesc, lowHalf_packDesc, BitVec.toNat_ofNat, hoff, decodedOf_payOff]

end Sys2Proof.Machine
end

section
/-! DECODE taken one wire form at a time (spec/40_command_interface.md R103, spec/41_decode.md R124 to R128): the step of each
position of the walk, and by them the whole of it. An instruction that was placed runs in the next step by the same rules. -/

namespace Sys2Proof.Machine

open Sys2Proof.Claim

/-! ### The engine's step, by what it fetches -/

/-- On the engine's turn the step executes the instruction that is fetched. -/
theorem step_of_fetch {s : State} {w : Word} {f : Fetched} (h : EngineTurn s w) (hf : fetchFor s w = some f) :
    step s = exec (decode f) s := by
  have hturn := turnOf_of_engineTurn h
  obtain ⟨hbusy, -⟩ := h
  have hfetch : fetch s = some f := by simp only [fetch, hbusy, hf]
  simp only [step, hturn, hfetch]

/-- On the engine's turn, where nothing is left to fetch, the step ends the DECODE under way. -/
theorem step_of_fetch_none {s : State} {w : Word} (h : EngineTurn s w) (hf : fetchFor s w = none) :
    step s = .next (settle s (decodeEnd s s.walk)) := by
  have hturn := turnOf_of_engineTurn h
  obtain ⟨hbusy, -⟩ := h
  have hfetch : fetch s = none := by simp only [fetch, hbusy, hf]
  simp only [step, hturn, hfetch, finishWalk]

theorem fetchFor_off {s : State} (w : Word) (hs : s.walk.stage = .off) : fetchFor s w = some (.cmd w) := by
  simp only [fetchFor, hs]

theorem fetchFor_atByte0 {s : State} (w : Word) (hs : s.walk.stage = .atByte0) :
    fetchFor s w = some (.byte0 (s.ibufAt 0)) := by
  simp only [fetchFor, hs]

theorem fetchFor_atHeader {s : State} (w : Word) (hs : s.walk.stage = .atHeader) (hcur : s.walk.cur < inputLen s) :
    fetchFor s w = some (.optHdr (s.ibufAt s.walk.cur)) := by
  simp only [fetchFor, hs, if_neg (Nat.not_le.mpr hcur)]

theorem fetchFor_atEnd {s : State} (w : Word) (hs : s.walk.stage = .atHeader) (hcur : inputLen s ≤ s.walk.cur) :
    fetchFor s w = none := by
  simp only [fetchFor, hs, if_pos hcur]

/-- Settles O30: outside a DECODE taken form by form, what is fetched is the command word. -/
theorem stepExecutesTheAcceptedCommand : Obligations.StepExecutesTheAcceptedCommand := by
  unfold Obligations.StepExecutesTheAcceptedCommand
  intro s w h hs
  exact step_of_fetch h (fetchFor_off w hs)

/-! ### A step of DECODE, by where its working values stand -/

section
variable {s : State} {op : Word}

theorem step_byte0 (h : EngineTurn s op) (hs : s.walk.stage = .atByte0) :
    step s =
      .next (settle s (decodeHeader s (byte0Ver (s.ibufAt 0)) (byte0Typ (s.ibufAt 0)) (byte0Tkl (s.ibufAt 0)))) := by
  rw [step_of_fetch h (fetchFor_atByte0 op hs), decode, exec_byte0]

theorem step_marker (h : EngineTurn s op) (hs : s.walk.stage = .atHeader) (hcur : s.walk.cur < inputLen s)
    (hb : s.ibufAt s.walk.cur = 0xFF) : step s = .next (settle s (decodeMarker s s.walk)) := by
  rw [step_of_fetch h (fetchFor_atHeader op hs hcur), hb]
  rfl

theorem step_option (h : EngineTurn s op) (hs : s.walk.stage = .atHeader) (hcur : s.walk.cur < inputLen s)
    (hb : s.ibufAt s.walk.cur ≠ 0xFF) :
    step s = .next (settle s
      (decodeOption s s.walk (highNibble (s.ibufAt s.walk.cur)) (lowNibble (s.ibufAt s.walk.cur)))) := by
  rw [step_of_fetch h (fetchFor_atHeader op hs hcur), decode, exec_optHdr s hb]

end

/-! ### The whole of DECODE -/

theorem run_one {s t : State} (h : step s = .next t) : Host.Core.run core 1 s = .next t := run_succ 0 h

/-- The working values are no input of DECODE, and whatever it answers replaces them. -/
theorem settle_decodeLoop_walk (s : State) (w w' : Walk) (fuel : Nat) :
    settle { s with walk := w } (decodeLoop { s with walk := w } fuel w') = settle s (decodeLoop s fuel w') := by
  have hsame : SameInput s { s with walk := w } := ⟨rfl, rfl, rfl⟩
  rw [hsame.decodeLoop]
  cases decodeLoop s fuel w' <;> rfl

/-- The steps from an option header position end where the loop of DecodeOptions ends, and are at most as many as its rounds. -/
theorem run_decodeLoop {op : Word} (fuel : Nat) : ∀ {s : State}, EngineTurn s op → s.walk.stage = .atHeader →
    ∃ k, k ≤ fuel ∧ Host.Core.run core k s = .next (settle s (decodeLoop s fuel s.walk)) := by
  induction fuel with
  | zero => exact fun _ _ => ⟨0, le_rfl, rfl⟩
  | succ fuel ih =>
    intro s h hs
    rw [decodeLoop]
    by_cases hend : inputLen s ≤ s.walk.cur
    · exact ⟨1, by omega, by rw [if_pos hend]; exact run_one (step_of_fetch_none h (fetchFor_atEnd op hs hend))⟩
    have hcur : s.walk.cur < inputLen s := Nat.not_le.mp hend
    rw [if_neg hend]
    by_cases hb : s.ibufAt s.walk.cur = 0xFF
    · exact ⟨1, by omega, by rw [if_pos hb]; exact run_one (step_marker h hs hcur hb)⟩
    rw [if_neg hb]
    have hstep := step_option h hs hcur hb
    rcases hv : decodeOption s s.walk (highNibble (s.ibufAt s.walk.cur)) (lowNibble (s.ibufAt s.walk.cur)) with
      e | w | d <;> rw [hv] at hstep
    · exact ⟨1, by omega, run_one hstep⟩
    · obtain ⟨hw, -⟩ := decodeOption_more_bounds hv
      obtain ⟨k, hk, hrun⟩ := ih (s := { s with walk := w }) h hw
      rw [settle_decodeLoop_walk] at hrun
      exact ⟨k + 1, by omega, (run_succ k hstep).trans hrun⟩
    · exact absurd hv decodeOption_not_done

/-- A DECODE before byte 0 ends as the atomic DECODE does: one step for the header, then at most one for each round of the loop. -/
theorem run_decodeMessage {s : State} {op : Word} (h : EngineTurn s op) (hs : s.walk.stage = .atByte0) :
    ∃ k, k ≤ inputLen s + 2 ∧ Host.Core.run core k s = .next (settle s (decodeMessage s)) := by
  have hstep := step_byte0 h hs
  rw [decodeMessage]
  rcases hv : decodeHeader s (byte0Ver (s.ibufAt 0)) (byte0Typ (s.ibufAt 0)) (byte0Tkl (s.ibufAt 0)) with e | w | d <;>
    rw [hv] at hstep
  · exact ⟨1, by omega, run_one hstep⟩
  · obtain ⟨hw, -⟩ := decodeHeader_walkOk hv
    obtain ⟨k, hk, hrun⟩ := run_decodeLoop (inputLen s + 1) (s := { s with walk := w }) h hw
    rw [settle_decodeLoop_walk] at hrun
    exact ⟨k + 1, by omega, (run_succ k hstep).trans hrun⟩
  · exact ⟨1, by omega, run_one hstep⟩

/-- Settles O24: the atomic DECODE reads the same message and replaces the working values. -/
theorem decodeIsItsWireForms : Obligations.DecodeIsItsWireForms := by
  unfold Obligations.DecodeIsItsWireForms
  intro s h _
  obtain ⟨k, hk, hrun⟩ := run_decodeMessage (s := { s with walk := Walk.start }) h rfl
  have hsame : SameInput s { s with walk := Walk.start } := ⟨rfl, rfl, rfl⟩
  refine ⟨k, hk, hrun.trans ?_⟩
  rw [hsame.decodeMessage]
  rcases execDecode_cases s with ⟨e, hv, ht⟩ | ⟨d, hv, ht⟩
  · rw [hv]; exact ht.symm
  · rw [hv]; exact ht.symm

/-! ### A placed instruction -/

/-- The first byte of a sequence written within a buffer is what its address then reads as. -/
theorem byteAt_writeSeq_head {space : Space} {size : Nat} {m : Memory} {a : Nat} {b : Byte} {bs : List Byte}
    (h : a + (b :: bs).length ≤ size) : Memory.byteAt space size (Memory.writeSeq m a (b :: bs)) a = b := by
  have hin : a ≤ a ∧ a < a + (b :: bs).length := by simp
  rw [byteAt_writeSeq a h, dif_pos hin]
  simp

/-- The input of a placed option header is the whole of IBUF. -/
theorem inputLen_placeOptionHeader (s : State) (b : Byte) : inputLen (placeOptionHeader s b) = s.ibufSize :=
  lowHalf_packDesc s.params.ibufSize 0

/-- A placed instruction is what the engine fetches, where IBUF holds the bytes that are placed with it. -/
theorem step_placeFetched {s : State} (f : Fetched) (h : 9 ≤ s.ibufSize) :
    step (placeFetched s f) = exec (decode f) (placeFetched s f) := by
  cases f with
  | cmd w => exact step_of_fetch (w := w) ⟨rfl, .inr rfl⟩ rfl
  | byte0 b =>
    have hb : (placeByte0 s b).ibufAt 0 = b := byteAt_writeSeq_head (size := s.ibufSize) (by simp; omega)
    refine step_of_fetch (w := 1) ⟨rfl, .inr rfl⟩ ?_
    rw [placeFetched, fetchFor_atByte0 1 rfl, hb]
  | optHdr b =>
    have hb : (placeOptionHeader s b).ibufAt 4 = b := byteAt_writeSeq_head (size := s.ibufSize) (by simp; omega)
    have hcur : 4 < inputLen (placeOptionHeader s b) := by rw [inputLen_placeOptionHeader]; omega
    refine step_of_fetch (w := 1) ⟨rfl, .inr rfl⟩ ?_
    rw [placeFetched, fetchFor_atHeader 1 rfl hcur]
    exact congrArg (fun x => some (Fetched.optHdr x)) hb

/-- The instruction of a table word is the one that is fetched for it. -/
theorem fetchedOfTable_of_decodeTableWord {nbits w : Nat} {i : Instr} (h : decodeTableWord nbits w = some i) :
    ∃ f, fetchedOfTable nbits w = .ok f ∧ decode f = i := by
  rcases hf : fetchedOfTable nbits w with e | f
  · simp only [decodeTableWord, hf, reduceCtorEq] at h
  · simp only [decodeTableWord, hf, Option.some.injEq] at h
    exact ⟨f, rfl, h⟩

theorem withFetchWord_ok {s : State} {nbits w : Nat} {f : Fetched} (h : fetchedOfTable nbits w = .ok f) :
    s.withFetchWord nbits w = placeFetched s f := by
  simp only [State.withFetchWord, h]

/-- Settles O51: the bits of a row are one fetched word, which is placed and decoded. -/
theorem placedInstructionRunsNext : Obligations.PlacedInstructionRunsNext := by
  unfold Obligations.PlacedInstructionRunsNext
  intro s nbits w i hsize hi
  obtain ⟨f, hf, rfl⟩ := fetchedOfTable_of_decodeTableWord hi
  rw [withFetchWord_ok hf]
  exact step_placeFetched f hsize

end Sys2Proof.Machine
end

section
/-! A command from its acceptance to its completion: what the host can do meanwhile, that it does not affect the result, and what
the completion leaves in STATUS (spec/40_command_interface.md R100 to R109). -/

namespace Sys2Proof.Machine

open Sys2Proof.Claim

/-! ### Completion -/

/-- A command word completes its command, with success or with an error (R103). -/
theorem execCommand_completes (w : Word) (s : State) :
    (∃ u, exec (decodeCmd w) s = .next (completeOk u)) ∨ ∃ e, exec (decodeCmd w) s = .next (completeErr s e) := by
  rcases execCommand_cases w s with ⟨e, -, ht⟩ | ⟨-, d, -, ht⟩ | ⟨-, out, -, ht⟩ | ⟨-, -, ht⟩ | ⟨-, p, ht⟩ |
      ⟨-, value, consumed, ht⟩
  case inl => exact .inr ⟨e, ht⟩
  all_goals exact .inl ⟨_, ht⟩

theorem statusOk_flags : statusBUSY statusOk = false ∧ statusDONE statusOk = true := by decide

/-- Settles O33: a success leaves STATUS 2, an error DONE and ERR. -/
theorem everyCommandCompletes : Obligations.EveryCommandCompletes := by
  unfold Obligations.EveryCommandCompletes
  intro s w
  rcases execCommand_completes w s with ⟨u, ht⟩ | ⟨e, ht⟩
  · obtain ⟨hbusy, hdone⟩ := statusOk_flags
    exact ⟨completeOk u, ht, rfl, rfl, hbusy, hdone, fun _ => rfl⟩
  · obtain ⟨hbusy, hdone, herr⟩ := statusErr_flags e
    exact ⟨completeErr s e, ht, rfl, rfl, hbusy, hdone, fun hclear => nomatch herr.symm.trans hclear⟩

theorem illegalCmd_fails (s : State) (w : Word) : FailsWith (.illegalCmd w) s 0x000000F6 :=
  ⟨completeErr s .illegalCommand, rfl, by rw [completeErr, statusErr_illegalCommand, finished], fun _ => ⟨rfl, rfl⟩⟩

/-- Settles O25: every word outside 1 to 5 is the illegal command, whatever it is. -/
theorem illegalWordsFailWithIllegalCommand : Obligations.IllegalWordsFailWithIllegalCommand := by
  unfold Obligations.IllegalWordsFailWithIllegalCommand
  refine ⟨illegalCmd_fails, fun s w hw => ?_⟩
  have hillegal : ¬ LegalCommandWord w := by rintro ⟨h1, h5⟩; omega
  rw [decode, decodeCmd_illegal hillegal]
  exact illegalCmd_fails s w

/-! ### Accesses of an idle block -/

/-- A write of CMD is an acceptance (R100). -/
theorem hostWriteReg_cmd (s : State) (w : Word) : hostWriteReg s 0 w = accept s w := rfl

/-- Settles O26: the access is the acceptance of its word. -/
theorem commandWriteIsAccepted : Obligations.CommandWriteIsAccepted := by
  unfold Obligations.CommandWriteIsAccepted
  intro s w rest hi hp
  refine ⟨accept { s with port := rest } w, ?_, rfl, fun _ => ⟨rfl, rfl⟩⟩
  rw [step_idle_access hi hp, hostTurn_wreg_idle 0 w rest hi, hostWriteReg_cmd]

/-- A write of a register other than CMD leaves PHASE and STATUS alone. -/
theorem hostWriteReg_keeps_status {s : State} {w : BitVec 10} (v : Word) (hw : w ≠ 0) :
    (hostWriteReg s w v).status = s.status ∧ (hostWriteReg s w v).phase = s.phase := by
  rcases hostWriteReg_cases s w v with ⟨h0, -⟩ | ⟨r, -, -, -, ht⟩ | ⟨-, ht⟩
  · exact absurd h0 hw
  · rw [ht, storeReg_frame]; exact ⟨rfl, rfl⟩
  · rw [ht]; exact ⟨rfl, rfl⟩

/-- Of the accesses of an idle block only a write of CMD and reset touch PHASE and STATUS. -/
theorem hostTurn_keeps_status {s : State} {op : HostOp} (rest : List HostOp) (hi : s.phase = .idle)
    (hcmd : ∀ v, op ≠ .wreg 0 v) (hreset : op ≠ .reset) :
    (hostTurn s op rest).status = s.status ∧ (hostTurn s op rest).phase = s.phase := by
  cases op with
  | wreg w v =>
    rw [hostTurn_wreg_idle w v rest hi]
    exact hostWriteReg_keeps_status v fun hw => hcmd v (hw ▸ rfl)
  | wibuf a b => rw [hostTurn_wibuf_idle a b rest hi, hostWriteIbuf_frame]; exact ⟨rfl, rfl⟩
  | wobuf a b => rw [hostTurn_wobuf_idle a b rest hi]; exact ⟨rfl, rfl⟩
  | reset => exact absurd rfl hreset
  | _ => exact ⟨rfl, rfl⟩

/-- Settles O37: an idle block waits or serves an access, and the engine has no turn. -/
theorem statusStaysUntilTheNextCommandOrReset : Obligations.StatusStaysUntilTheNextCommandOrReset := by
  unfold Obligations.StatusStaysUntilTheNextCommandOrReset
  intro s t hi hstep hcmd hreset
  rcases step_cases s with ⟨-, -, ht⟩ | ⟨op, rest, hp, -, ht⟩ | ⟨w, f, hbusy, -⟩ | ⟨w, hbusy, -⟩
  · cases ht.symm.trans hstep; exact ⟨rfl, hi⟩
  · cases ht.symm.trans hstep
    obtain ⟨hstatus, hphase⟩ := hostTurn_keeps_status rest hi (fun v hop => hcmd v rest (hop ▸ hp))
      fun hop => hreset rest (hop ▸ hp)
    exact ⟨hstatus, hphase.trans hi⟩
  · cases hi.symm.trans hbusy
  · cases hi.symm.trans hbusy

/-! ### Accesses of a busy block -/

/-- An access writes, reads one location, waits, or is the reset input. -/
theorem hostOp_cases (s : State) (a : HostOp) :
    isWrite a = true ∨ (∃ v, readValue s a = some v) ∨ a = .wait ∨ a = .reset := by
  cases a with
  | wait => exact .inr (.inr (.inl rfl))
  | reset => exact .inr (.inr (.inr rfl))
  | rreg w => exact .inr (.inl ⟨_, rfl⟩)
  | ribuf a => exact .inr (.inl ⟨_, rfl⟩)
  | robuf a => exact .inr (.inl ⟨_, rfl⟩)
  | _ => exact .inl rfl

/-- A write to a busy block has no effect but on the queue and the delay (R101, R102). -/
theorem hostTurn_write_busy {s : State} {op : Word} {a : HostOp} (rest : List HostOp) (hb : s.phase = .busy op)
    (ha : isWrite a = true) : hostTurn s a rest = { s with port := rest, delay := s.delay - 1 } := by
  cases a with
  | wreg w v => exact hostTurn_wreg_busy w v rest hb
  | wibuf a b => exact hostTurn_wibuf_busy a b rest hb
  | wobuf a b => exact hostTurn_wobuf_busy a b rest hb
  | _ => cases ha

theorem hostTurn_read_busy {s : State} {op : Word} {a : HostOp} {v : Reply} (rest : List HostOp) (hb : s.phase = .busy op)
    (hv : readValue s a = some v) :
    hostTurn s a rest = { s with port := rest, delay := s.delay - 1, replies := s.replies ++ [v] } := by
  simp [hostTurn_read rest hv, isIdle_of_busy hb]

/-- The register at word index 1 is STATUS. -/
theorem hostReadReg_status (s : State) : hostReadReg s 1 = s.status := hostReadReg_reg (r := .status) trivial

/-- Settles O27, access by access; what STATUS holds while busy is the invariant's. -/
theorem busyBlockIgnoresWritesAndShowsItsState : Obligations.BusyBlockIgnoresWritesAndShowsItsState := by
  unfold Obligations.BusyBlockIgnoresWritesAndShowsItsState
  intro s op a rest hb hturn
  have hstep := step_of_hostTurn hturn
  refine ⟨fun ha => ?_, fun v hv => ?_, fun hinv => ?_⟩
  · exact ⟨_, hstep.trans (by rw [hostTurn_write_busy rest hb ha]), rfl, fun _ => ⟨rfl, rfl⟩⟩
  · exact ⟨_, hstep.trans (by rw [hostTurn_read_busy rest hb hv]), rfl, fun _ => ⟨rfl, rfl⟩⟩
  · obtain ⟨-, -, -, -, hstatus, -⟩ := hinv
    simp only [State.StatusInv, hb] at hstatus
    rw [readValue, hostReadReg_status, hstatus]

/-- A `wait` notes STATUS and keeps its place in the queue or leaves it (spec/30_encoding.md R95). -/
theorem hostTurn_wait_busy {s : State} {op : Word} (rest : List HostOp) (hb : s.phase = .busy op) :
    hostTurn s .wait rest =
      { s with port := portAfter s .wait rest, delay := s.delay - 1, replies := s.replies ++ [.reg s.status] } := by
  simp [hostTurn, hostAccess, reply, isIdle_of_busy hb]

/-- An access served leaves in the queue nothing that was not there. -/
theorem mem_portAfter {s : State} {a x : HostOp} {rest : List HostOp} (h : x ∈ portAfter s a rest) : x ∈ a :: rest := by
  unfold portAfter at h
  repeat' split at h
  · exact h
  all_goals exact List.mem_cons_of_mem _ h

/-- While a command runs, an access but the reset input changes the queue, the replies and the delay only, and leaves in the queue
nothing that was not there. -/
theorem hostTurn_busy {s : State} {op : Word} {a : HostOp} (rest : List HostOp) (hb : s.phase = .busy op)
    (hreset : a ≠ .reset) :
    ∃ port replies, hostTurn s a rest = { s with port := port, replies := replies, delay := s.delay - 1 } ∧
      ∀ x ∈ port, x ∈ a :: rest := by
  rcases hostOp_cases s a with ha | ⟨v, hv⟩ | rfl | rfl
  · exact ⟨rest, s.replies, hostTurn_write_busy rest hb ha, fun _ => List.mem_cons_of_mem a⟩
  · exact ⟨rest, _, hostTurn_read_busy rest hb hv, fun _ => List.mem_cons_of_mem a⟩
  · exact ⟨_, _, hostTurn_wait_busy rest hb, fun _ => mem_portAfter⟩
  · exact absurd rfl hreset

/-! ### The result does not depend on the host's side (R107) -/

theorem sameBlock_iff {s t : State} : SameBlock s t ↔
    ∃ port replies delay accepted,
      t = { s with port := port, replies := replies, delay := delay, accepted := accepted } := by
  constructor
  · exact fun h => ⟨_, _, _, _, h⟩
  · rintro ⟨port, replies, delay, accepted, rfl⟩; rfl

theorem sameBlock_trans {s t u : State} (hst : SameBlock s t) (htu : SameBlock t u) : SameBlock s u := by
  obtain ⟨p, r, d, a, rfl⟩ := sameBlock_iff.mp hst
  obtain ⟨p', r', d', a', rfl⟩ := sameBlock_iff.mp htu
  rfl

/-- States of the same block give a command the same result. -/
theorem execCommand_sameBlock {s t : State} (w : Word) (h : SameBlock s t) :
    ∃ u v, exec (decodeCmd w) s = .next u ∧ exec (decodeCmd w) t = .next v ∧ SameBlock u v := by
  obtain ⟨p, r, d, a, ht⟩ := sameBlock_iff.mp h
  have hdec : decodeMessage t = decodeMessage s := SameInput.decodeMessage (by subst ht; exact ⟨rfl, rfl, rfl⟩)
  have henc : encodeMessage t = encodeMessage s :=
    SameRegisters.encodeMessage (by subst ht; exact ⟨⟨rfl, rfl, rfl⟩, rfl, rfl, rfl, rfl, rfl⟩)
  subst ht
  rcases decodeCmd_cases w with ⟨-, hi⟩ | ⟨-, hi⟩ | ⟨-, hi⟩ | ⟨-, hi⟩ | ⟨-, hi⟩ | hi <;> rw [hi]
  · refine ⟨_, _, rfl, rfl, ?_⟩
    rw [hdec]
    cases decodeMessage s <;> rfl
  · rcases hm : encodeMessage s with out | e
    · exact ⟨_, _, execEncode_ok hm, execEncode_ok (henc.trans hm), rfl⟩
    · exact ⟨_, _, execEncode_raise hm, execEncode_raise (henc.trans hm), rfl⟩
  · by_cases hc : s.maxOpts < countField s.optCount
    · exact ⟨_, _, execConstruct_raise hc, execConstruct_raise hc, rfl⟩
    · exact ⟨_, _, execConstruct_ok (Nat.not_lt.mp hc), execConstruct_ok (Nat.not_lt.mp hc), rfl⟩
  · rcases hp : pack (packInValue s.packIn) with p | e
    · exact ⟨_, _, execPackf_ok hp, execPackf_ok hp, rfl⟩
    · exact ⟨_, _, execPackf_raise hp, execPackf_raise hp, rfl⟩
  · rcases hu : unpack (unpackInSel s.unpackIn) (unpackInKind s.unpackIn) (unpackInBytes s.unpackIn) with u | e
    · exact ⟨_, _, execUnpackf_ok hu, execUnpackf_ok hu, rfl⟩
    · exact ⟨_, _, execUnpackf_raise hu, execUnpackf_raise hu, rfl⟩
  · exact ⟨_, _, rfl, rfl, rfl⟩

/-- On the engine's turn the command completes in one step. -/
theorem run_engineTurn {s : State} {w : Word} (h : EngineTurn s w) (hwalk : s.walk = Walk.idle) :
    ∃ t, Host.Core.run core 1 s = .next t ∧ exec (decodeCmd w) s = .next t ∧ t.phase = .idle := by
  obtain ⟨t, ht, hidle, -⟩ := everyCommandCompletes s w
  exact ⟨t, run_one ((step_command h hwalk).trans ht), ht, hidle⟩

/-- Before the completion the host's next access is served, and of the block nothing changes. -/
theorem step_busy_access {s : State} {w : Word} (hb : s.phase = .busy w) (hreset : ∀ op ∈ s.port, op ≠ .reset)
    (hturn : ¬ (s.port = [] ∨ s.delay = 0)) :
    ∃ s', step s = .next s' ∧ s'.delay + 1 = s.delay ∧ (∀ op ∈ s'.port, op ≠ .reset) ∧ SameBlock s' s := by
  obtain ⟨hport, hdelay⟩ := not_or.mp hturn
  obtain ⟨a, rest, hp⟩ := List.exists_cons_of_ne_nil hport
  obtain ⟨port, replies, ht, hsub⟩ := hostTurn_busy rest hb (hreset a (by simp [hp]))
  refine ⟨hostTurn s a rest, step_of_hostTurn ⟨hp, .inr (Nat.pos_of_ne_zero hdelay)⟩, ?_⟩
  rw [ht]
  exact ⟨Nat.sub_add_cancel (Nat.pos_of_ne_zero hdelay), fun x hx => hreset x (hp ▸ hsub x hx), rfl⟩

/-- Settles O36, by induction on the delay: each access of the host leaves the block as it is, and so the result. -/
theorem delayedCommandGivesTheAcceptanceResult : Obligations.DelayedCommandGivesTheAcceptanceResult := by
  unfold Obligations.DelayedCommandGivesTheAcceptanceResult
  intro s w hb hwalk hreset
  induction hn : s.delay using Nat.strong_induction_on generalizing s with
  | _ n ih =>
    by_cases hturn : s.port = [] ∨ s.delay = 0
    · obtain ⟨t, hrun, ht, hidle⟩ := run_engineTurn ⟨hb, hturn⟩ hwalk
      exact ⟨1, t, t, by omega, hrun, ht, hidle, rfl⟩
    · obtain ⟨s', hstep, hdelay, hreset', hblock⟩ := step_busy_access hb hreset hturn
      obtain ⟨u', u, hu', hu, hres⟩ := execCommand_sameBlock w hblock
      obtain ⟨p, r, d, a, rfl⟩ := sameBlock_iff.mp hblock
      obtain ⟨k, t, v, hk, hrun, hv, hidle, htv⟩ := ih s'.delay (by omega) s' hb hwalk hreset' rfl
      cases hu'.symm.trans hv
      exact ⟨k + 1, t, u, by omega, (run_succ k hstep).trans hrun, hu, hidle, sameBlock_trans htv hres⟩

end Sys2Proof.Machine
end

section
/-! The parts of DECODE as wire forms: what each answers where its checks pass, and the error of the first that fails
(spec/41_decode.md R120 to R131). -/

namespace Sys2Proof.Machine

open Sys2Proof.Claim

/-! ### An error, and a commit -/

/-- An instruction that completes with an error kind changes STATUS to that kind's value and nothing else
(spec/60_exceptions.md R201). -/
theorem failsWith_of_exec {i : Instr} {s : State} {e : ErrKind} {v : Word} (h : exec i s = .next (completeErr s e))
    (hv : statusErr e = v) : FailsWith i s v :=
  ⟨completeErr s e, h, by rw [completeErr, hv, finished], fun _ => ⟨rfl, rfl⟩⟩

/-- What an instruction that is a part of DECODE makes of the state follows from what that part answers. -/
theorem exec_of_verdict {i : Instr} {s : State} {v v' : Verdict} (hi : exec i s = .next (settle s v)) (hv : v = v') :
    exec i s = .next (settle s v') := hv ▸ hi

/-- A part of DECODE that answers an error fails the instruction. -/
theorem failsWith_of_verdict {i : Instr} {s : State} {v : Verdict} {e : ErrKind} {status : Word}
    (hi : exec i s = .next (settle s v)) (hv : v = .fail e) (hstatus : statusErr e = status) : FailsWith i s status :=
  failsWith_of_exec (exec_of_verdict hi hv) hstatus

theorem toNat_optCount_commitDecoded (s : State) {d : Decoded} (h : d.opts.length < 256) :
    (commitDecoded s d).optCount.toNat = d.opts.length := by
  rw [commitDecoded_optCount, BitVec.toNat_ofNat]; omega

theorem lowHalf_payDesc_commitDecoded (s : State) {d : Decoded} (h : d.payOff < 65536) :
    lowHalf (commitDecoded s d).payDesc = d.payOff := by
  rw [commitDecoded_payDesc, lowHalf_packDesc, BitVec.toNat_ofNat]; omega

theorem highHalf_payDesc_commitDecoded (s : State) {d : Decoded} (h : d.payLen < 65536) :
    highHalf (commitDecoded s d).payDesc = d.payLen := by
  rw [commitDecoded_payDesc, highHalf_packDesc, BitVec.toNat_ofNat]; omega

/-! ### Byte 0 (R124, R131) -/

/-- An input longer than IBUF or shorter than a header is InvalidPacketLength, whatever byte 0 says. -/
theorem decodeHeader_length_fail {s : State} (ver typ : BitVec 2) (tkl : Nibble)
    (h : s.ibufSize < inputLen s ∨ inputLen s < 4) : decodeHeader s ver typ tkl = .fail .invalidPacketLength := by
  rcases decodeHeader_cases s ver typ tkl with ⟨-, hv⟩ | ⟨hsize, hmin, -, -⟩ | ⟨hsize, htok, -, -⟩
  · exact hv
  · omega
  · omega

/-- In an input of a right length, a token length above 8 or a token that runs past the input is InvalidTokenLength. -/
theorem decodeHeader_token_fail {s : State} (ver typ : BitVec 2) {tkl : Nibble} (hsize : inputLen s ≤ s.ibufSize)
    (hmin : 4 ≤ inputLen s) (h : 8 < tkl.toNat ∨ inputLen s < 4 + tkl.toNat) :
    decodeHeader s ver typ tkl = .fail .invalidTokenLength := by
  rcases decodeHeader_cases s ver typ tkl with ⟨hlen, -⟩ | ⟨-, -, -, hv⟩ | ⟨-, htok, htkl, -⟩
  · omega
  · exact hv
  · omega

/-- An input that holds the header and the token starts the options after the token. -/
theorem decodeHeader_starts {s : State} (ver typ : BitVec 2) {tkl : Nibble} (htkl : tkl.toNat ≤ 8)
    (hsize : inputLen s ≤ s.ibufSize) (htok : 4 + tkl.toNat ≤ inputLen s) :
    decodeHeader s ver typ tkl = .more
      { stage := .atHeader, hdr := packMsgHdr (s.ibufAt 2 ++ s.ibufAt 3) (s.ibufAt 1) ver typ tkl
        cur := 4 + tkl.toNat, acc := 0, opts := [] } := by
  rcases decodeHeader_cases s ver typ tkl with ⟨hlen, -⟩ | ⟨-, -, hbad, -⟩ | ⟨-, -, -, hv⟩
  · omega
  · omega
  · exact hv

/-- Settles O18: DecodeHeader starts the options, and its MSG_HDR image is built from the header's bytes. -/
theorem headerFormStartsTheOptions : Obligations.HeaderFormStartsTheOptions := by
  unfold Obligations.HeaderFormStartsTheOptions
  intro s ver typ tkl htkl hsize htok
  have hexec := exec_of_verdict (i := .hdr0 ver typ tkl) rfl (decodeHeader_starts ver typ htkl hsize htok)
  refine ⟨_, hexec, rfl, fun _ => ⟨rfl, rfl⟩, rfl, rfl, rfl, rfl, ?_⟩
  rw [settle_more, toNat_packMsgHdr, toNat_append_bytes, be16]

/-- Settles O19: the length of the input is checked before the token, whose length a reserved form always has above 8. -/
theorem headerFormsReportTheirErrors : Obligations.HeaderFormsReportTheirErrors := by
  unfold Obligations.HeaderFormsReportTheirErrors
  intro s ver typ
  refine ⟨fun tkl _ => ⟨fun hlen => ?_, fun hsize hmin htok => ?_⟩, fun k hk => ⟨fun hlen => ?_, fun hsize hmin => ?_⟩⟩
  · exact failsWith_of_verdict rfl (decodeHeader_length_fail ver typ tkl hlen) statusErr_invalidPacketLength
  · exact failsWith_of_verdict rfl (decodeHeader_token_fail ver typ hsize hmin (.inr htok)) statusErr_invalidTokenLength
  · exact failsWith_of_verdict rfl (decodeHeader_length_fail ver typ _ hlen) statusErr_invalidPacketLength
  · have hreserved : 8 < (1#1 ++ k : Nibble).toNat := by rw [toNat_reservedTkl]; omega
    exact failsWith_of_verdict rfl (decodeHeader_token_fail ver typ hsize hmin (.inl hreserved))
      statusErr_invalidTokenLength

theorem toNat_byte0Tkl (b : Byte) : (byte0Tkl b).toNat = b.toNat % 16 := by
  rw [byte0Tkl, toNat_field, pow_zero, Nat.div_one]; rfl

/-- A DECODE whose header fails is over (R129). -/
theorem decodeMessage_header_fail {s : State} {e : ErrKind}
    (h : decodeHeader s (byte0Ver (s.ibufAt 0)) (byte0Typ (s.ibufAt 0)) (byte0Tkl (s.ibufAt 0)) = .fail e) :
    decodeMessage s = .fail e := by
  simp only [decodeMessage, h]

/-- Settles O14: DECODE reads byte 0 first, and its errors are those of DecodeHeader. -/
theorem decodeRejectsBadHeaders : Obligations.DecodeRejectsBadHeaders := by
  unfold Obligations.DecodeRejectsBadHeaders
  intro s
  rw [← toNat_byte0Tkl]
  have fails {e : ErrKind} {v : Word} := failsWith_of_verdict (i := .decode) (s := s) (e := e) (status := v) rfl
  refine ⟨fun hlong => ?_, fun _ hshort => ?_, fun hsize hmin htkl => ?_, fun hsize hmin _ htok => ?_⟩
  · exact fails (decodeMessage_header_fail (decodeHeader_length_fail _ _ _ (.inl hlong))) statusErr_invalidPacketLength
  · exact fails (decodeMessage_header_fail (decodeHeader_length_fail _ _ _ (.inr hshort))) statusErr_invalidPacketLength
  · exact fails (decodeMessage_header_fail (decodeHeader_token_fail _ _ hsize hmin (.inl htkl)))
      statusErr_invalidTokenLength
  · exact fails (decodeMessage_header_fail (decodeHeader_token_fail _ _ hsize hmin (.inr htok)))
      statusErr_invalidTokenLength

/-! ### Option header positions (R120, R126, R127) -/

/-- A selector other than 15 fails for want of its extension bytes only (R120). -/
theorem unpack_open_raise {sel : Nibble} {kind : SelectorKind} {x : List Byte} {e : ErrKind} (hsel : OpenSelector sel)
    (h : unpack sel kind x = .raise e) : e = .invalidOptionLength := by
  rcases unpack_raise_cases h with ⟨-, h15, -⟩ | he
  · exact absurd h15 (openSelector_ne hsel)
  · exact he

theorem decodeOption_delta_reserved (s : State) (w : Walk) (l : Nibble) :
    decodeOption s w 15 l = .fail .invalidOptionDelta := rfl

/-- A reserved length selector gives the same error as missing bytes of the delta before it. -/
theorem decodeOption_length_reserved (s : State) (w : Walk) {d : Nibble} (hd : OpenSelector d) :
    decodeOption s w d 15 = .fail .invalidOptionLength := by
  rcases hdelta : unpack d .delta (availAt s (w.cur + 1)) with u | e
  · have hlength : unpack 15 .length (availAt s (w.cur + 1 + u.consumed)) = .raise .invalidOptionLength := rfl
    simp only [decodeOption, hdelta, hlength]
  · simp only [decodeOption, hdelta, unpack_open_raise hd hdelta]

/-- Settles O21: selector 15 raises the error of its kind. -/
theorem reservedSelectorFormsFail : Obligations.ReservedSelectorFormsFail := by
  unfold Obligations.ReservedSelectorFormsFail
  intro s
  refine ⟨fun l _ => ?_, fun d hd => ?_⟩
  · exact failsWith_of_verdict rfl (decodeOption_delta_reserved s s.walk l) statusErr_invalidOptionDelta
  · exact failsWith_of_verdict rfl (decodeOption_length_reserved s s.walk hd) statusErr_invalidOptionLength

/-- UNPACK resolves a selector whose extension bytes lie within the input. -/
theorem unpack_availAt {s : State} {sel : Nibble} {pos : Nat} (kind : SelectorKind) (hsel : OpenSelector sel)
    (h : pos + extra sel ≤ inputLen s) :
    unpack sel kind (availAt s pos) = .ok { value := fieldAt s sel pos, consumed := extra sel } := by
  rcases openSelector_cases hsel with hdirect | rfl | rfl
  · rw [unpack_direct kind _ hdirect, fieldAt, extra, if_pos hdirect, if_pos hdirect]
  · have hone : pos + 1 ≤ inputLen s := h
    obtain ⟨r, hr⟩ : [s.ibufAt pos] <+: availAt s pos := BytesAt.prefix_availAt (by simp) (by simp) hone
    rw [← hr]; rfl
  · have htwo : pos + 2 ≤ inputLen s := h
    obtain ⟨r, hr⟩ : [s.ibufAt pos, s.ibufAt (pos + 1)] <+: availAt s pos :=
      BytesAt.prefix_availAt (by simp) (by simp) htwo
    rw [← hr]; rfl

/-- UNPACK at a position within the input that is missing extension bytes. -/
theorem unpack_availAt_short {s : State} {sel : Nibble} {pos : Nat} (kind : SelectorKind) (hsel : OpenSelector sel)
    (hpos : pos ≤ inputLen s) (h : inputLen s < pos + extra sel) :
    unpack sel kind (availAt s pos) = .raise .invalidOptionLength := by
  rcases hu : unpack sel kind (availAt s pos) with u | e
  · have hlen := availAt_length s pos
    rcases unpack_ok_cases hu with ⟨hdirect, -⟩ | ⟨rfl, e, r, hx, -⟩ | ⟨rfl, e0, e1, r, hx, -⟩
    · rw [extra, if_pos hdirect] at h; omega
    · have hone : inputLen s < pos + 1 := h
      rw [hx, List.length_cons] at hlen; omega
    · have htwo : inputLen s < pos + 2 := h
      rw [hx, List.length_cons, List.length_cons] at hlen; omega
  · rw [unpack_open_raise hsel hu]

section
variable {s : State} {w : Walk} {d l : Nibble} {delta len off : Nat}

/-- DecodeOption where the extension bytes of its selectors run past the input. -/
theorem decodeOption_short (hd : OpenSelector d) (hl : OpenSelector l) (hcur : w.cur < inputLen s)
    (h : inputLen s < w.cur + 1 + extra d + extra l) : decodeOption s w d l = .fail .invalidOptionLength := by
  by_cases hshort : inputLen s < w.cur + 1 + extra d
  · simp only [decodeOption, unpack_availAt_short .delta hd hcur hshort]
  · have hdelta := unpack_availAt .delta hd (Nat.not_lt.mp hshort)
    simp only [decodeOption, hdelta, unpack_availAt_short .length hl (Nat.not_lt.mp hshort) h]

/-- DecodeOption where the extension bytes lie within the input: the checks that remain, in their order. -/
theorem decodeOption_resolved (hd : OpenSelector d) (hl : OpenSelector l) (hdelta : delta = fieldAt s d (w.cur + 1))
    (hlen : len = fieldAt s l (w.cur + 1 + extra d)) (hoff : off = w.cur + 1 + extra d + extra l)
    (h : off ≤ inputLen s) :
    decodeOption s w d l =
      if 65535 < w.acc + delta then .fail .invalidOptionDelta
      else if inputLen s < off + len then .fail .invalidOptionLength
      else if w.opts.length = s.maxOpts then .fail .optionsLimitExceeded
      else .more
        { stage := .atHeader, hdr := w.hdr, cur := off + len, acc := w.acc + delta
          opts := w.opts ++ [{ num := BitVec.ofNat 16 (w.acc + delta), off := BitVec.ofNat 16 off
                               len := BitVec.ofNat 16 len }] } := by
  subst hdelta hlen hoff
  have hdelta := unpack_availAt .delta hd (Nat.le_of_add_right_le h)
  simp only [decodeOption, hdelta, unpack_availAt .length hl h]

end

/-- The nine option forms are DecodeOption on their two selectors. -/
theorem exec_of_optionSelectors {i : Instr} {d l : Nibble} (s : State) (h : optionSelectors i = some (d, l)) :
    exec i s = .next (settle s (decodeOption s s.walk d l)) := by
  cases i <;> cases h <;> rfl

/-- Settles O22: every check passes, and the appended fields fit 16 bits. -/
theorem optionFormsAppendTheirOption : Obligations.OptionFormsAppendTheirOption := by
  unfold Obligations.OptionFormsAppendTheirOption
  intro s i d l hi hwf delta len off hdelta hlen hoff hnum hend hroom
  obtain ⟨hd, hl, -⟩ := optionForm_of_optionSelectors hwf hi
  have hn := inputLen_lt s
  have hread := decodeOption_resolved hd hl hdelta hlen hoff (by omega)
  rw [if_neg (by omega), if_neg (by omega), if_neg (by omega)] at hread
  have hexec := exec_of_verdict (exec_of_optionSelectors s hi) hread
  refine ⟨_, hexec, rfl, fun _ => ⟨rfl, rfl⟩, rfl, rfl, rfl, rfl, _, rfl, ?_, ?_, ?_⟩ <;> exact Nat.mod_eq_of_lt (by omega)

/-- Settles O23: the extension bytes first, and then the checks that remain. -/
theorem optionFormsReportTheirFirstError : Obligations.OptionFormsReportTheirFirstError := by
  unfold Obligations.OptionFormsReportTheirFirstError
  intro s i d l hi hwf hcur delta len off hdelta hlen hoff
  obtain ⟨hd, hl, -⟩ := optionForm_of_optionSelectors hwf hi
  have hread := decodeOption_resolved hd hl hdelta hlen hoff
  have fails {e : ErrKind} {v : Word} := failsWith_of_verdict (e := e) (status := v) (exec_of_optionSelectors s hi)
  refine ⟨fun hshort => ?_, fun hin hnum => ?_, fun hin hnum hend => ?_, fun hend hnum hfull => ?_⟩
  · exact fails (decodeOption_short hd hl hcur (by omega)) statusErr_invalidOptionLength
  · exact fails (by rw [hread hin, if_pos hnum]) statusErr_invalidOptionDelta
  · exact fails (by rw [hread hin, if_neg (by omega), if_pos hend]) statusErr_invalidOptionLength
  · exact fails (by rw [hread (by omega), if_neg (by omega), if_neg (by omega), if_pos hfull])
      statusErr_optionsLimitExceeded

/-! ### The end of the options (R125, R128) -/

/-- Settles O20: the marker's part of DECODE answers the message, whose descriptor and count fit their fields. -/
theorem markerFormCommitsTheMessage : Obligations.MarkerFormCommitsTheMessage := by
  unfold Obligations.MarkerFormCommitsTheMessage
  intro s hcur hcount
  have hn := inputLen_lt s
  obtain ⟨off, len, hv, hpay⟩ := decodeMarker_done s s.walk
  have hoff := lowHalf_payDesc_commitDecoded s (d := ⟨s.walk.hdr, s.walk.opts, off, len⟩) (by simp only; omega)
  have hlen := highHalf_payDesc_commitDecoded s (d := ⟨s.walk.hdr, s.walk.opts, off, len⟩) (by simp only; omega)
  have hexec := exec_of_verdict (i := .payloadMarker) rfl hv
  refine ⟨_, hexec, rfl, fun _ => ⟨rfl, rfl⟩, toNat_optCount_commitDecoded s hcount, fun hmore => ?_, fun hlast => ?_⟩ <;>
    rw [settle_done, completeOk_payDesc, hoff, hlen] <;> simp only <;> omega

/-- Settles O31: what is fetched at each position is executed, and at the end of the input the message is committed. -/
theorem stepExecutesTheWireForm : Obligations.StepExecutesTheWireForm := by
  unfold Obligations.StepExecutesTheWireForm
  intro s w h
  refine ⟨fun hs => step_of_fetch h (fetchFor_atByte0 w hs),
    fun hs hcur => step_of_fetch h (fetchFor_atHeader w hs hcur), fun hs hcur hcount => ?_⟩
  have hend := step_of_fetch_none h (fetchFor_atEnd w hs hcur.ge)
  refine ⟨_, hend, rfl, toNat_optCount_commitDecoded s hcount, ?_, ?_⟩
  · exact lowHalf_payDesc_commitDecoded s (inputLen_lt s)
  · exact highHalf_payDesc_commitDecoded s (Nat.zero_lt_succ _)

end Sys2Proof.Machine
end

section
/-! UNPACKF: the extension bytes that UNPACK_IN offers, what UNPACK answers for them, and what the command makes of the answer
(spec/10_state.md R37, spec/41_decode.md R120, R122). -/

namespace Sys2Proof.Machine

open Sys2Proof.Claim

/-! ### UNPACK of the fields of UNPACK_IN -/

/-- UNPACK_IN offers no byte, B0, or B0 and B1 (R37). -/
theorem unpackInBytes_cases (v : Word) :
    (unpackInAvail v = 0 ∧ unpackInBytes v = []) ∨ (unpackInAvail v = 1 ∧ unpackInBytes v = [unpackInB0 v]) ∨
    (2 ≤ unpackInAvail v ∧ unpackInBytes v = [unpackInB0 v, unpackInB1 v]) := by
  unfold unpackInBytes
  rcases unpackInAvail v with _ | _ | n
  · exact .inl ⟨rfl, rfl⟩
  · exact .inr (.inl ⟨rfl, rfl⟩)
  · exact .inr (.inr ⟨by omega, by rw [Nat.min_eq_right (by omega)]; rfl⟩)

/-- UNPACK_IN.KIND is bit 4 (R37). -/
theorem unpackInKind_eq (v : Word) : unpackInKind v = if v.getLsbD 4 = false then .delta else .length := by
  have hbit : v.extractLsb' 4 1 = 0#1 ↔ v.getLsbD 4 = false := by
    constructor
    · intro h
      simpa using congrArg (fun x => x.getLsbD 0) h
    · intro h
      apply BitVec.eq_of_getLsbD_eq
      intro i hi
      obtain rfl : i = 0 := by omega
      simpa using h
  simp only [unpackInKind, hbit]

/-- What the unpacker answers for the fields of UNPACK_IN (R122). -/
def unpackFields (v : Word) : Result Unpacked := unpack (unpackInSel v) (unpackInKind v) (unpackInBytes v)

section
variable {v : Word}

theorem unpackFields_direct (h : (unpackInSel v).toNat ≤ 12) :
    unpackFields v = .ok { value := (unpackInSel v).toNat, consumed := 0 } := unpack_direct _ _ h

theorem unpackFields_13 (h : (unpackInSel v).toNat = 13) (havail : 1 ≤ unpackInAvail v) :
    unpackFields v = .ok { value := (unpackInB0 v).toNat + 13, consumed := 1 } := by
  rw [unpackFields, BitVec.eq_of_toNat_eq (y := 13#4) h]
  rcases unpackInBytes_cases v with ⟨hzero, -⟩ | ⟨-, hbytes⟩ | ⟨-, hbytes⟩
  · omega
  · rw [hbytes, unpack_13_cons]
  · rw [hbytes, unpack_13_cons]

theorem unpackFields_14 (h : (unpackInSel v).toNat = 14) (havail : 2 ≤ unpackInAvail v) :
    unpackFields v = .ok { value := be16 (unpackInB0 v) (unpackInB1 v) + 269, consumed := 2 } := by
  rw [unpackFields, BitVec.eq_of_toNat_eq (y := 14#4) h]
  rcases unpackInBytes_cases v with ⟨hzero, -⟩ | ⟨hone, -⟩ | ⟨-, hbytes⟩
  · omega
  · omega
  · rw [hbytes, unpack_14_cons]

theorem unpackFields_13_short (h : (unpackInSel v).toNat = 13) (havail : unpackInAvail v = 0) :
    unpackFields v = .raise .invalidOptionLength := by
  rw [unpackFields, BitVec.eq_of_toNat_eq (y := 13#4) h]
  rcases unpackInBytes_cases v with ⟨-, hbytes⟩ | ⟨hone, -⟩ | ⟨htwo, -⟩
  · rw [hbytes, unpack_13_nil]
  · omega
  · omega

theorem unpackFields_14_short (h : (unpackInSel v).toNat = 14) (havail : unpackInAvail v ≤ 1) :
    unpackFields v = .raise .invalidOptionLength := by
  rw [unpackFields, BitVec.eq_of_toNat_eq (y := 14#4) h]
  rcases unpackInBytes_cases v with ⟨-, hbytes⟩ | ⟨-, hbytes⟩ | ⟨htwo, -⟩
  · rw [hbytes, unpack_14_nil]
  · rw [hbytes, unpack_14_one]
  · omega

theorem unpackFields_15 (h : (unpackInSel v).toNat = 15) :
    unpackFields v = .raise (if v.getLsbD 4 = false then .invalidOptionDelta else .invalidOptionLength) := by
  rw [unpackFields, BitVec.eq_of_toNat_eq (y := 15#4) h, unpackInKind_eq]
  by_cases hbit : v.getLsbD 4 = false
  · rw [if_pos hbit, if_pos hbit, unpack_15_delta]
  · rw [if_neg hbit, if_neg hbit, unpack_15_length]

end

/-! ### The command -/

/-- An UNPACKF that succeeds writes the value and the number of bytes it took, and nothing else but the completion. -/
theorem unpackf_resolves {s : State} {value consumed : Nat}
    (h : unpackFields s.unpackIn = .ok { value := value, consumed := consumed }) :
    ∃ t, exec .unpackf s = .next t ∧ t = { finished s 0x00000002 with unpackOut := t.unpackOut } ∧ SameBytes s t ∧
      t.unpackOut.toNat = value + consumed * 1048576 := by
  obtain ⟨hvalue, hconsumed, -⟩ : value ≤ 65804 ∧ consumed ≤ 2 ∧ _ := unpack_ok_bounds h
  have hexec : exec .unpackf s = .next (completeOk
      { s with unpackOut := packUnpackOut (BitVec.ofNat 17 value) (BitVec.ofNat 2 consumed) }) :=
    execUnpackf_ok (u := { value := value, consumed := consumed }) h
  refine ⟨_, hexec, rfl, fun _ => ⟨rfl, rfl⟩, ?_⟩
  rw [completeOk_unpackOut, toNat_packUnpackOut, BitVec.toNat_ofNat, BitVec.toNat_ofNat, Nat.mod_eq_of_lt (by omega),
    Nat.mod_eq_of_lt (by omega)]

theorem unpackf_fails {s : State} {e : ErrKind} {v : Word} (h : unpackFields s.unpackIn = .raise e)
    (hv : statusErr e = v) : FailsWith .unpackf s v :=
  failsWith_of_exec (execUnpackf_raise h) hv

/-- Settles O7, selector by selector. -/
theorem unpackfResolvesOrFails : Obligations.UnpackfResolvesOrFails := by
  unfold Obligations.UnpackfResolvesOrFails
  refine ⟨rfl, fun s => ⟨?_, fun hsel hbit => ?_, fun hsel hbit => ?_, fun hsel havail => ?_, fun hsel havail => ?_⟩⟩
  · rintro (hsel | ⟨hsel, havail⟩ | ⟨hsel, havail⟩)
    · obtain ⟨t, ht, hframe, hsame, hout⟩ := unpackf_resolves (unpackFields_direct hsel)
      exact ⟨t, ht, hframe, hsame, fun _ => by omega, fun _ => by omega, fun _ => by omega⟩
    · obtain ⟨t, ht, hframe, hsame, hout⟩ := unpackf_resolves (unpackFields_13 hsel havail)
      exact ⟨t, ht, hframe, hsame, fun _ => by omega, fun _ => hout, fun _ => by omega⟩
    · obtain ⟨t, ht, hframe, hsame, hout⟩ := unpackf_resolves (unpackFields_14 hsel havail)
      exact ⟨t, ht, hframe, hsame, fun _ => by omega, fun _ => by omega, fun _ => hout⟩
  · exact unpackf_fails ((unpackFields_15 hsel).trans (by rw [if_pos hbit])) statusErr_invalidOptionDelta
  · exact unpackf_fails ((unpackFields_15 hsel).trans (by rw [if_neg (by simp [hbit])])) statusErr_invalidOptionLength
  · exact unpackf_fails (unpackFields_13_short hsel havail) statusErr_invalidOptionLength
  · exact unpackf_fails (unpackFields_14_short hsel havail) statusErr_invalidOptionLength

end Sys2Proof.Machine
end

section
/-! DECODE accepts wire forms only: what it reads of an option, of the options with the payload and of the header stands in IBUF
as that part of a message's wire form; and what the layout of that message on the wire says of the registers that DECODE leaves
(spec/30_encoding.md R83 to R90, spec/41_decode.md R124 to R133). -/

namespace Sys2Proof.Machine

open Sys2Proof.Claim

/-! ### One option (spec/41_decode.md R120, R126) -/

/-- The encoding of a value is unique: UNPACK resolves no other selector and no other extension bytes to it. -/
theorem selOf_of_unpack {sel : Nibble} {kind : SelectorKind} {x : List Byte} {u : Unpacked} (h : unpack sel kind x = .ok u) :
    BitVec.ofNat 4 (selOf u.value) = sel ∧ extOf u.value <+: x ∧ (extOf u.value).length = u.consumed := by
  rcases unpack_ok_cases h with ⟨hsel, rfl⟩ | ⟨rfl, e, r, rfl, rfl⟩ | ⟨rfl, e0, e1, r, rfl, rfl⟩
  · simp [selOf, extOf, hsel]
  · have hlow : ¬ e.toNat + 13 ≤ 12 := by omega
    have hhigh : e.toNat + 13 ≤ 268 := by have := e.isLt; omega
    simp [selOf, extOf, hlow, hhigh]
  · have hclass : ¬ be16 e0 e1 + 269 ≤ 12 ∧ ¬ be16 e0 e1 + 269 ≤ 268 := by omega
    have hdiv : be16 e0 e1 / 256 = e0.toNat := by have := e1.isLt; rw [be16]; omega
    have hmod : be16 e0 e1 % 256 = e1.toNat := by have := e1.isLt; rw [be16]; omega
    simp [selOf, extOf, hclass, hdiv, hmod]

/-- The bytes that UNPACK may look at are those that stand at the cursor. -/
theorem bytesAt_of_prefix_availAt {s : State} {pos : Nat} {bs : List Byte} (h : bs <+: availAt s pos) : BytesAt s pos bs := by
  obtain ⟨r, hr⟩ := h
  have hlen : bs.length + r.length = min 2 (inputLen s - pos) := by
    rw [← List.length_append, hr, availAt_length]
  rw [availAt, ← hlen] at hr
  have hall : BytesAt s pos (bs ++ r) := by rw [BytesAt, List.length_append, hr]
  obtain ⟨hbs, -⟩ := bytesAt_append.mp hall
  exact hbs

/-- An option that DecodeOption appends stands at the cursor in its wire form. -/
theorem wire_of_decodeOption {s : State} {w w' : Walk}
    (h : decodeOption s w (highNibble (s.ibufAt w.cur)) (lowNibble (s.ibufAt w.cur)) = .more w') :
    ∃ o : Half × List Byte, w' = afterOption w o ∧ w.acc ≤ o.1.toNat ∧
      s.ibufAt w.cur = headerByte (BitVec.ofNat 4 (selOf (o.1.toNat - w.acc))) (BitVec.ofNat 4 (selOf o.2.length)) ∧
      BytesAt s (w.cur + 1) (extOf (o.1.toNat - w.acc)) ∧
      BytesAt s (w.cur + 1 + (extOf (o.1.toNat - w.acc)).length) (extOf o.2.length) ∧
      BytesAt s (valueAt w.cur w.acc o) o.2 := by
  obtain ⟨d, l, e, hd, hl, -, -, -, rfl, hnum, hoff, hlen⟩ := decodeOption_more h
  obtain ⟨hdsel, hdext, hdlen⟩ := selOf_of_unpack hd
  obtain ⟨hlsel, hlext, hllen⟩ := selOf_of_unpack hl
  have hdelta : e.num.toNat - w.acc = d.value := by omega
  have hvalue : valueAt w.cur w.acc (e.num, s.ibufSeq e.off.toNat e.len.toNat) = e.off.toNat := by
    simp only [valueAt, ibufSeq_length, hdelta, hlen, hdlen, hllen, hoff]
  have hentry : entryOf w.cur w.acc (e.num, s.ibufSeq e.off.toNat e.len.toNat) = e := by
    simp only [entryOf, hvalue, ibufSeq_length, BitVec.ofNat_toNat, BitVec.setWidth_eq]
  refine ⟨(e.num, s.ibufSeq e.off.toNat e.len.toNat), ?_, ?_, ?_, ?_, ?_, ?_⟩
  · rw [afterOption, hentry, hvalue, ibufSeq_length, hnum, hoff, hlen]
  · simp only; omega
  · simp only [ibufSeq_length, hdelta, hlen, hdsel, hlsel, headerByte_of_nibbles]
  · simp only [hdelta]
    exact bytesAt_of_prefix_availAt hdext
  · simp only [ibufSeq_length, hdelta, hlen, hdlen]
    exact bytesAt_of_prefix_availAt hlext
  · rw [hvalue, BytesAt, ibufSeq_length]

/-! ### The options and the payload (R125, R128) -/

/-- From the cursor of `w` to the end of the input stand the options `os`, in ascending order and within the capacity, and
then the payload. -/
structure RestIs (s : State) (w : Walk) (os : List (Half × List Byte)) (payload : List Byte) (bare : Bool) : Prop where
  bytes : BytesAt s w.cur (optionsWire w.acc os ++ payloadWire payload bare)
  length : w.cur + (optionsWire w.acc os ++ payloadWire payload bare).length = inputLen s
  order : (w.acc :: os.map fun o => o.1.toNat).Pairwise (· ≤ ·)
  room : w.opts.length + os.length ≤ s.maxOpts

/-- Where the options end, the rest of the input is the payload's part of a message. -/
theorem restIs_payload {s : State} {w : Walk} {payload : List Byte} {bare : Bool} (hroom : w.opts.length ≤ s.maxOpts)
    (hbytes : BytesAt s w.cur (payloadWire payload bare)) (hlen : w.cur + (payloadWire payload bare).length = inputLen s) :
    RestIs s w [] payload bare :=
  ⟨hbytes, hlen, List.pairwise_singleton _ _, hroom⟩

/-- An input that ends at the cursor has no payload, and no marker. -/
theorem restIs_end {s : State} {w : Walk} (hroom : w.opts.length ≤ s.maxOpts) (hcur : w.cur = inputLen s) :
    RestIs s w [] [] false :=
  restIs_payload hroom (bytesAt_nil s w.cur) hcur

/-- After a marker stands the payload, if any byte is left. -/
theorem restIs_marker {s : State} {w : Walk} (hroom : w.opts.length ≤ s.maxOpts) (hcur : w.cur < inputLen s)
    (hb : s.ibufAt w.cur = 0xFF) : ∃ payload, RestIs s w [] payload true := by
  refine ⟨s.ibufSeq (w.cur + 1) (inputLen s - w.cur - 1), ?_⟩
  have hwire : payloadWire (s.ibufSeq (w.cur + 1) (inputLen s - w.cur - 1)) true =
      0xFF :: s.ibufSeq (w.cur + 1) (inputLen s - w.cur - 1) := by
    unfold payloadWire
    split
    · next hempty => rw [hempty]; rfl
    · rfl
  refine restIs_payload hroom ?_ ?_
  · rw [hwire, bytesAt_cons, BytesAt, ibufSeq_length]
    exact ⟨hb, rfl⟩
  · rw [hwire, List.length_cons, ibufSeq_length]; omega

/-- An option at the cursor goes before the rest of the input. -/
theorem restIs_option {s : State} {w w' : Walk} {os : List (Half × List Byte)} {payload : List Byte} {bare : Bool}
    (h : decodeOption s w (highNibble (s.ibufAt w.cur)) (lowNibble (s.ibufAt w.cur)) = .more w')
    (hrest : RestIs s w' os payload bare) : ∃ o, RestIs s w (o :: os) payload bare := by
  obtain ⟨o, rfl, hord, hbyte, hdelta, hlength, hvalue⟩ := wire_of_decodeOption h
  obtain ⟨hbytes, hlen, horder, hroom⟩ := hrest
  refine ⟨o, bytesAt_optionsWire_cons.mpr ⟨hbyte, hdelta, hlength, hvalue, hbytes⟩,
    (add_length_optionsWire_cons ..).trans hlen, ?_, ?_⟩
  · rw [List.map_cons, List.pairwise_cons]
    refine ⟨fun n hn => ?_, horder⟩
    rcases List.mem_cons.mp hn with rfl | hn
    · exact hord
    · exact hord.trans ((List.pairwise_cons.mp horder).1 n hn)
  · simp only [afterOption, List.length_append, List.length_singleton] at hroom
    rw [List.length_cons]; omega

/-- A loop that completes has read the wire form of options and a payload, from its cursor to the end of the input. -/
theorem restIs_of_decodeLoop {s : State} {d : Decoded} (fuel : Nat) : ∀ {w : Walk}, w.cur ≤ inputLen s →
    w.opts.length ≤ s.maxOpts → decodeLoop s fuel w = .done d → ∃ os payload bare, RestIs s w os payload bare := by
  induction fuel with
  | zero => intro w _ _ h; cases h
  | succ fuel ih =>
    intro w hcur hroom h
    rw [decodeLoop] at h
    by_cases hend : inputLen s ≤ w.cur
    · exact ⟨[], [], false, restIs_end hroom (by omega)⟩
    rw [if_neg hend] at h
    by_cases hb : s.ibufAt w.cur = 0xFF
    · obtain ⟨payload, hrest⟩ := restIs_marker hroom (by omega) hb
      exact ⟨[], payload, true, hrest⟩
    rw [if_neg hb] at h
    rcases hv : decodeOption s w (highNibble (s.ibufAt w.cur)) (lowNibble (s.ibufAt w.cur)) with e | w' | d' <;> rw [hv] at h
    · cases h
    · obtain ⟨-, -, -, hcur', -, -, hcount, hfull⟩ := decodeOption_more_bounds hv
      obtain ⟨os, payload, bare, hrest⟩ := ih hcur' (by omega) h
      obtain ⟨o, hrest⟩ := restIs_option hv hrest
      exact ⟨o :: os, payload, bare, hrest⟩
    · exact absurd hv decodeOption_not_done

/-! ### The message (R124, R130) -/

/-- The input of DECODE is the wire form of a message that DECODE can read. -/
structure InputIs (s : State) (m : Message) (bare : Bool) : Prop where
  token : m.token.length ≤ 8
  count : m.options.length ≤ s.maxOpts
  order : m.options.Pairwise fun a b => a.1.toNat ≤ b.1.toNat
  size : inputLen s ≤ s.ibufSize
  length : (wire m bare).length = inputLen s
  bytes : BytesAt s 0 (wire m bare)

theorem bytes_of_append_half (b0 b1 : Byte) :
    BitVec.ofNat 8 ((b0 ++ b1 : Half).toNat / 256) = b0 ∧ BitVec.ofNat 8 ((b0 ++ b1 : Half).toNat % 256) = b1 := by
  have := b0.isLt; have := b1.isLt
  constructor <;> apply BitVec.eq_of_toNat_eq <;> rw [BitVec.toNat_ofNat, toNat_append_bytes, be16] <;> omega

/-- A message stands in IBUF where its header, its token, and its options and payload do. -/
theorem bytesAt_wire_of_parts {s : State} {m : Message} {bare : Bool} (htkl : m.token.length ≤ 8)
    (h0 : s.ibufAt 0 = byte0Of m.ver m.typ (tklOf m)) (h1 : s.ibufAt 1 = m.code) (hmid : s.ibufAt 2 ++ s.ibufAt 3 = m.mid)
    (htoken : BytesAt s 4 m.token)
    (hrest : BytesAt s (4 + m.token.length) (optionsWire 0 m.options ++ payloadWire m.payload bare)) :
    BytesAt s 0 (wire m bare) := by
  obtain ⟨h2, h3⟩ := bytes_of_append_half (s.ibufAt 2) (s.ibufAt 3)
  simp only [wire, headWire, byte0Of_tklOf htkl, List.append_assoc, List.cons_append, List.nil_append, bytesAt_cons,
    bytesAt_append (xs := m.token), ← hmid, h2, h3]
  exact ⟨h0, h1, trivial, trivial, htoken, hrest⟩

/-- The message whose header stands in the input, with these options and this payload. -/
def inputMessage (s : State) (options : List (Half × List Byte)) (payload : List Byte) : Message :=
  { ver := byte0Ver (s.ibufAt 0)
    typ := byte0Typ (s.ibufAt 0)
    code := s.ibufAt 1
    mid := s.ibufAt 2 ++ s.ibufAt 3
    token := s.ibufSeq 4 (byte0Tkl (s.ibufAt 0)).toNat
    options := options
    payload := payload }

theorem tklOf_inputMessage (s : State) (options : List (Half × List Byte)) (payload : List Byte) :
    tklOf (inputMessage s options payload) = byte0Tkl (s.ibufAt 0) := by
  simp [tklOf, inputMessage]

/-- A DECODE that completes has read the wire form of a message. -/
theorem inputIs_of_decodeMessage {s : State} {d : Decoded} (h : decodeMessage s = .done d) : ∃ m bare, InputIs s m bare := by
  rw [decodeMessage] at h
  rcases decodeHeader_cases s (byte0Ver (s.ibufAt 0)) (byte0Typ (s.ibufAt 0)) (byte0Tkl (s.ibufAt 0)) with
    ⟨-, hv⟩ | ⟨-, -, -, hv⟩ | ⟨hsize, htok, htkl, hv⟩ <;> rw [hv] at h
  · cases h
  · cases h
  · obtain ⟨os, payload, bare, hbytes, hlen, horder, hroom⟩ := restIs_of_decodeLoop _ htok (Nat.zero_le _) h
    have htoken : (inputMessage s os payload).token.length = (byte0Tkl (s.ibufAt 0)).toNat := ibufSeq_length ..
    refine ⟨inputMessage s os payload, bare, htoken.trans_le htkl, ?_, ?_, hsize, ?_, ?_⟩
    · exact (Nat.le_add_left os.length 0).trans hroom
    · exact List.pairwise_map.mp (List.pairwise_cons.mp horder).2
    · rw [length_wire, htoken]; exact hlen
    · refine bytesAt_wire_of_parts (htoken.trans_le htkl) ?_ rfl rfl ?_ (htoken.symm ▸ hbytes)
      · rw [tklOf_inputMessage]; exact (byte0Of_fields _).symm
      · rw [BytesAt, htoken]; rfl

/-- The state that DECODE leaves when its input is the wire form of `m`. -/
def decodedState (s : State) (m : Message) : State := completeOk (commitDecoded s (decodedOf (inputLen s) m))

/-- A successful DECODE: its input is the wire form of a message, which it commits. -/
theorem execDecode_success {s t : State} (h : exec .decode s = .next t) (hok : t.status = 0x00000002) :
    ∃ m bare, InputIs s m bare ∧ t = decodedState s m := by
  rcases execDecode_cases s with ⟨e, -, ht⟩ | ⟨d, hd, ht⟩ <;> cases ht.symm.trans h
  · exact absurd hok (statusErr_ne_ok e)
  · obtain ⟨m, bare, hin⟩ := inputIs_of_decodeMessage hd
    cases hd.symm.trans (decodeMessage_wire hin.token hin.count hin.order hin.size hin.length hin.bytes)
    exact ⟨m, bare, hin, rfl⟩

/-- Settles O16: the message read stands in IBUF, and the committed registers denote it. -/
theorem decodeAcceptsOnlyWireMessages : Obligations.DecodeAcceptsOnlyWireMessages := by
  unfold Obligations.DecodeAcceptsOnlyWireMessages
  intro s t h hok
  obtain ⟨m, bare, hin, rfl⟩ := execDecode_success h hok
  refine ⟨hin.size, bare, ?_⟩
  rw [decodedState, messageOf_decoded hin.token hin.count hin.length hin.bytes, ← hin.length]
  exact hin.bytes

/-! ### The layout of options on the wire (R133) -/

/-- The entry of an option that ends within 16 bits has the place of its value. -/
theorem entryOf_place {pos prev : Nat} {o : Half × List Byte} (h : valueAt pos prev o + o.2.length < 65536) :
    (entryOf pos prev o).off.toNat = valueAt pos prev o ∧ (entryOf pos prev o).len.toNat = o.2.length :=
  ⟨Nat.mod_eq_of_lt (by omega), Nat.mod_eq_of_lt (by omega)⟩

theorem optionsWire_cons_end (pos prev : Nat) (o : Half × List Byte) (os : List (Half × List Byte)) :
    pos + (optionsWire prev (o :: os)).length =
      valueAt pos prev o + o.2.length + (optionsWire o.1.toNat os).length := by
  simpa using add_length_optionsWire_cons pos prev o os []

/-- The values lie after the start of the options and before their end. -/
theorem layout_bounds (os : List (Half × List Byte)) : ∀ {pos prev : Nat}, pos + (optionsWire prev os).length < 65536 →
    ∀ e ∈ layout pos prev os, pos < e.off.toNat ∧ e.off.toNat + e.len.toNat ≤ pos + (optionsWire prev os).length := by
  induction os with
  | nil => intro pos prev _ e he; cases he
  | cons o os ih =>
    intro pos prev hend e he
    rw [optionsWire_cons_end] at hend ⊢
    have hpos : pos < valueAt pos prev o := by rw [valueAt]; omega
    rw [layout_cons] at he
    rcases List.mem_cons.mp he with rfl | he
    · obtain ⟨hoff, hlen⟩ := entryOf_place (pos := pos) (prev := prev) (o := o) (by omega)
      omega
    · obtain ⟨hlow, hhigh⟩ := ih hend e he
      omega

/-- Each value ends before the next one starts. -/
theorem layout_disjoint (os : List (Half × List Byte)) : ∀ {pos prev : Nat}, pos + (optionsWire prev os).length < 65536 →
    (layout pos prev os).Pairwise fun a b => a.off.toNat + a.len.toNat < b.off.toNat := by
  induction os with
  | nil => intro pos prev _; exact List.Pairwise.nil
  | cons o os ih =>
    intro pos prev hend
    rw [optionsWire_cons_end] at hend
    obtain ⟨hoff, hlen⟩ := entryOf_place (pos := pos) (prev := prev) (o := o) (by omega)
    rw [layout_cons, List.pairwise_cons, hoff, hlen]
    exact ⟨fun b hb => (layout_bounds os hend b hb).1, ih hend⟩

theorem layout_map_num (os : List (Half × List Byte)) :
    ∀ pos prev, ((layout pos prev os).map fun e => e.num.toNat) = os.map fun o => o.1.toNat := by
  induction os with
  | nil => exact fun _ _ => rfl
  | cons o os ih => intro pos prev; rw [layout_cons, List.map_cons, List.map_cons, ih]; rfl

/-- The entries ascend by number as the options do. -/
theorem layout_sorted {os : List (Half × List Byte)} (pos prev : Nat) (h : os.Pairwise fun a b => a.1.toNat ≤ b.1.toNat) :
    SortedByNum (layout pos prev os) := by
  have hnum : ((layout pos prev os).map fun e => e.num.toNat).Pairwise (· ≤ ·) := by
    rw [layout_map_num]; exact List.pairwise_map.mpr h
  exact List.pairwise_map.mp hnum

/-- The last value ends where the options end. -/
theorem layout_end (os : List (Half × List Byte)) : ∀ {pos prev : Nat}, pos + (optionsWire prev os).length < 65536 →
    (layout pos prev os).getLast?.elim pos (fun e => e.off.toNat + e.len.toNat) = pos + (optionsWire prev os).length := by
  induction os with
  | nil => exact fun _ => rfl
  | cons o os ih =>
    intro pos prev hend
    rw [optionsWire_cons_end] at hend ⊢
    obtain ⟨hoff, hlen⟩ := entryOf_place (pos := pos) (prev := prev) (o := o) (by omega)
    rw [← ih hend, layout_cons, List.getLast?_cons]
    cases (layout (valueAt pos prev o + o.2.length) o.1.toNat os).getLast? with
    | none => simp [hoff, hlen]
    | some e => rfl

/-! ### The registers after a successful DECODE (R132, R133) -/

section
variable {s : State} {m : Message} {bare : Bool}

/-- The parts of a message on the wire, in order: header, token, options, payload; the payload's descriptor spans the rest of
the input. -/
theorem InputIs.parts (h : InputIs s m bare) :
    4 + m.token.length + (optionsWire 0 m.options).length ≤ (decodedOf (inputLen s) m).payOff ∧
      (decodedOf (inputLen s) m).payOff + m.payload.length = inputLen s := by
  have hlen := h.length
  rw [length_wire, List.length_append] at hlen
  rw [decodedOf_payOff]
  by_cases hempty : m.payload = []
  · rw [if_pos hempty, hempty, List.length_nil]; omega
  · rw [if_neg hempty]
    rw [payloadWire, if_neg hempty, List.length_cons] at hlen
    omega

theorem InputIs.count_lt (h : InputIs s m bare) : (decodedOf (inputLen s) m).opts.length < 256 := by
  rw [decodedOf_opts, layout_length]
  exact h.count.trans_lt (maxOpts_lt s)

theorem InputIs.liveOpts (h : InputIs s m bare) :
    (decodedState s m).liveOpts = layout (4 + m.token.length) 0 m.options :=
  liveOpts_commitDecoded s h.count_lt

theorem InputIs.countField (h : InputIs s m bare) : countField (decodedState s m).optCount = m.options.length := by
  have hcount := h.count_lt
  rw [decodedOf_opts, layout_length] at hcount
  rw [decodedState, completeOk_optCount, commitDecoded_optCount, decodedOf_opts, layout_length, countField_ofNat _ hcount]

theorem InputIs.hdrTkl (h : InputIs s m bare) : (hdrTkl (decodedState s m).msgHdr).toNat = m.token.length := by
  rw [decodedState, completeOk_msgHdr, commitDecoded_msgHdr, decodedOf_hdr, hdrOf, hdrTkl_packMsgHdr, toNat_tklOf h.token]

theorem InputIs.payOff (h : InputIs s m bare) : lowHalf (decodedState s m).payDesc = (decodedOf (inputLen s) m).payOff := by
  have hparts := h.parts
  have hn := inputLen_lt s
  exact lowHalf_payDesc_commitDecoded s (by omega)

theorem InputIs.payLen (h : InputIs s m bare) : highHalf (decodedState s m).payDesc = m.payload.length := by
  have hparts := h.parts
  have hn := inputLen_lt s
  exact highHalf_payDesc_commitDecoded s (by rw [decodedOf_payLen]; omega)

theorem InputIs.optionsEnd (h : InputIs s m bare) :
    optionsEnd (decodedState s m) = 4 + m.token.length + (optionsWire 0 m.options).length := by
  have hparts := h.parts
  have hn := inputLen_lt s
  rw [← layout_end m.options (by omega), Claim.optionsEnd, h.liveOpts, h.hdrTkl]
  cases (layout (4 + m.token.length) 0 m.options).getLast? <;> rfl

end

/-- Settles O17: the registers have the layout of the message on the wire, which lies within the input and so within IBUF. -/
theorem decodeEstablishesTheMessageInvariants : Obligations.DecodeEstablishesTheMessageInvariants := by
  unfold Obligations.DecodeEstablishesTheMessageInvariants
  intro s t h hok
  obtain ⟨m, bare, hin, rfl⟩ := execDecode_success h hok
  obtain ⟨hoptions, hpayload⟩ := hin.parts
  have hn := inputLen_lt s
  have hsize : inputLen s ≤ (decodedState s m).ibufSize := hin.size
  have hbounds := layout_bounds m.options (pos := 4 + m.token.length) (prev := 0) (by omega)
  have hdisjoint := layout_disjoint m.options (pos := 4 + m.token.length) (prev := 0) (by omega)
  rw [hin.hdrTkl, hin.countField, hin.liveOpts, hin.optionsEnd, hin.payOff, hin.payLen]
  have htok : lowHalf (decodedState s m).tokDesc = 4 := rfl
  have hdrop : (decodedState s m).opts.drop m.options.length = s.opts.drop m.options.length := by
    rw [decodedState, completeOk_opts, commitDecoded_opts, decodedOf_opts, layout_length]
    exact List.drop_left' (layout_length ..)
  refine ⟨rfl, fun _ => ⟨rfl, rfl⟩, hdrop, hin.token, htok, by omega, hin.count, layout_length .., layout_sorted _ _ hin.order,
    fun e he => ?_, hdisjoint, hoptions, hpayload, .inr (by omega), fun e he => .inr ?_, .inr (by omega)⟩
  · obtain ⟨hlow, hhigh⟩ := hbounds e he
    omega
  · obtain ⟨-, hhigh⟩ := hbounds e he
    omega

end Sys2Proof.Machine
end

section
/-! PACKF, and PACK as the inverse of UNPACK: PACK answers the selector and the extension bytes that a value has on the wire
(spec/10_state.md R36, spec/42_encode.md R160 to R163). -/

namespace Sys2Proof.Machine

open Sys2Proof.Claim

/-! ### PACK (R160, R161) -/

/-- The low byte of a number is the byte of its remainder, as the wire format writes it. -/
theorem lo8_eq_mod (v : Nat) : lo8 v = BitVec.ofNat 8 (v % 256) := by
  apply BitVec.eq_of_toNat_eq
  rw [toNat_lo8, BitVec.toNat_ofNat, Nat.mod_mod]

/-- PACK gives the selector and the extension bytes of the wire format (spec/30_encoding.md R88). -/
theorem pack_eq_selOf {v : Nat} (h : v ≤ 65804) : pack v = .ok { sel := BitVec.ofNat 4 (selOf v), ext := extOf v } := by
  rcases selOf_extOf_cases v with ⟨hle, hsel, hext⟩ | ⟨hge, hle, hsel, hext⟩ | ⟨hge, hsel, hext⟩ <;> rw [hsel, hext, pack]
  · rw [if_pos hle]
  · rw [if_neg (by omega), if_pos hle]; rfl
  · rw [if_neg (by omega), if_neg (by omega), if_pos h, lo8_eq_mod]; rfl

theorem pack_too_large {v : Nat} (h : 65804 < v) : pack v = .raise .invalidPacketLength := by
  rw [pack, if_neg (by omega), if_neg (by omega), if_neg (by omega)]

/-- Settles O8: UNPACK resolves what PACK gives, and what UNPACK resolves is the one encoding of its value. -/
theorem packAndUnpackAreInverse : Obligations.PackAndUnpackAreInverse := by
  unfold Obligations.PackAndUnpackAreInverse
  refine ⟨fun v kind hv => ⟨_, pack_eq_selOf hv, unpack_selOf kind hv (List.prefix_refl _)⟩, fun sel kind x u h => ?_⟩
  obtain ⟨hvalue, -⟩ := unpack_ok_bounds h
  obtain ⟨hsel, hext, hlen⟩ := selOf_of_unpack h
  rw [pack_eq_selOf hvalue, hsel, ← hlen, ← List.prefix_iff_eq_take.mp hext]

/-! ### PACKF (R162) -/

/-- A PACKF that succeeds writes PACK_OUT, and nothing else but the completion. -/
theorem packf_writes {s : State} {p : Packed} (h : pack (packInValue s.packIn) = .ok p) :
    ∃ t, exec .packf s = .next t ∧ t = { finished s 0x00000002 with packOut := t.packOut } ∧ SameBytes s t ∧
      t.packOut = packOutOf p :=
  ⟨_, execPackf_ok h, rfl, fun _ => ⟨rfl, rfl⟩, rfl⟩

theorem toNat_packOutOf_none (sel : Nibble) : (packOutOf { sel := sel, ext := [] }).toNat = sel.toNat := by
  simp [packOutOf, toNat_packPackOut]

theorem toNat_packOutOf_one (sel : Nibble) (e : Byte) :
    (packOutOf { sel := sel, ext := [e] }).toNat = sel.toNat + 1 * 16 + e.toNat * 256 := by
  simp [packOutOf, toNat_packPackOut]

theorem toNat_packOutOf_two (sel : Nibble) (e0 e1 : Byte) :
    (packOutOf { sel := sel, ext := [e0, e1] }).toNat = sel.toNat + 2 * 16 + e0.toNat * 256 + e1.toNat * 65536 := by
  simp [packOutOf, toNat_packPackOut]

/-- Settles O6, class by class of R160. -/
theorem packfWritesSelectorAndExtension : Obligations.PackfWritesSelectorAndExtension := by
  unfold Obligations.PackfWritesSelectorAndExtension
  refine ⟨rfl, fun v hv => pack_too_large hv, fun s => ⟨fun hv => ?_, fun hv => ?_⟩⟩
  · rcases pack_cases (packInValue s.packIn) with ⟨hle, hp⟩ | ⟨hge, hle, hp⟩ | ⟨hge, hle, hp⟩ | ⟨hlarge, -⟩
    · obtain ⟨t, ht, hframe, hsame, hout⟩ := packf_writes hp
      refine ⟨t, ht, hframe, hsame, fun _ => ?_, fun _ => by omega, fun _ => by omega⟩
      rw [hout, toNat_packOutOf_none, BitVec.toNat_ofNat, Nat.mod_eq_of_lt (by omega)]
    · obtain ⟨t, ht, hframe, hsame, hout⟩ := packf_writes hp
      refine ⟨t, ht, hframe, hsame, fun _ => by omega, fun _ _ => ?_, fun _ => by omega⟩
      rw [hout, toNat_packOutOf_one, BitVec.toNat_ofNat, Nat.mod_eq_of_lt (by omega)]; rfl
    · obtain ⟨t, ht, hframe, hsame, hout⟩ := packf_writes hp
      refine ⟨t, ht, hframe, hsame, fun _ => by omega, fun _ _ => by omega, fun _ => ?_⟩
      rw [hout, toNat_packOutOf_two, toNat_hi8 _ (by omega), toNat_lo8]; rfl
    · omega
  · exact failsWith_of_exec (execPackf_raise (pack_too_large hv)) statusErr_invalidPacketLength

end Sys2Proof.Machine
end

section
/-! CONSTRUCT: the stable sort is the one stable ascending order of its input, and the command leaves it in the entries below
COUNT (spec/42_encode.md R164, R165, R168, R169). -/

namespace Sys2Proof.Machine

open Sys2Proof.Claim

/-! ### The stable order is unique (R165) -/

theorem withNum_cons_same {n : Half} {e : OptEntry} (es : List OptEntry) (h : e.num = n) :
    withNum n (e :: es) = e :: withNum n es :=
  List.filter_cons_of_pos (decide_eq_true h)

theorem withNum_cons_other {n : Half} {e : OptEntry} (es : List OptEntry) (h : e.num ≠ n) :
    withNum n (e :: es) = withNum n es :=
  List.filter_cons_of_neg (by simpa using h)

/-- Sequences with the same entries of each number have the same entries. -/
theorem mem_of_withNum_eq {xs ys : List OptEntry} (h : ∀ n, withNum n xs = withNum n ys) {e : OptEntry} (he : e ∈ xs) :
    e ∈ ys := by
  have hsel : e ∈ withNum e.num xs := List.mem_filter.mpr ⟨he, decide_eq_true rfl⟩
  rw [h] at hsel
  exact (List.mem_filter.mp hsel).1

/-- The first entry of an ascending sequence has the least number of all. -/
theorem sorted_head_le {x e : OptEntry} {xs : List OptEntry} (h : SortedByNum (x :: xs)) (he : e ∈ x :: xs) :
    x.num.toNat ≤ e.num.toNat := by
  rcases List.mem_cons.mp he with rfl | he
  · exact Nat.le_refl _
  · exact (List.pairwise_cons.mp h).1 e he

/-- Two ascending sequences with the same entries of each number in the same order are equal: their first entries both have
the least number, so they are the first of that number in both. -/
theorem eq_of_sorted_of_withNum_eq {xs : List OptEntry} : ∀ {ys : List OptEntry}, SortedByNum xs → SortedByNum ys →
    (∀ n, withNum n xs = withNum n ys) → xs = ys := by
  induction xs with
  | nil =>
    intro ys _ _ h
    exact (List.eq_nil_iff_forall_not_mem.mpr fun e he => nomatch mem_of_withNum_eq (fun n => (h n).symm) he).symm
  | cons x xs ih =>
    intro ys hxs hys h
    cases ys with
    | nil => exact nomatch mem_of_withNum_eq h (List.mem_cons_self ..)
    | cons y ys =>
      have hnum : x.num = y.num := BitVec.eq_of_toNat_eq (Nat.le_antisymm
        (sorted_head_le hxs (mem_of_withNum_eq (fun n => (h n).symm) (List.mem_cons_self ..)))
        (sorted_head_le hys (mem_of_withNum_eq h (List.mem_cons_self ..))))
      obtain rfl : x = y := by
        have hfirst := h x.num
        rw [withNum_cons_same xs rfl, withNum_cons_same ys hnum.symm] at hfirst
        exact (List.cons.inj hfirst).1
      have htail : ∀ n, withNum n xs = withNum n ys := by
        intro n
        have hn := h n
        by_cases hx : x.num = n
        · rw [withNum_cons_same xs hx, withNum_cons_same ys hx] at hn
          exact (List.cons.inj hn).2
        · rwa [withNum_cons_other xs hx, withNum_cons_other ys hx] at hn
      rw [ih (List.pairwise_cons.mp hxs).2 (List.pairwise_cons.mp hys).2 htail]

/-- Settles O10: the model's sort is such an order, and there is no other. -/
theorem stableSortIsTheUniqueStableOrder : Obligations.StableSortIsTheUniqueStableOrder := by
  unfold Obligations.StableSortIsTheUniqueStableOrder
  intro es
  have hstable : ∀ n, withNum n (stableSortByNum es) = withNum n es := fun n => stableSortByNum_stable n es
  exact ⟨stableSortByNum_perm es, stableSortByNum_sorted es, hstable,
    fun xs hsorted hxs => eq_of_sorted_of_withNum_eq hsorted (stableSortByNum_sorted es) fun n =>
      (hxs n).trans (hstable n).symm⟩

/-! ### The command (R168, R169) -/

/-- The state that a successful CONSTRUCT leaves. -/
def constructedState (s : State) : State :=
  completeOk { s with opts := stableSortByNum s.liveOpts ++ s.opts.drop (countField s.optCount) }

theorem liveOpts_constructedState (s : State) : (constructedState s).liveOpts = stableSortByNum s.liveOpts :=
  (construct_table s).1

theorem drop_constructedState (s : State) :
    (constructedState s).opts.drop (countField s.optCount) = s.opts.drop (countField s.optCount) :=
  (construct_table s).2

theorem length_constructedState (s : State) : (constructedState s).opts.length = s.opts.length := by
  rw [constructedState, completeOk_opts, List.length_append, stableSortByNum_length, State.liveOpts, ← List.length_append,
    List.take_append_drop]

/-- Settles O9: the entries below COUNT are sorted stably, and a COUNT above the capacity is refused. -/
theorem constructSortsTheTableStably : Obligations.ConstructSortsTheTableStably := by
  unfold Obligations.ConstructSortsTheTableStably
  refine ⟨rfl, fun s => ⟨fun hcount => ?_, fun hcount => ?_⟩⟩
  · refine ⟨constructedState s, execConstruct_ok hcount, rfl, fun _ => ⟨rfl, rfl⟩, length_constructedState s,
      drop_constructedState s, ?_⟩
    rw [liveOpts_constructedState]
    exact ⟨stableSortByNum_perm _, stableSortByNum_sorted _, fun n => stableSortByNum_stable n _⟩
  · exact failsWith_of_exec (execConstruct_raise hcount) statusErr_optionsLimitExceeded

end Sys2Proof.Machine
end

section
/-! The checks of ENCODE: what the option entries answer one after another, what CheckMessage answers for the whole message, and
the error of the first check that fails (spec/42_encode.md R172). -/

namespace Sys2Proof.Machine

open Sys2Proof.Claim

/-! ### The option entries in table order -/

/-- The entries ascend by number, and none is below `prev`. -/
def Ascends (prev : Nat) (es : List OptEntry) : Prop := (prev :: es.map fun e => e.num.toNat).Pairwise (· ≤ ·)

theorem ascends_zero {es : List OptEntry} : Ascends 0 es ↔ SortedByNum es := by
  rw [Ascends, List.pairwise_cons, List.pairwise_map]
  exact and_iff_right fun _ _ => Nat.zero_le _

theorem ascends_cons {prev : Nat} {e : OptEntry} {es : List OptEntry} :
    Ascends prev (e :: es) ↔ prev ≤ e.num.toNat ∧ Ascends e.num.toNat es := by
  simp only [Ascends, List.map_cons, List.pairwise_cons, List.mem_cons, forall_eq_or_imp]
  constructor
  · rintro ⟨⟨hprev, -⟩, htail⟩
    exact ⟨hprev, htail⟩
  · rintro ⟨hprev, hfirst, htail⟩
    exact ⟨⟨hprev, fun n hn => hprev.trans (hfirst n hn)⟩, hfirst, htail⟩

section
variable {size prev : Nat} {e : OptEntry} {es : List OptEntry}

theorem checkEntries_unordered (h : e.num.toNat < prev) : checkEntries size prev (e :: es) = .raise .invalidOptionDelta := by
  rw [checkEntries, if_pos h]

theorem checkEntries_outOfRange (hord : prev ≤ e.num.toNat) (h : ¬ inRange size e.off.toNat e.len.toNat) :
    checkEntries size prev (e :: es) = .raise .invalidPacketLength := by
  rw [checkEntries, if_neg (by omega), if_pos h]

theorem checkEntries_pass (hord : prev ≤ e.num.toNat) (h : inRange size e.off.toNat e.len.toNat) :
    checkEntries size prev (e :: es) = checkEntries size e.num.toNat es := by
  rw [checkEntries, if_neg (by omega), if_neg (not_not_intro h)]

end

/-- The entries pass exactly when they ascend and their values lie in range. -/
theorem checkEntries_ok_iff {size : Nat} (es : List OptEntry) : ∀ {prev : Nat}, checkEntries size prev es = .ok () ↔
    Ascends prev es ∧ ∀ e ∈ es, inRange size e.off.toNat e.len.toNat := by
  induction es with
  | nil => intro prev; simp [checkEntries, Ascends]
  | cons e es ih =>
    intro prev
    rw [ascends_cons, List.forall_mem_cons]
    by_cases hord : prev ≤ e.num.toNat
    · by_cases hrange : inRange size e.off.toNat e.len.toNat
      · rw [checkEntries_pass hord hrange, ih]
        exact ⟨fun ⟨hasc, hall⟩ => ⟨⟨hord, hasc⟩, hrange, hall⟩, fun ⟨⟨_, hasc⟩, _, hall⟩ => ⟨hasc, hall⟩⟩
      · rw [checkEntries_outOfRange hord hrange]
        exact ⟨nofun, fun ⟨_, hrange', _⟩ => absurd hrange' hrange⟩
    · rw [checkEntries_unordered (by omega)]
      exact ⟨nofun, fun ⟨⟨hord', _⟩, _⟩ => absurd hord' hord⟩

/-- Entries that ascend never raise InvalidOptionDelta. -/
theorem checkEntries_ascends {size : Nat} (es : List OptEntry) : ∀ {prev : Nat}, Ascends prev es →
    checkEntries size prev es ≠ .raise .invalidOptionDelta := by
  induction es with
  | nil => intro prev _; exact nofun
  | cons e es ih =>
    intro prev h
    obtain ⟨hord, htail⟩ := ascends_cons.mp h
    by_cases hrange : inRange size e.off.toNat e.len.toNat
    · rw [checkEntries_pass hord hrange]
      exact ih htail
    · rw [checkEntries_outOfRange hord hrange]
      exact nofun

/-- The number that entry `i` is compared with: that of the entry before it, and `prev` for the first. -/
def numBefore : Nat → List OptEntry → Nat → Nat
  | prev, [], _ => prev
  | prev, _ :: _, 0 => prev
  | _, e :: es, i + 1 => numBefore e.num.toNat es i

theorem numBefore_zero (prev : Nat) (es : List OptEntry) : numBefore prev es 0 = prev := by
  cases es <;> rfl

theorem numBefore_succ {e : OptEntry} {i : Nat} : ∀ {es : List OptEntry} {prev : Nat}, es[i]? = some e →
    numBefore prev es (i + 1) = e.num.toNat := by
  induction i with
  | zero =>
    intro es prev h
    cases es with
    | nil => cases h
    | cons x xs => cases h; exact numBefore_zero ..
  | succ i ih =>
    intro es prev h
    cases es with
    | nil => cases h
    | cons x xs => exact ih (es := xs) h

theorem inOrderAt_iff {es : List OptEntry} {i : Nat} {e : OptEntry} (h : es[i]? = some e) :
    inOrderAt es i ↔ numBefore 0 es i ≤ e.num.toNat := by
  cases i with
  | zero => simp [inOrderAt, numBefore_zero]
  | succ i =>
    obtain ⟨a, ha⟩ : ∃ a, es[i]? = some a := by
      obtain ⟨hi, -⟩ := List.getElem?_eq_some_iff.mp h
      exact ⟨_, List.getElem?_eq_getElem (by omega)⟩
    rw [numBefore_succ ha]
    constructor
    · exact fun hord => hord a e (Nat.succ_pos i) ha h
    · intro hle a' e' _ ha' he'
      cases ha.symm.trans ha'
      cases h.symm.trans he'
      exact hle

/-- Where the entries before entry `i` pass, entry `i` and those after it decide. -/
theorem checkEntries_drop {size i : Nat} : ∀ {es : List OptEntry} {prev : Nat}, i ≤ es.length →
    (∀ j e, j < i → es[j]? = some e → numBefore prev es j ≤ e.num.toNat ∧ inRange size e.off.toNat e.len.toNat) →
    checkEntries size prev es = checkEntries size (numBefore prev es i) (es.drop i) := by
  induction i with
  | zero => intro es prev _ _; rw [numBefore_zero, List.drop_zero]
  | succ i ih =>
    intro es prev hi h
    cases es with
    | nil => cases hi
    | cons x xs =>
      obtain ⟨hord, hrange⟩ := h 0 x (Nat.succ_pos i) rfl
      rw [numBefore_zero] at hord
      rw [checkEntries_pass hord hrange]
      exact ih (Nat.le_of_succ_le_succ hi) fun j e hj he => h (j + 1) e (Nat.succ_lt_succ hj) he

/-! ### The whole message -/

theorem payloadCounts_iff {s : State} : payloadCounts s = true ↔ hdrCode s.msgHdr ≠ 0 := by
  simp [payloadCounts, isEmptyCode]

section
variable {s : State}

theorem checkMessage_count (h : s.maxOpts < countField s.optCount) : checkMessage s = .raise .optionsLimitExceeded := by
  rw [checkMessage, if_pos h]

theorem checkMessage_tkl (hcount : countField s.optCount ≤ s.maxOpts) (h : 8 < (hdrTkl s.msgHdr).toNat) :
    checkMessage s = .raise .invalidTokenLength := by
  rw [checkMessage, if_neg (by omega), if_pos h]

variable (hcount : countField s.optCount ≤ s.maxOpts) (htkl : (hdrTkl s.msgHdr).toNat ≤ 8)
include hcount htkl

theorem checkMessage_token (h : ¬ inRange s.ibufSize (lowHalf s.tokDesc) (hdrTkl s.msgHdr).toNat) :
    checkMessage s = .raise .invalidPacketLength := by
  rw [checkMessage, if_neg (by omega), if_neg (by omega), if_pos h]

variable (htoken : inRange s.ibufSize (lowHalf s.tokDesc) (hdrTkl s.msgHdr).toNat)
include htoken

theorem checkMessage_entries {e : ErrKind} (h : checkEntries s.ibufSize 0 s.liveOpts = .raise e) :
    checkMessage s = .raise e := by
  rw [checkMessage, if_neg (by omega), if_neg (by omega), if_neg (not_not_intro htoken), h]

variable (hentries : checkEntries s.ibufSize 0 s.liveOpts = .ok ())
include hentries

theorem checkMessage_payload (hcode : hdrCode s.msgHdr ≠ 0)
    (h : ¬ inRange s.ibufSize (lowHalf s.payDesc) (highHalf s.payDesc)) : checkMessage s = .raise .invalidPacketLength := by
  rw [checkMessage, if_neg (by omega), if_neg (by omega), if_neg (not_not_intro htoken), hentries]
  exact if_pos ⟨payloadCounts_iff.mpr hcode, h⟩

theorem checkMessage_pass
    (h : hdrCode s.msgHdr ≠ 0 → inRange s.ibufSize (lowHalf s.payDesc) (highHalf s.payDesc)) : checkMessage s = .ok () := by
  rw [checkMessage, if_neg (by omega), if_neg (by omega), if_neg (not_not_intro htoken), hentries]
  exact if_neg fun ⟨hcode, hrange⟩ => hrange (h (payloadCounts_iff.mp hcode))

end

/-- `Encodable` is CheckMessage and the size. -/
theorem encodable_iff {s : State} :
    Encodable s ↔ checkMessage s = .ok () ∧ (wire (sent (messageOf s)) false).length ≤ s.maxPacket := by
  constructor
  · rintro ⟨hcount, htkl, htoken, hsorted, hranges, hpay, hsize⟩
    exact ⟨checkMessage_pass hcount htkl htoken
      ((checkEntries_ok_iff _).mpr ⟨ascends_zero.mpr hsorted, hranges⟩) hpay, hsize⟩
  · rintro ⟨hok, hsize⟩
    rcases checkMessage_cases s with ⟨-, h⟩ | ⟨-, -, h⟩ | ⟨-, -, -, h⟩ | ⟨hcount, htkl, htoken, ⟨e, -, h⟩ |
      ⟨hentries, ⟨-, -, h⟩ | ⟨hpay, -⟩⟩⟩
    case inr.inr.inr.inr.inr =>
      obtain ⟨hasc, hranges⟩ := (checkEntries_ok_iff _).mp hentries
      exact ⟨hcount, htkl, htoken, ascends_zero.mp hasc, hranges, hpay, hsize⟩
    all_goals cases h.symm.trans hok

/-! ### After a CONSTRUCT (R167, spec/70_reset_and_hazards.md R239) -/

/-- ENCODE of a table that ascends never raises InvalidOptionDelta. -/
theorem encodeMessage_sorted {s : State} (h : SortedByNum s.liveOpts) : encodeMessage s ≠ .raise .invalidOptionDelta := by
  intro hraise
  have hcheck : checkMessage s = .raise .invalidOptionDelta := by
    rcases encodeMessage_cases s with ⟨e, hc, he⟩ | ⟨-, e, hb, -⟩ | ⟨-, body, -, ⟨-, he⟩ | ⟨-, he⟩⟩
    · cases he.symm.trans hraise; exact hc
    · obtain ⟨body, hbody⟩ := encodeOptions_ok s s.liveOpts 0
      cases hb.symm.trans hbody
    · cases he.symm.trans hraise
    · cases he.symm.trans hraise
  rcases checkMessage_cases s with ⟨-, hc⟩ | ⟨-, -, hc⟩ | ⟨-, -, -, hc⟩ | ⟨-, -, -, ⟨e, hentries, hc⟩ |
      ⟨-, ⟨-, -, hc⟩ | ⟨-, hc⟩⟩⟩ <;> cases hc.symm.trans hcheck
  exact checkEntries_ascends _ (ascends_zero.mpr h) hentries

/-- The STATUS of an error kind of ENCODE tells InvalidOptionDelta from the others. -/
theorem encode_status_delta {s u : State} (h : exec .encode s = .next u) (hu : u.status = 0x00000046) :
    encodeMessage s = .raise .invalidOptionDelta := by
  rcases hm : encodeMessage s with out | e
  · cases (execEncode_ok hm).symm.trans h; rw [completeOk_status] at hu; exact absurd hu (by decide)
  · cases (execEncode_raise hm).symm.trans h
    rw [completeErr_status] at hu
    rcases encodeMessage_raise hm with rfl | rfl | rfl | rfl
    case inr.inr.inr => rfl
    all_goals exact absurd hu (by decide)

/-- Settles O11: CONSTRUCT leaves the table sorted, and ENCODE of a sorted table raises no InvalidOptionDelta. -/
theorem constructEstablishesTheEncodersOrder : Obligations.ConstructEstablishesTheEncodersOrder := by
  unfold Obligations.ConstructEstablishesTheEncodersOrder
  intro s t u hconstruct hok hencode hu
  refine encodeMessage_sorted ?_ (encode_status_delta hencode hu)
  by_cases hcount : countField s.optCount ≤ s.maxOpts
  · cases (execConstruct_ok hcount).symm.trans hconstruct
    exact (liveOpts_constructedState s).symm ▸ stableSortByNum_sorted s.liveOpts
  · cases (execConstruct_raise (Nat.not_le.mp hcount)).symm.trans hconstruct
    exact absurd hok (statusErr_ne_ok _)

end Sys2Proof.Machine
end

section
/-! The bytes of ENCODE: its header, options and payload are those of the wire form of the message that the registers denote,
without the payload of an Empty code; what ENCODE makes of a message that passes its checks, and of one that does not
(spec/42_encode.md R172 to R177). -/

namespace Sys2Proof.Machine

open Sys2Proof.Claim

/-! ### The parts of the wire form (R173 to R175) -/

theorem encodeHeader_wire (s : State) : encodeHeader s = headWire (messageOf s) := by
  have hbyte : hdrByte0 s.msgHdr = BitVec.ofNat 8 ((hdrVer s.msgHdr).toNat * 64 + (hdrTyp s.msgHdr).toNat * 16 +
      (messageOf s).token.length) := by
    apply BitVec.eq_of_toNat_eq
    have := (hdrVer s.msgHdr).isLt; have := (hdrTyp s.msgHdr).isLt; have := (hdrTkl s.msgHdr).isLt
    have htoken : (messageOf s).token.length = (hdrTkl s.msgHdr).toNat := ibufSeq_length ..
    rw [hdrByte0_eq, toNat_byte0Of, BitVec.toNat_ofNat, htoken]
    omega
  rw [encodeHeader, hbyte, lo8_eq_mod]
  rfl

/-- The packer answers for every number and length of a table entry (R178), so the options are always emitted. -/
theorem encodeOptions_wire (s : State) (es : List OptEntry) : ∀ prev, encodeOptions s prev es =
    .ok (optionsWire prev (es.map fun e => (e.num, s.ibufSeq e.off.toNat e.len.toNat))) := by
  induction es with
  | nil => exact fun _ => rfl
  | cons e es ih =>
    intro prev
    have hdelta := pack_eq_selOf (v := e.num.toNat - prev) (by have := e.num.isLt; omega)
    have hlength := pack_eq_selOf (v := e.len.toNat) (by have := e.len.isLt; omega)
    simp only [encodeOptions, hdelta, hlength, ih, List.map_cons, optionsWire, headerByte_selOf, ibufSeq_length]

theorem sent_options (m : Message) : (sent m).options = m.options := by unfold sent; split <;> rfl

theorem headWire_sent (m : Message) : headWire (sent m) = headWire m := by unfold sent; split <;> rfl

theorem sent_payload (m : Message) : (sent m).payload = if m.code = 0 then [] else m.payload := by
  unfold sent; split <;> rfl

/-- A message is sent as it is where its code is not Empty or it has no payload. -/
theorem sent_eq_self {m : Message} (h : m.code ≠ 0 ∨ m.payload = []) : sent m = m := by
  unfold sent
  split
  · next hcode => rw [← h.resolve_left (not_not_intro hcode)]
  · rfl

theorem messageOf_payload_eq_nil {s : State} : (messageOf s).payload = [] ↔ highHalf s.payDesc = 0 := by
  rw [← List.length_eq_zero_iff, messageOf, ibufSeq_length]

theorem encodePayload_wire (s : State) : encodePayload s = payloadWire (sent (messageOf s)).payload false := by
  have hemitted : (sent (messageOf s)).payload = [] ↔ ¬ (payloadCounts s = true ∧ 0 < highHalf s.payDesc) := by
    rw [sent_payload, payloadCounts_iff]
    split
    · next hcode => exact iff_of_true rfl fun ⟨hne, _⟩ => hne hcode
    · next hcode =>
      rw [messageOf_payload_eq_nil]
      exact ⟨fun hzero ⟨_, hpos⟩ => by omega, fun h => Nat.eq_zero_of_not_pos fun hpos => h ⟨hcode, hpos⟩⟩
  rw [encodePayload, payloadWire]
  by_cases h : payloadCounts s = true ∧ 0 < highHalf s.payDesc
  · have hcode : (messageOf s).code ≠ 0 := payloadCounts_iff.mp h.1
    rw [if_pos h, if_neg (mt hemitted.mp (not_not_intro h)), sent_payload, if_neg hcode]
    rfl
  · rw [if_neg h, if_pos (hemitted.mpr h)]
    rfl

theorem encoded_wire (s : State) :
    encodeHeader s ++ optionsWire 0 (messageOf s).options ++ encodePayload s = wire (sent (messageOf s)) false := by
  rw [wire, headWire_sent, sent_options, encodeHeader_wire, encodePayload_wire]

/-! ### What ENCODE answers (R176, R177) -/

/-- After CheckMessage only the size can fail. -/
theorem encodeMessage_of_check {s : State} (h : checkMessage s = .ok ()) :
    encodeMessage s = if s.maxPacket < (wire (sent (messageOf s)) false).length then .raise .invalidPacketLength
      else .ok (wire (sent (messageOf s)) false) := by
  have hbody : encodeOptions s 0 s.liveOpts = .ok (optionsWire 0 (messageOf s).options) := encodeOptions_wire s s.liveOpts 0
  simp only [encodeMessage, h, hbody, encoded_wire]

theorem encodeMessage_of_raise {s : State} {e : ErrKind} (h : checkMessage s = .raise e) : encodeMessage s = .raise e := by
  simp only [encodeMessage, h]

theorem encodeMessage_encodable {s : State} (h : Encodable s) : encodeMessage s = .ok (wire (sent (messageOf s)) false) := by
  obtain ⟨hcheck, hsize⟩ := encodable_iff.mp h
  rw [encodeMessage_of_check hcheck, if_neg (by omega)]

/-- ENCODE answers the wire form of the message and nothing else, and only where every check passes. -/
theorem encodable_of_encodeMessage {s : State} {out : List Byte} (h : encodeMessage s = .ok out) :
    Encodable s ∧ out = wire (sent (messageOf s)) false := by
  rcases hc : checkMessage s with u | e
  · have hans := (encodeMessage_of_check hc).symm.trans h
    split at hans
    · cases hans
    · next hsize => exact ⟨encodable_iff.mpr ⟨hc, Nat.not_lt.mp hsize⟩, (Result.ok.inj hans).symm⟩
  · cases (encodeMessage_of_raise hc).symm.trans h

/-! ### The command -/

/-- The state that ENCODE leaves after it has written `out`. -/
def encodedState (s : State) (out : List Byte) : State :=
  completeOk { s with obuf := Memory.writeSeq s.obuf 0 out, outLen := BitVec.ofNat 32 out.length }

theorem exec_encode_encodable {s : State} (h : Encodable s) :
    exec .encode s = .next (encodedState s (wire (sent (messageOf s)) false)) :=
  execEncode_ok (encodeMessage_encodable h)

/-- A successful ENCODE: the registers pass every check, and their message is written. -/
theorem execEncode_success {s t : State} (h : exec .encode s = .next t) (hok : t.status = 0x00000002) :
    Encodable s ∧ t = encodedState s (wire (sent (messageOf s)) false) := by
  rcases hm : encodeMessage s with out | e
  · obtain ⟨henc, rfl⟩ := encodable_of_encodeMessage hm
    exact ⟨henc, (Host.Outcome.next.inj ((exec_encode_encodable henc).symm.trans h)).symm⟩
  · cases (execEncode_raise hm).symm.trans h
    exact absurd hok (statusErr_ne_ok e)

section
variable {s : State} {out : List Byte} (hsize : out.length ≤ s.maxPacket)
include hsize

theorem outLen_encodedState : (encodedState s out).outLen.toNat = out.length := by
  have hmax : s.maxPacket < 65536 := s.params.maxPacketSize.isLt
  rw [encodedState, completeOk_outLen, BitVec.toNat_ofNat, Nat.mod_eq_of_lt (by omega)]

/-- OBUF holds the bytes written from address 0 on, and keeps every other byte. -/
theorem obufAt_encodedState (a : Nat) :
    (encodedState s out).obufAt a = if h : a < out.length then out[a] else s.obufAt a := by
  have hread := byteAt_writeSeq (space := .obuf) (m := s.obuf) a (show 0 + out.length ≤ s.maxPacket by omega)
  simpa [State.obufAt, encodedState, State.maxPacket] using hread

theorem obufSeq_encodedState : (encodedState s out).obufSeq 0 out.length = out := by
  refine List.ext_getElem (obufSeq_length ..) fun i hi hi' => ?_
  rw [obufSeq_getElem, Nat.zero_add, obufAt_encodedState hsize, dif_pos hi']

theorem obufAt_encodedState_above {a : Nat} (h : out.length ≤ a) : (encodedState s out).obufAt a = s.obufAt a := by
  rw [obufAt_encodedState hsize, dif_neg (by omega)]

end

/-- Settles O12: what passes the checks is written from address 0 on. -/
theorem encodeEmitsTheMessage : Obligations.EncodeEmitsTheMessage := by
  unfold Obligations.EncodeEmitsTheMessage
  intro s h
  obtain ⟨-, hsize⟩ := encodable_iff.mp h
  exact ⟨_, exec_encode_encodable h, rfl, outLen_encodedState hsize, obufSeq_encodedState hsize,
    fun _ ha => obufAt_encodedState_above hsize ha, fun _ => rfl⟩

/-! ### The first failing check (R172, R176) -/

theorem encode_fails_check {s : State} {e : ErrKind} {v : Word} (h : checkMessage s = .raise e) (hv : statusErr e = v) :
    FailsWith .encode s v :=
  failsWith_of_exec (execEncode_raise (encodeMessage_of_raise h)) hv

/-- A message that does not fit is InvalidPacketLength, from the payload's range check or from the size check. -/
theorem encode_fails_size {s : State} (hcount : countField s.optCount ≤ s.maxOpts) (htkl : (hdrTkl s.msgHdr).toNat ≤ 8)
    (htoken : inRange s.ibufSize (lowHalf s.tokDesc) (hdrTkl s.msgHdr).toNat)
    (hentries : checkEntries s.ibufSize 0 s.liveOpts = .ok ())
    (hsize : s.maxPacket < (wire (sent (messageOf s)) false).length) : FailsWith .encode s 0x00000026 := by
  by_cases hpay : hdrCode s.msgHdr ≠ 0 → inRange s.ibufSize (lowHalf s.payDesc) (highHalf s.payDesc)
  · have hraise : encodeMessage s = .raise .invalidPacketLength := by
      rw [encodeMessage_of_check (checkMessage_pass hcount htkl htoken hentries hpay), if_pos hsize]
    exact failsWith_of_exec (execEncode_raise hraise) statusErr_invalidPacketLength
  · obtain ⟨hcode, hrange⟩ := Classical.not_imp.mp hpay
    exact encode_fails_check (checkMessage_payload hcount htkl htoken hentries hcode hrange) statusErr_invalidPacketLength

/-- Settles O13, check by check; among the option entries, the first that fails stands after entries that pass. -/
theorem encodeReportsItsFirstFailingCheck : Obligations.EncodeReportsItsFirstFailingCheck := by
  unfold Obligations.EncodeReportsItsFirstFailingCheck
  refine fun s => ⟨fun hcount => ?_, fun hcount htkl => ?_, fun hcount htkl => ⟨fun htoken => ?_, fun htoken => ⟨?_, ?_⟩⟩⟩
  · exact encode_fails_check (checkMessage_count hcount) statusErr_optionsLimitExceeded
  · exact encode_fails_check (checkMessage_tkl hcount htkl) statusErr_invalidTokenLength
  · exact encode_fails_check (checkMessage_token hcount htkl htoken) statusErr_invalidPacketLength
  · intro i e hbefore he
    obtain ⟨hi, hget⟩ := List.getElem?_eq_some_iff.mp he
    have hpass : ∀ j e', j < i → s.liveOpts[j]? = some e' →
        numBefore 0 s.liveOpts j ≤ e'.num.toNat ∧ inRange s.ibufSize e'.off.toNat e'.len.toNat := by
      intro j e' hj he'
      obtain ⟨hord, hrange⟩ := hbefore j e' hj he'
      exact ⟨(inOrderAt_iff he').mp hord, hrange⟩
    have hfirst := checkEntries_drop (Nat.le_of_lt hi) hpass
    rw [List.drop_eq_getElem_cons hi, hget] at hfirst
    rw [inOrderAt_iff he]
    refine ⟨fun hord => ?_, fun hord hrange => ?_⟩
    · rw [checkEntries_unordered (Nat.not_le.mp hord)] at hfirst
      exact encode_fails_check (checkMessage_entries hcount htkl htoken hfirst) statusErr_invalidOptionDelta
    · rw [checkEntries_outOfRange hord hrange] at hfirst
      exact encode_fails_check (checkMessage_entries hcount htkl htoken hfirst) statusErr_invalidPacketLength
  · intro hsorted hranges
    have hentries := (checkEntries_ok_iff s.liveOpts).mpr ⟨ascends_zero.mpr hsorted, hranges⟩
    exact ⟨fun hcode hrange => encode_fails_check (checkMessage_payload hcount htkl htoken hentries hcode hrange)
      statusErr_invalidPacketLength, encode_fails_size hcount htkl htoken hentries⟩

end Sys2Proof.Machine
end

section
/-! ENCODE and DECODE one after the other: DECODE of what ENCODE wrote gives the message back, and ENCODE after DECODE gives the
input back as far as the message is sent (spec/42_encode.md R179, R180). -/

namespace Sys2Proof.Machine

open Sys2Proof.Claim

/-! ### DECODE of the encoder's output -/

/-- The registers of a message that ENCODE accepts hold no more options than the table. -/
theorem messageOf_options_le {s : State} (h : Encodable s) : (messageOf s).options.length ≤ s.maxOpts := by
  obtain ⟨hcount, -⟩ := h
  simp only [messageOf, State.liveOpts, List.length_map, List.length_take]
  omega

/-- DECODE reads an encodable message from any input that is its wire form. -/
theorem decode_encoded {s u : State} (henc : Encodable s) (hparams : u.params = s.params) (hsize : inputLen u ≤ u.ibufSize)
    (hinput : u.ibufSeq 0 (inputLen u) = wire (messageOf s) false) :
    ∃ v, exec .decode u = .next v ∧ v.status = 0x00000002 ∧ messageOf v = messageOf s := by
  have hmax : u.maxOpts = s.maxOpts := by rw [State.maxOpts, State.maxOpts, hparams]
  have hcount := messageOf_options_le henc
  obtain ⟨-, htkl, -, hsorted, -⟩ := henc
  obtain ⟨v, hv, hframe, -, -, -, -, -, hmessage⟩ := decodeReadsTheMessage u (messageOf s) false
    ((ibufSeq_length ..).trans_le htkl) (hmax ▸ hcount) (List.pairwise_map.mpr hsorted) hsize hinput
  exact ⟨v, hv, by rw [hframe, finished], hmessage⟩

/-! ### ENCODE of the decoder's registers -/

/-- The registers after a DECODE pass every check of ENCODE; only the size can fail. -/
theorem encodable_of_decode {s t : State} (h : exec .decode s = .next t) (hok : t.status = 0x00000002)
    (hfit : (wire (sent (messageOf t)) false).length ≤ s.maxPacket) : Encodable t := by
  obtain ⟨hframe, -, -, htkl, -, -, hcount, -, hsorted, -, -, -, -, htoken, hranges, hpay⟩ :=
    decodeEstablishesTheMessageInvariants s t h hok
  have hparams : t.params = s.params := (exec_engineKeeps h).params
  have hmax : t.maxOpts = s.maxOpts := by rw [State.maxOpts, State.maxOpts, hparams]
  have hpacket : t.maxPacket = s.maxPacket := by rw [State.maxPacket, State.maxPacket, hparams]
  exact ⟨hmax ▸ hcount, htkl, htoken, hsorted, hranges, fun _ => hpay, hpacket ▸ hfit⟩

/-- ENCODE after a DECODE emits the message that was read, as far as it is sent. -/
theorem encode_decoded {s t : State} (h : exec .decode s = .next t) (hok : t.status = 0x00000002)
    (hfit : (wire (sent (messageOf t)) false).length ≤ s.maxPacket) :
    ∃ u, exec .encode t = .next u ∧ u.status = 0x00000002 ∧ u.outLen.toNat = (wire (sent (messageOf t)) false).length ∧
      u.obufSeq 0 (wire (sent (messageOf t)) false).length = wire (sent (messageOf t)) false := by
  obtain ⟨u, hu, hframe, hlen, hbytes, -⟩ := encodeEmitsTheMessage t (encodable_of_decode h hok hfit)
  exact ⟨u, hu, by rw [hframe, finished], hlen, hbytes⟩

/-- Settles O49: the wire form of a message with nothing to drop is what ENCODE writes and what DECODE reads. -/
theorem encodeAndDecodeRoundTrip : Obligations.EncodeAndDecodeRoundTrip := by
  unfold Obligations.EncodeAndDecodeRoundTrip
  refine ⟨fun s t u hencode hok hkept hparams hlen hsize hinput => ?_, fun s t hdecode hok hwire hkept hfit => ?_⟩
  · obtain ⟨henc, rfl⟩ := execEncode_success hencode hok
    obtain ⟨-, hout⟩ := encodable_iff.mp henc
    rw [outLen_encodedState hout] at hlen
    rw [hlen, obufSeq_encodedState hout, ← hlen, sent_eq_self (hkept.imp_right messageOf_payload_eq_nil.mpr)] at hinput
    exact decode_encoded henc hparams hsize hinput
  · have hsent : sent (messageOf t) = messageOf t := sent_eq_self (hkept.imp_right messageOf_payload_eq_nil.mpr)
    have hlen : (wire (sent (messageOf t)) false).length = inputLen s := by rw [hsent, ← hwire, ibufSeq_length]
    obtain ⟨u, hu, hstatus, hout, hbytes⟩ := encode_decoded hdecode hok (hlen.trans_le hfit)
    rw [hlen] at hout hbytes
    exact ⟨u, hu, hstatus, hout, by rw [hbytes, hsent, hwire]⟩

/-! ### How much of the input comes back (R180) -/

/-- What is sent of a message whose payload is not emitted: its wire form up to the end of the options. -/
theorem wire_sent_of_dropped {m : Message} (h : ¬ (m.code ≠ 0 ∧ m.payload ≠ [])) :
    wire (sent m) false = headWire m ++ optionsWire 0 m.options := by
  have hpay : (sent m).payload = [] := by
    rw [sent_payload]
    split
    · rfl
    · next hcode => exact Decidable.not_not.mp fun hne => h ⟨hcode, hne⟩
  rw [wire, headWire_sent, sent_options, hpay]
  exact List.append_nil _

/-- What is sent of a message whose payload is emitted: its whole wire form, in which no bare marker stands. -/
theorem wire_sent_of_emitted {m : Message} (bare : Bool) (h : m.code ≠ 0 ∧ m.payload ≠ []) :
    wire (sent m) false = wire m bare := by
  obtain ⟨hcode, hpay⟩ := h
  rw [sent_eq_self (.inl hcode), wire, wire, payloadWire, payloadWire, if_neg hpay, if_neg hpay]

section
variable {s : State} {m : Message} {bare : Bool}

/-- What is sent of the message in the input is the input's first part. -/
theorem InputIs.bytes_sent (h : InputIs s m bare) : BytesAt s 0 (wire (sent m) false) := by
  by_cases hemit : m.code ≠ 0 ∧ m.payload ≠ []
  · rw [wire_sent_of_emitted bare hemit]
    exact h.bytes
  · rw [wire_sent_of_dropped hemit]
    exact (bytesAt_append.mp h.bytes).1

/-- That part is the whole input where the payload is emitted, and otherwise ends with the options. -/
theorem InputIs.length_sent (h : InputIs s m bare) : (wire (sent m) false).length =
    if m.code ≠ 0 ∧ m.payload ≠ [] then inputLen s else Claim.optionsEnd (decodedState s m) := by
  by_cases hemit : m.code ≠ 0 ∧ m.payload ≠ []
  · rw [if_pos hemit, wire_sent_of_emitted bare hemit, h.length]
  · rw [if_neg hemit, wire_sent_of_dropped hemit, h.optionsEnd, List.length_append, headWire, List.length_append]
    simp only [List.length_cons, List.length_nil]

end

/-- Settles O50: what is sent of the message that was read stands at the start of the input. -/
theorem decodeThenEncodeGivesTheBuffer : Obligations.DecodeThenEncodeGivesTheBuffer := by
  unfold Obligations.DecodeThenEncodeGivesTheBuffer
  intro s t n hdecode hok hn hfit
  obtain ⟨m, bare, hin, rfl⟩ := execDecode_success hdecode hok
  have hmessage : messageOf (decodedState s m) = m := messageOf_decoded hin.token hin.count hin.length hin.bytes
  have hemit : (hdrCode (decodedState s m).msgHdr ≠ 0 ∧ 0 < highHalf (decodedState s m).payDesc) ↔
      m.code ≠ 0 ∧ m.payload ≠ [] := by
    have hcode : hdrCode (decodedState s m).msgHdr = m.code := congrArg Message.code hmessage
    rw [hcode, hin.payLen, List.length_pos_iff]
  have hlen : (wire (sent m) false).length = n := by rw [hn, hin.length_sent]; simp only [hemit]
  have hfirst := hin.bytes_sent
  rw [BytesAt, hlen] at hfirst
  have hsent := encode_decoded hdecode hok
  rw [hmessage, hlen] at hsent
  obtain ⟨u, hu, hstatus, hout, hbytes⟩ := hsent hfit
  exact ⟨u, hu, hstatus, hout, hbytes.trans hfirst.symm⟩

end Sys2Proof.Machine
end

section
/-! The exceptional side of the block: what a failing command leaves unchanged, which errors each command reports, and that no
state stops the machine (spec/60_exceptions.md R201, R204, R205, R207, R214). -/

namespace Sys2Proof.Machine

open Sys2Proof.Claim

/-! ### Steps -/

/-- Settles O32: a step without an access to serve and without a command under way is the one that changes nothing. -/
theorem idleBlockWaits : Obligations.IdleBlockWaits := by
  unfold Obligations.IdleBlockWaits
  intro s hidle hport
  rcases step_cases s with ⟨-, -, hstep⟩ | ⟨op, rest, hserved, -⟩ | ⟨w, f, hbusy, -⟩ | ⟨w, hbusy, -⟩
  · exact hstep
  · cases hport.symm.trans hserved
  · cases hidle.symm.trans hbusy
  · cases hidle.symm.trans hbusy

/-- Settles O38: waiting, an access of the host and the end of a DECODE give a next state outright, and so does the instruction
that the engine executes, whichever it is. -/
theorem stepNeverStops : Obligations.StepNeverStops := by
  unfold Obligations.StepNeverStops
  intro s
  rcases step_cases s with ⟨-, -, hstep⟩ | ⟨op, rest, -, -, hstep⟩ | ⟨w, f, -, -, -, hstep⟩ | ⟨w, -, -, -, -, hstep⟩
  · exact ⟨s, hstep⟩
  · exact ⟨_, hstep⟩
  · obtain ⟨t, ht⟩ := exec_next (decode f) s
    exact ⟨t, hstep.trans ht⟩
  · exact ⟨_, hstep⟩

/-! ### A failing command (R201, R204) -/

/-- Settles O34: STATUS other than 2 excludes the success, and the completion with an error replaces no more than that. -/
theorem failedCommandsChangeOnlyStatus : Obligations.FailedCommandsChangeOnlyStatus := by
  unfold Obligations.FailedCommandsChangeOnlyStatus
  intro s t w hexec hfailed
  rcases execCommand_completes w s with ⟨u, ht⟩ | ⟨e, ht⟩ <;> cases ht.symm.trans hexec
  · exact absurd (completeOk_status u) hfailed
  · exact ⟨rfl, fun _ => ⟨rfl, rfl⟩⟩

/-! ### The errors of each command (R205) -/

/-- The instruction completes with success or with one of the listed error kinds, as a row of the table of R205 says. -/
def CompletesWithin (i : Instr) (s : State) (kinds : List ErrKind) : Prop :=
  (∃ u, exec i s = .next (completeOk u)) ∨ ∃ e ∈ kinds, exec i s = .next (completeErr s e)

/-- The STATUS that such an instruction leaves is that of a success or that of one of its kinds. -/
theorem CompletesWithin.status {i : Instr} {s t : State} {kinds : List ErrKind} (h : CompletesWithin i s kinds)
    (hexec : exec i s = .next t) : t.status ∈ statusOk :: kinds.map statusErr := by
  rcases h with ⟨u, ht⟩ | ⟨e, he, ht⟩ <;> cases ht.symm.trans hexec
  · exact List.mem_cons_self
  · exact List.mem_cons_of_mem _ (List.mem_map_of_mem he)

theorem decode_completesWithin (s : State) : CompletesWithin .decode s
    [.invalidPacketLength, .invalidTokenLength, .invalidOptionDelta, .invalidOptionLength, .optionsLimitExceeded] := by
  rcases execDecode_cases s with ⟨e, he, ht⟩ | ⟨d, -, ht⟩
  · exact .inr ⟨e, by simpa using decodeMessage_fail he, ht⟩
  · exact .inl ⟨_, ht⟩

theorem encode_completesWithin (s : State) : CompletesWithin .encode s
    [.optionsLimitExceeded, .invalidTokenLength, .invalidPacketLength, .invalidOptionDelta] := by
  rcases hm : encodeMessage s with out | e
  · exact .inl ⟨_, execEncode_ok hm⟩
  · exact .inr ⟨e, by simpa using encodeMessage_raise hm, execEncode_raise hm⟩

theorem construct_completesWithin (s : State) : CompletesWithin .construct s [.optionsLimitExceeded] := by
  by_cases hcount : s.maxOpts < countField s.optCount
  · exact .inr ⟨_, List.mem_singleton_self _, execConstruct_raise hcount⟩
  · exact .inl ⟨_, execConstruct_ok (Nat.not_lt.mp hcount)⟩

theorem packf_completesWithin (s : State) : CompletesWithin .packf s [.invalidPacketLength] := by
  by_cases hlarge : 65804 < packInValue s.packIn
  · exact .inr ⟨_, List.mem_singleton_self _, execPackf_raise (pack_too_large hlarge)⟩
  · exact .inl ⟨_, execPackf_ok (pack_eq_selOf (Nat.not_lt.mp hlarge))⟩

theorem unpackf_completesWithin (s : State) : CompletesWithin .unpackf s [.invalidOptionDelta, .invalidOptionLength] := by
  rcases hu : unpack (unpackInSel s.unpackIn) (unpackInKind s.unpackIn) (unpackInBytes s.unpackIn) with u | e
  · exact .inl ⟨_, execUnpackf_ok hu⟩
  · refine .inr ⟨e, ?_, execUnpackf_raise hu⟩
    rcases unpack_raise_cases hu with ⟨rfl, -, -⟩ | rfl
    · exact List.mem_cons_self
    · exact List.mem_cons_of_mem _ List.mem_cons_self

/-- Settles O35, row by row of the table: the listed kinds have the listed STATUS values. -/
theorem commandsRaiseOnlyTheirErrors : Obligations.CommandsRaiseOnlyTheirErrors := by
  unfold Obligations.CommandsRaiseOnlyTheirErrors
  intro s t
  refine ⟨?_, ?_, ?_, ?_, ?_, fun w hexec => ?_⟩
  · exact (decode_completesWithin s).status
  · exact (encode_completesWithin s).status
  · exact (construct_completesWithin s).status
  · exact (packf_completesWithin s).status
  · exact (unpackf_completesWithin s).status
  · obtain ⟨u, hu, hfinished, -⟩ := illegalCmd_fails s w
    cases hu.symm.trans hexec
    rw [hfinished, finished]

end Sys2Proof.Machine
end

section
/-! Reset: what every register reads after the reset input, and what each command makes of the state after reset
(spec/70_reset_and_hazards.md R230 to R233). -/

namespace Sys2Proof.Machine

open Sys2Proof.Claim

/-! ### The reset input (R230 to R232) -/

/-- Every entry of the option table has the reset value 0 (spec/10_state.md R33, R40). -/
theorem resetInput_entry {s : State} {i : Nat} {e : OptEntry} (h : (resetInput s).opts[i]? = some e) :
    e = { num := 0, off := 0, len := 0 } :=
  List.eq_of_mem_replicate (List.mem_of_getElem? h)

/-- Every register but CFG0 and CFG1 has the reset value 0 (spec/10_state.md R40). -/
theorem regValue_resetInput (s : State) {r : Reg} (h0 : r ≠ .cfg0) (h1 : r ≠ .cfg1) : regValue (resetInput s) r = 0 := by
  cases r with
  | cfg0 => exact absurd rfl h0
  | cfg1 => exact absurd rfl h1
  | optNum i =>
    rcases he : (resetInput s).opts[i]? with _ | e
    · simp only [regValue, he]
    · cases resetInput_entry he; simp only [regValue, he]; rfl
  | optVal i =>
    rcases he : (resetInput s).opts[i]? with _ | e
    · simp only [regValue, he]
    · cases resetInput_entry he; simp only [regValue, he]; rfl
  | _ => rfl

/-- After the reset input CFG0 and CFG1 read as before, and every other offset reads 0, mapped or not. -/
theorem hostReadReg_resetInput (s : State) (w : BitVec 10) :
    hostReadReg (resetInput s) w = if w = 0x00C ∨ w = 0x00D then hostReadReg s w else 0 := by
  split
  · next hcfg => rcases hcfg with rfl | rfl <;> rfl
  · next hcfg =>
    rcases hr : regAt (resetInput s).maxOpts w with _ | r
    · exact hostReadReg_unmapped hr
    · obtain ⟨-, hw⟩ := regAt_sound hr
      simp only [hostReadReg, hr]
      refine regValue_resetInput s ?_ ?_
      · rintro rfl; exact hcfg (.inl (BitVec.eq_of_toNat_eq hw))
      · rintro rfl; exact hcfg (.inr (BitVec.eq_of_toNat_eq hw))

/-- Settles O43: the access is the reset input, whatever PHASE was. -/
theorem resetInputResetsRegistersAndKeepsBuffers : Obligations.ResetInputResetsRegistersAndKeepsBuffers := by
  unfold Obligations.ResetInputResetsRegistersAndKeepsBuffers
  intro s rest _ hturn
  exact ⟨hostTurn s .reset rest, step_of_hostTurn hturn, rfl, rfl, rfl, fun _ => ⟨rfl, rfl⟩, hostReadReg_resetInput _⟩

/-! ### The commands after reset (R233) -/

/-- The message whose fields are all 0 and whose sequences are all empty. -/
def emptyMessage : Message :=
  { ver := 0, typ := 0, code := 0, mid := 0, token := [], options := [], payload := [] }

/-! The fields of a register that reads 0. -/

@[simp] theorem hdrVer_zero : hdrVer 0#32 = 0 := rfl
@[simp] theorem hdrTyp_zero : hdrTyp 0#32 = 0 := rfl
@[simp] theorem hdrCode_zero : hdrCode 0#32 = 0 := rfl
@[simp] theorem hdrMid_zero : hdrMid 0#32 = 0 := rfl
@[simp] theorem hdrTkl_zero : hdrTkl 0#32 = 0 := rfl
@[simp] theorem lowHalf_zero : lowHalf 0#32 = 0 := rfl
@[simp] theorem highHalf_zero : highHalf 0#32 = 0 := rfl
@[simp] theorem countField_zero : countField 0#32 = 0 := rfl

theorem wire_emptyMessage : wire (sent emptyMessage) false = [0, 0, 0, 0] := by decide

section
variable (p : Params)

@[simp] theorem resetWith_inLen : (State.resetWith p).inLen = 0 := rfl
@[simp] theorem resetWith_msgHdr : (State.resetWith p).msgHdr = 0 := rfl
@[simp] theorem resetWith_tokDesc : (State.resetWith p).tokDesc = 0 := rfl
@[simp] theorem resetWith_payDesc : (State.resetWith p).payDesc = 0 := rfl
@[simp] theorem resetWith_optCount : (State.resetWith p).optCount = 0 := rfl

@[simp] theorem liveOpts_resetWith : (State.resetWith p).liveOpts = [] := by simp [State.liveOpts]

theorem messageOf_resetWith : messageOf (State.resetWith p) = emptyMessage := by
  simp [messageOf, emptyMessage]

/-- No token, no option and no payload is out of range, and the four bytes of the empty message fit every legal packet size
(spec/00_scope.md R5). -/
theorem encodable_resetWith (h : 4 ≤ p.maxPacketSize.toNat) : Encodable (State.resetWith p) := by
  have hsize : (wire (sent (messageOf (State.resetWith p))) false).length ≤ p.maxPacketSize.toNat := by
    rw [messageOf_resetWith, wire_emptyMessage]; exact h
  have htoken : (hdrTkl (State.resetWith p).msgHdr).toNat = 0 := by simp
  have hpayload : highHalf (State.resetWith p).payDesc = 0 := by simp
  exact ⟨by simp, by omega, .inl htoken, by simp [SortedByNum], by simp, fun _ => .inl hpayload, hsize⟩

theorem encode_resetWith (h : 4 ≤ p.maxPacketSize.toNat) :
    exec .encode (State.resetWith p) = .next (encodedState (State.resetWith p) [0, 0, 0, 0]) := by
  rw [exec_encode_encodable (encodable_resetWith p h), messageOf_resetWith, wire_emptyMessage]

/-- An IN_LEN of 0 is too short for a header. -/
theorem decode_resetWith : FailsWith .decode (State.resetWith p) 0x00000026 :=
  have hshort : inputLen (State.resetWith p) < 4 := by simp [inputLen]
  failsWith_of_verdict rfl (decodeMessage_header_fail (decodeHeader_length_fail _ _ _ (.inr hshort)))
    statusErr_invalidPacketLength

/-- A CONSTRUCT of no options leaves the whole table. -/
theorem construct_resetWith :
    exec .construct (State.resetWith p) = .next (finished (State.resetWith p) 0x00000002) :=
  execConstruct_ok (s := State.resetWith p) (Nat.zero_le _)

/-- PACK of 0 is selector 0 without extension bytes: PACK_OUT stays 0. -/
theorem packf_resetWith : exec .packf (State.resetWith p) = .next (finished (State.resetWith p) 0x00000002) :=
  execPackf_ok (s := State.resetWith p) (p := { sel := 0, ext := [] }) rfl

/-- UNPACK of selector 0 is the value 0 without extension bytes: UNPACK_OUT stays 0. -/
theorem unpackf_resetWith : exec .unpackf (State.resetWith p) = .next (finished (State.resetWith p) 0x00000002) :=
  execUnpackf_ok (s := State.resetWith p) (u := { value := 0, consumed := 0 }) rfl

end

/-- Settles O44, command by command; only ENCODE needs a parameter, the packet size. -/
theorem commandsAfterReset : Obligations.CommandsAfterReset := by
  unfold Obligations.CommandsAfterReset
  rintro p ⟨hpacket, -, -⟩
  exact ⟨messageOf_resetWith p, ⟨_, encode_resetWith p hpacket, rfl, rfl, obufSeq_encodedState hpacket⟩,
    decode_resetWith p, construct_resetWith p, packf_resetWith p, unpackf_resetWith p⟩

end Sys2Proof.Machine
end
